-- ==== Sys2Proof/Word.lean ====
section
/-!
DEFINITION. The word types of the block and fixed-length vectors of them.
Widths: a register or a lane is 32 bits, a stream byte 8, a dequantization entry 16, a command field 4 or 8,
a binary64 value 64 (spec 00_scope R6, R7; 10_state R39 to R43; 30_encoding R90).
-/

namespace Sys2Proof

abbrev Word := BitVec 32
abbrev Half := BitVec 16
abbrev Byte := BitVec 8
/-- A 4-bit field of a command word. -/
abbrev Nib := BitVec 4
/-- The bit pattern of an IEEE 754 binary64 value. -/
abbrev F64 := BitVec 64
/-- A byte offset in the host window, 21 bits wide (20_memory R62). -/
abbrev Offset := BitVec 21

/-- The vector whose entry `i` is `f i`. -/
def tab {α : Type} {n : Nat} (f : Nat → α) : Vector α n :=
  ⟨⟨List.ofFn fun i : Fin n => f i.val⟩, by simp⟩

/-- Entry `i`; the type's default where there is no such entry. -/
def nth {α : Type} {n : Nat} [Inhabited α] (v : Vector α n) (i : Nat) : α :=
  v.toList.getD i default

/-- The vector with entry `i` replaced; unchanged where there is no such entry. -/
def put {α : Type} {n : Nat} (v : Vector α n) (i : Nat) (x : α) : Vector α n :=
  ⟨⟨v.toList.set i x⟩, by simp⟩

/-- A block: 64 lanes in natural (row-major) order, lane `8·row + column` (00_scope R7). -/
abbrev Block := Vector Word 64

end Sys2Proof
end

