-- ==== Sys2Proof/Machine/Arith.lean ====
section
/-!
DEFINITION. The integer primitives of 00_scope R8, on exact integers.
-/

namespace Sys2Proof.Machine

/-- R8: `wrap32(x) = ((x + 2^31) mod 2^32) - 2^31`. -/
def wrap32 (x : Int) : Int := (x + 2 ^ 31) % 2 ^ 32 - 2 ^ 31

/-- R8: `sra(x, n) = floor(x / 2^n)`. -/
def sra (x : Int) (n : Nat) : Int := x / 2 ^ n

/-- R8: `shl32(x, n) = wrap32(x · 2^n)`. -/
def shl32 (x : Int) (n : Nat) : Int := wrap32 (x * 2 ^ n)

/-- R8: `clamp(lo, hi, x) = min(hi, max(lo, x))`. -/
def clamp (lo hi x : Int) : Int := min hi (max lo x)

/-- The 32-bit pattern of an integer: storing into a lane or a register (R7, R8). -/
def toWord (x : Int) : Word := BitVec.ofInt 32 x

/-- A 32-bit pattern read as signed (R7). -/
def signed (w : Word) : Int := w.toInt

end Sys2Proof.Machine
end

