-- ==== Sys2Proof/Config.lean ====
section
/-!
DEFINITION. What an implementation fixes, and the free values.
The parameters are those a model takes as arguments (00_scope R6). The free values are the draws of
93_implementation_defined part 1, treatment "any value": constants with no body, so that nothing can be
proved of the value of one.
-/

namespace Sys2Proof

/-- How the quantizer rounds (44_fdct_quant R225, 92 D26). -/
inductive RoundImpl where
  | exact
  | addHalfB64
  deriving DecidableEq, Repr

/-- The implementation parameters a model takes as arguments (00_scope R6). -/
structure Config where
  /-- `STREAM_CAP`, bytes of stream memory (92 D8). -/
  streamCap : Nat
  /-- `ROUND_IMPL` (92 D26). -/
  roundImpl : RoundImpl
  deriving DecidableEq, Repr

namespace Config

/-- The largest `STREAM_CAP`: the size of the aperture (00_scope R6, 92 D8). -/
abbrev maxStreamCap : Nat := 0x100000

/-- The default parameters (00_scope R6). -/
def standard : Config := ⟨maxStreamCap, .exact⟩

/-- `STREAM_CAP` is at most its maximum (00_scope R6). -/
def legal (c : Config) : Bool := decide (c.streamCap ≤ maxStreamCap)

/-! The free values. The first argument is the number of the draw: a hardware reset or a failing command
takes a fresh number (State's `draws`), so that two draws are unrelated. DESIGN CHOICE: see
notes/assumptions/4.md. -/

/-- A lane: draw, buffer, lane. -/
opaque drawLane : Nat → Nat → Nat → Word
/-- A dequantization entry: draw, slot, index. -/
opaque drawQuant : Nat → Nat → Nat → Half
/-- What the host reads of an invalid dequantization table: draw, slot, index (93 U4). -/
opaque drawQuantRead : Nat → Nat → Nat → Word
/-- An encoder reciprocal: draw, slot, index. -/
opaque drawRecip : Nat → Nat → Nat → F64
/-- A code-length count: draw, class, slot, length - 1. -/
opaque drawBits : Nat → Nat → Nat → Nat → Byte
/-- The symbols of a Huffman table: draw, class, slot. -/
opaque drawVals : Nat → Nat → Nat → List Byte
/-- A stream byte: draw, offset. -/
opaque drawByte : Nat → Nat → Byte
/-- `BR_OFFSET`. -/
opaque drawOffset : Nat → Word
/-- `BR_STATE.BDATA`. -/
opaque drawBdata : Nat → Byte
/-- `BR_STATE.BCOUNT`. -/
opaque drawBcount : Nat → BitVec 3
/-- `RESULT`. -/
opaque drawResult : Nat → Word
/-- `STATUS.NOBIT`. -/
opaque drawNobit : Nat → Bool
/-- `STATUS.MSTOP`. -/
opaque drawMstop : Nat → Bool
/-- A predictor: draw, index. -/
opaque drawPred : Nat → Nat → Word
/-- `EOBRUN`. -/
opaque drawEobrun : Nat → Word
/-- `ACSTATE.STATE`, one of its five values. -/
opaque drawAcMode : Nat → Fin 5
/-- `ACSTATE.NEXTNEG`. -/
opaque drawNextNeg : Nat → Bool
/-- `TBLPTR`. -/
opaque drawTblptr : Nat → Word
/-- The integer a NaN or an infinity is quantized to; the spec gives none and never meets one
(44_fdct_quant R225; notes/assumptions/13.md). -/
opaque quantNonFinite : F64 → Int

end Config

end Sys2Proof
end

