-- ==== Sys2Proof/Syntax.lean ====
section
/-!
DEFINITION. The 24 commands (30_encoding R93), one constructor per row of spec/opcode_table.json.
A constructor carries the fields its command uses (R90, R91), as the command word holds them; WellFormed.lean
holds the ranges that R93 checks at decode.
-/

namespace Sys2Proof

inductive Instr where
  /-- `NOP` (46_control R270). -/
  | nop
  /-- `ZERO bD` (R271). -/
  | zero (d : Nib)
  /-- `COPY bD, bS` (R272). -/
  | copy (d s : Nib)
  /-- `READBIT` (40_bitreader R121). -/
  | readbit
  /-- `RECEIVE n` (R122). -/
  | receive (n : Byte)
  /-- `RECEIVEX n` (R123). -/
  | receivex (n : Byte)
  /-- `ALIGN` (R124). -/
  | align
  /-- `SCANINIT` (R125). -/
  | scaninit
  /-- `RSTSYNC` (R127). -/
  | rstsync
  /-- `HTLOAD spec` (41_huffman R140): the DHT spec byte, class in 7:4 and slot in 3:0. -/
  | htload (spec : Byte)
  /-- `HDEC dcN | acN` (R142): `I[7:4]` the class, `I[3:0]` the slot. -/
  | hdec (cls slot : Nib)
  /-- `DECBASE bD, dcT, acU, pI` (42_block_decode R161). -/
  | decbase (d t u : Nib) (p : Byte)
  /-- `DCFIRST bD, dcT, pI` (R162). -/
  | dcfirst (d t : Nib) (p : Byte)
  /-- `DCSUCC bD` (R163). -/
  | dcsucc (d : Nib)
  /-- `ACFIRST bD, acU` (R164). -/
  | acfirst (d u : Nib)
  /-- `ACSUCC bD, acU` (R165). -/
  | acsucc (d u : Nib)
  /-- `QLOAD spec` (43_dequant_idct R190): the DQT spec byte, precision in 7:4 and slot in 3:0. -/
  | qload (spec : Byte)
  /-- `DEQUANT bD, bS, qT` (R191). -/
  | dequant (d s t : Nib)
  /-- `IDCT bD, bS` (R192). -/
  | idct (d s : Nib)
  /-- `QSCALE bD, bS, quality` (44_fdct_quant R220). -/
  | qscale (d s : Nib) (quality : Byte)
  /-- `EQLOAD bS, fT` (R221). -/
  | eqload (s t : Nib)
  /-- `FDCTQ bD, bS, fT` (R222). -/
  | fdctq (d s t : Nib)
  /-- `ZZFWD bD, bS` (45_zigzag R251). -/
  | zzfwd (d s : Nib)
  /-- `ZZINV bD, bS` (R252). -/
  | zzinv (d s : Nib)
  deriving DecidableEq, Repr

end Sys2Proof
end

