-- ==== Sys2Proof/Machine/State.lean ====
section
/-!
DEFINITION. The state of the block (10_state, 20_memory), the reasons it can stop, and reset (R45, R340).
Everything here is plain data. ID and CAPS are constants, and CTRL and CMD are write only, so they have no
field (R21 to R25).
-/

namespace Sys2Proof.Machine

/-- Why a step stops. No command stops: a command's errors are next states (60_exceptions R303). -/
inductive Fault where
  /-- A host access while `BUSY` = 1 to which 70 R350 gives no defined result (93 U6: "refuse"; R356: "a model
  gives such accesses no meaning"). Raised by the host interface only. Safe: no claim covers such a run. -/
  | hostAccessWhileBusy
  deriving DecidableEq, Repr

/-- Why an instruction has no meaning. -/
inductive Refusal where
  /-- The instruction has no meaning in this model yet; raised by `exec`'s arm of that instruction. Safe. -/
  | notModelled (mnemonic : String)
  deriving DecidableEq, Repr

/-- The bit reader: `BR_OFFSET` and the fields of `BR_STATE` (R31, R32). -/
structure BitReader where
  /-- `BR_OFFSET`: the next byte to fetch. -/
  offset : Word
  /-- `BDATA`: the last byte fetched. -/
  bdata : Byte
  /-- `BCOUNT`: the bits of `BDATA` not yet returned. -/
  bcount : BitVec 3
  deriving DecidableEq, Repr

/-- The fields of `SCANCFG` (R34). -/
structure ScanCfg where
  ss : BitVec 6
  se : BitVec 6
  al : BitVec 4
  deriving DecidableEq, Repr

/-- The states of the AC refinement machine, `ACSTATE.STATE` (R36, 42 R165). -/
inductive AcMode where
  | initial
  | skipZrl
  | skipPlace
  | placing
  | eob
  deriving DecidableEq, Repr

/-- The fields of `ACSTATE` (R36). -/
structure AcState where
  mode : AcMode
  /-- `NEXTNEG`: the pending value is -1, not +1. -/
  nextNeg : Bool
  deriving DecidableEq, Repr

/-- A Huffman table (R42): the counts and the symbols; `NVAL` and the code map are computed from them. -/
structure HuffTable where
  /-- Entry `L - 1` is `BITS[L]`. -/
  bits : Vector Byte 16
  vals : List Byte
  deriving DecidableEq, Repr

/-- A statement of the host (30 R97), or an event of the platform. The list of those still to come is the
host's program (10 R20, 70 R355). -/
inductive HostStmt where
  /-- A 32-bit write. -/
  | write32 (off : Offset) (v : Word)
  /-- An 8-bit write. -/
  | write8 (off : Offset) (v : Byte)
  /-- A write of any other width, in bits: never conforming (20 R67). -/
  | writeOther (width : Nat) (off : Offset)
  /-- A 32-bit read. -/
  | read32 (off : Offset)
  /-- An 8-bit read. -/
  | read8 (off : Offset)
  /-- A read of any other width, in bits: never conforming (20 R67). -/
  | readOther (width : Nat) (off : Offset)
  /-- `WAIT`: read `STATUS` until `BUSY` = 0. The reads themselves are not modelled (notes/assumptions/11.md). -/
  | wait
  /-- The platform's reset input (70 R340). -/
  | resetInput
  deriving DecidableEq, Repr

structure State where
  /-- The implementation parameters (00 R6); nothing writes them. -/
  cfg : Config
  /-- The command in execution; `STATUS.BUSY` says whether there is one (R24, R44). -/
  running : Option Instr
  /-- `STATUS.ERR` (R24). -/
  err : Bool
  /-- `STATUS.NOBIT` (R24). -/
  nobit : Bool
  /-- `STATUS.MSTOP` (R24). -/
  mstop : Bool
  /-- `RESULT` (R26). -/
  result : Word
  /-- `ERRCODE` bits 7:0 (R27). -/
  errcode : Byte
  /-- `ERRINFO` (R28). -/
  errinfo : Word
  /-- `ERRCMD` (R29). -/
  errcmd : Word
  /-- `STREAM_LEN` (R30). -/
  streamLen : Word
  /-- `BR_OFFSET`, `BR_STATE` (R31, R32). -/
  br : BitReader
  /-- `TBLPTR` (R33). -/
  tblptr : Word
  /-- `SCANCFG` (R34). -/
  scan : ScanCfg
  /-- `EOBRUN` (R35). -/
  eobrun : Word
  /-- `ACSTATE` (R36). -/
  ac : AcState
  /-- `PRED0`..`PRED3` (R37). -/
  pred : Vector Word 4
  /-- `TVALID` bits 15:0 (R38). -/
  tvalid : BitVec 16
  /-- `BUF[0..7]` (R39). -/
  bufs : Vector Block 8
  /-- `QT[0..3]` (R40). -/
  qts : Vector (Vector Half 64) 4
  /-- `FQ[0..3]` (R41). -/
  fqs : Vector (Vector F64 64) 4
  /-- `HT[c][s]`, entry `4·c + s` (R42). -/
  hts : Vector HuffTable 8
  /-- Stream memory (R43): the bytes written since the last hardware reset, addresses rising. -/
  stream : List Host.Cell
  /-- The model's own: the host's statements still to come. -/
  host : List HostStmt
  /-- The model's own: what the host's reads returned, newest first, those of `WAIT` left out. -/
  replies : List Word
  /-- The model's own: the number of the next draw of free values. -/
  draws : Nat
  /-- The model's own: the draw that unwritten stream bytes take. -/
  memDraw : Nat
  /-- The model's own: the draw that window reads of each invalid `QT` slot take (93 U4). -/
  qtDraw : Vector Nat 4
  deriving DecidableEq, Repr

/-- The state after a hardware reset whose memories take draw `n` (R45, R340), with no host statement. -/
def State.powerOn (cfg : Config) (n : Nat) : State where
  cfg := cfg
  running := none
  err := false
  nobit := false
  mstop := false
  result := 0
  errcode := 0
  errinfo := 0
  errcmd := 0
  streamLen := 0
  br := ⟨0, 0, 0⟩
  tblptr := 0
  scan := ⟨0, 0, 0⟩
  eobrun := 0
  ac := ⟨.initial, false⟩
  pred := tab fun _ => 0
  tvalid := 0
  bufs := tab fun b => tab fun i => Config.drawLane n b i
  qts := tab fun t => tab fun i => Config.drawQuant n t i
  fqs := tab fun t => tab fun i => Config.drawRecip n t i
  hts := tab fun k => ⟨tab fun l => Config.drawBits n (k / 4) (k % 4) l, Config.drawVals n (k / 4) (k % 4)⟩
  stream := []
  host := []
  replies := []
  draws := n + 1
  memDraw := n
  qtDraw := tab fun _ => n

/-- The block right after reset, with the default parameters (R45, R340, 00 R6). -/
def State.reset : State := State.powerOn Config.standard 0

end Sys2Proof.Machine
end

