-- ==== Sys2Proof/Machine/Flags.lean ====
section
/-!
DEFINITION. The `STATUS` register (10_state R24): the block's only flags, each with its setter.
-/

namespace Sys2Proof.Machine

/-- `STATUS.BUSY`: a command is in execution (R24, 20 R61). -/
def State.busy (s : State) : Bool := s.running.isSome

/-- The bit of weight `2^n`, or 0. -/
def flagBit (b : Bool) (n : Nat) : Word := if b then BitVec.twoPow 32 n else 0

/-- `STATUS`: `BUSY` in bit 0, `ERR` in bit 1, `NOBIT` in bit 2, `MSTOP` in bit 3, the rest 0 (R24). -/
def State.status (s : State) : Word :=
  flagBit s.busy 0 ||| flagBit s.err 1 ||| flagBit s.nobit 2 ||| flagBit s.mstop 3

/-- `STATUS.NOBIT <- b`; only `READBIT` (R24). -/
def State.setNobit (s : State) (b : Bool) : State := { s with nobit := b }

/-- `STATUS.MSTOP <- b`; only `RSTSYNC` (R24). -/
def State.setMstop (s : State) (b : Bool) : State := { s with mstop := b }

end Sys2Proof.Machine
end

