-- ==== Sys2Proof/WellFormed.lean ====
section
/-!
DEFINITION. Which instructions are well formed: the range checks that 30_encoding R93 makes at decode.
A buffer is 0..7, a slot 0..3, a predictor 0..3 (R91), a bit count 0..16 (R122, R123), a class 0..1 (R142);
a spec byte and a quality are any byte.
-/

namespace Sys2Proof

/-- `D` or `S` names a buffer (R91). -/
abbrev bufOk (b : Nib) : Bool := decide (b.toNat ≤ 7)
/-- `T` or `U` names a table slot (R91). -/
abbrev slotOk (t : Nib) : Bool := decide (t.toNat ≤ 3)
/-- `I` names a predictor (R93). -/
abbrev predOk (p : Byte) : Bool := decide (p.toNat ≤ 3)
/-- `I` is a bit count (R93). -/
abbrev countOk (n : Byte) : Bool := decide (n.toNat ≤ 16)
/-- A Huffman class: 0 is DC, 1 is AC (R142). -/
abbrev classOk (c : Nib) : Bool := decide (c.toNat ≤ 1)

/-- The ranges that R93 checks at decode. -/
def Instr.wellFormed : Instr → Bool
  | .nop => true
  | .zero d => bufOk d
  | .copy d s => bufOk d && bufOk s
  | .readbit => true
  | .receive n => countOk n
  | .receivex n => countOk n
  | .align => true
  | .scaninit => true
  | .rstsync => true
  | .htload _ => true
  | .hdec c s => classOk c && slotOk s
  | .decbase d t u p => bufOk d && slotOk t && slotOk u && predOk p
  | .dcfirst d t p => bufOk d && slotOk t && predOk p
  | .dcsucc d => bufOk d
  | .acfirst d u => bufOk d && slotOk u
  | .acsucc d u => bufOk d && slotOk u
  | .qload _ => true
  | .dequant d s t => bufOk d && bufOk s && slotOk t
  | .idct d s => bufOk d && bufOk s
  | .qscale d s _ => bufOk d && bufOk s
  | .eqload s t => bufOk s && slotOk t
  | .fdctq d s t => bufOk d && bufOk s && slotOk t
  | .zzfwd d s => bufOk d && bufOk s
  | .zzinv d s => bufOk d && bufOk s

end Sys2Proof
end

