-- ==== Sys2Proof/Decode.lean ====
section
/-!
DEFINITION. The decoder of command words and the encoder (30_encoding R90 to R95).
The decoder is total on 32-bit words and rejects by name; each of its rejections is one of the three causes
of `BadCommand` in R95 step 3, in that order.
-/

namespace Sys2Proof

/-! ## The fields of a command word (R90) -/

def fieldOP (w : Word) : Byte := w.extractLsb' 24 8
def fieldD (w : Word) : Nib := w.extractLsb' 20 4
def fieldS (w : Word) : Nib := w.extractLsb' 16 4
def fieldT (w : Word) : Nib := w.extractLsb' 12 4
def fieldU (w : Word) : Nib := w.extractLsb' 8 4
def fieldI (w : Word) : Byte := w.extractLsb' 0 8

/-- The high and the low half of an immediate: class and slot, or precision and slot. -/
def hiNib (b : Byte) : Nib := b.extractLsb' 4 4
def loNib (b : Byte) : Nib := b.extractLsb' 0 4

/-- The word with the given fields (R90). -/
def packWord (op : Byte) (d s t u : Nib) (i : Byte) : Word := op ++ d ++ s ++ t ++ u ++ i

/-! ## The opcode map (R93) -/

/-- Which fields beside `OP` a command uses. -/
structure Uses where
  d : Bool := false
  s : Bool := false
  t : Bool := false
  u : Bool := false
  i : Bool := false
  deriving DecidableEq, Repr

/-- A row of R93: the opcode, the fields used, and the instruction its fields make. -/
structure OpRow where
  op : Byte
  uses : Uses
  build : Word → Instr

/-- R93, in the order of the table. -/
def opcodeTable : List OpRow :=
  [ ⟨0x00, {}, fun _ => .nop⟩,
    ⟨0x01, { d := true }, fun w => .zero (fieldD w)⟩,
    ⟨0x02, { d := true, s := true }, fun w => .copy (fieldD w) (fieldS w)⟩,
    ⟨0x10, {}, fun _ => .readbit⟩,
    ⟨0x11, { i := true }, fun w => .receive (fieldI w)⟩,
    ⟨0x12, { i := true }, fun w => .receivex (fieldI w)⟩,
    ⟨0x13, {}, fun _ => .align⟩,
    ⟨0x14, {}, fun _ => .scaninit⟩,
    ⟨0x15, {}, fun _ => .rstsync⟩,
    ⟨0x20, { i := true }, fun w => .htload (fieldI w)⟩,
    ⟨0x21, { i := true }, fun w => .hdec (hiNib (fieldI w)) (loNib (fieldI w))⟩,
    ⟨0x30, { d := true, t := true, u := true, i := true },
      fun w => .decbase (fieldD w) (fieldT w) (fieldU w) (fieldI w)⟩ ] ++
  [ ⟨0x31, { d := true, t := true, i := true }, fun w => .dcfirst (fieldD w) (fieldT w) (fieldI w)⟩,
    ⟨0x32, { d := true }, fun w => .dcsucc (fieldD w)⟩,
    ⟨0x33, { d := true, u := true }, fun w => .acfirst (fieldD w) (fieldU w)⟩,
    ⟨0x34, { d := true, u := true }, fun w => .acsucc (fieldD w) (fieldU w)⟩,
    ⟨0x40, { i := true }, fun w => .qload (fieldI w)⟩,
    ⟨0x41, { d := true, s := true, t := true }, fun w => .dequant (fieldD w) (fieldS w) (fieldT w)⟩,
    ⟨0x42, { d := true, s := true }, fun w => .idct (fieldD w) (fieldS w)⟩,
    ⟨0x50, { d := true, s := true, i := true }, fun w => .qscale (fieldD w) (fieldS w) (fieldI w)⟩,
    ⟨0x51, { s := true, t := true }, fun w => .eqload (fieldS w) (fieldT w)⟩,
    ⟨0x52, { d := true, s := true, t := true }, fun w => .fdctq (fieldD w) (fieldS w) (fieldT w)⟩,
    ⟨0x60, { d := true, s := true }, fun w => .zzfwd (fieldD w) (fieldS w)⟩,
    ⟨0x61, { d := true, s := true }, fun w => .zzinv (fieldD w) (fieldS w)⟩ ]

/-- The row of an opcode; none for a reserved one (R94). -/
def opRow (op : Byte) : Option OpRow := opcodeTable.find? fun r => r.op == op

/-- Every field the command does not use is 0 (R92). -/
def unusedZero (u : Uses) (w : Word) : Bool :=
  (u.d || fieldD w == 0) && (u.s || fieldS w == 0) && (u.t || fieldT w == 0) &&
    (u.u || fieldU w == 0) && (u.i || fieldI w == 0)

/-- The bits of a word that a row fixes: `OP` and every unused field (the `mask` of R92). -/
def Uses.mask (u : Uses) : Word :=
  packWord 0xFF (if u.d then 0 else 0xF) (if u.s then 0 else 0xF) (if u.t then 0 else 0xF)
    (if u.u then 0 else 0xF) (if u.i then 0 else 0xFF)

/-- Why a word is no command: the three causes of R95 step 3. -/
inductive DecodeReject where
  | reservedOpcode
  | unusedFieldNonzero
  | fieldOutOfRange
  deriving DecidableEq, Repr

/-- R95 step 3. -/
def decode (w : Word) : Except DecodeReject Instr :=
  match opRow (fieldOP w) with
  | none => .error .reservedOpcode
  | some row =>
    if unusedZero row.uses w then
      if (row.build w).wellFormed then .ok (row.build w) else .error .fieldOutOfRange
    else .error .unusedFieldNonzero

/-- The decoder on a row of spec/opcode_table.json: `nbits` bits `w`, the rest of the word 0. -/
def decodeTableWord (nbits w : Nat) : Option Instr :=
  match decode (BitVec.ofNat 32 (w % 2 ^ nbits)) with
  | .ok i => some i
  | .error _ => none

/-! ## The encoder (R90, R92, R93, R96) -/

/-- The word of an instruction; a field the command does not use is 0 (R92, R96). -/
def encode : Instr → Word
  | .nop => packWord 0x00 0 0 0 0 0
  | .zero d => packWord 0x01 d 0 0 0 0
  | .copy d s => packWord 0x02 d s 0 0 0
  | .readbit => packWord 0x10 0 0 0 0 0
  | .receive n => packWord 0x11 0 0 0 0 n
  | .receivex n => packWord 0x12 0 0 0 0 n
  | .align => packWord 0x13 0 0 0 0 0
  | .scaninit => packWord 0x14 0 0 0 0 0
  | .rstsync => packWord 0x15 0 0 0 0 0
  | .htload spec => packWord 0x20 0 0 0 0 spec
  | .hdec c s => packWord 0x21 0 0 0 0 (c ++ s)
  | .decbase d t u p => packWord 0x30 d 0 t u p
  | .dcfirst d t p => packWord 0x31 d 0 t 0 p
  | .dcsucc d => packWord 0x32 d 0 0 0 0
  | .acfirst d u => packWord 0x33 d 0 0 u 0
  | .acsucc d u => packWord 0x34 d 0 0 u 0
  | .qload spec => packWord 0x40 0 0 0 0 spec
  | .dequant d s t => packWord 0x41 d s t 0 0
  | .idct d s => packWord 0x42 d s 0 0 0
  | .qscale d s q => packWord 0x50 d s 0 0 q
  | .eqload s t => packWord 0x51 0 s t 0 0
  | .fdctq d s t => packWord 0x52 d s t 0 0
  | .zzfwd d s => packWord 0x60 d s 0 0 0
  | .zzinv d s => packWord 0x61 d s 0 0 0

end Sys2Proof
end

