-- ==== Sys2Proof/Machine/Memory.lean ====
section
/-!
DEFINITION. Stream memory (10_state R43, 20_memory R66, R69, R71).
The list holds the bytes written since the last hardware reset, in rising address order; an address it does
not list reads as no value here, and `StreamByte` and the aperture give such a byte its draw
(70 R342; notes/assumptions/6.md).
-/

namespace Sys2Proof.Machine

namespace Memory

/-- The canonical form: addresses strictly rising. -/
def wf (m : List Host.Cell) : Bool := decide (m.Pairwise fun x y => x.1 < y.1)

/-- The byte written at `a`, if any. -/
def get : List Host.Cell → Nat → Option Byte
  | [], _ => none
  | (b, v) :: m, a => if a = b then some v else if a < b then none else get m a

/-- Write byte `v` at `a`. -/
def set : List Host.Cell → Nat → Byte → List Host.Cell
  | [], a, v => [(a, v)]
  | (b, w) :: m, a, v =>
    if a = b then (a, v) :: m else if a < b then (a, v) :: (b, w) :: m else (b, w) :: set m a v

end Memory

/-- The byte that stream memory holds at `o`: the one written last, or its draw (R43, 70 R342). -/
def State.byteAt (s : State) (o : Nat) : Byte :=
  (Memory.get s.stream o).getD (Config.drawByte s.memDraw o)

/-- Write a stream byte; only the host does (R43). -/
def State.setByte (s : State) (o : Nat) (v : Byte) : State :=
  { s with stream := Memory.set s.stream o v }

/-- `StreamByte(o)`: the byte at `o`, or none for `EOS` (00_scope R10). -/
def State.streamByte (s : State) (o : Nat) : Option Byte :=
  if o < s.streamLen.toNat then some (s.byteAt o) else none

/-- The two bytes at `o` as a big-endian number, or none if either is `EOS` (R69). -/
def bigEndian16 (src : Nat → Option Byte) (o : Nat) : Option Nat :=
  match src o, src (o + 1) with
  | some hi, some lo => some (256 * hi.toNat + lo.toNat)
  | _, _ => none

end Sys2Proof.Machine
end

