-- ==== Sys2Proof/Machine/Operands.lean ====
section
/-!
DEFINITION. The operand forms of the commands (30_encoding R91): buffers, predictors, table slots, and the
permutation that places coefficients (45_zigzag R250). Each is read and written here only.
-/

namespace Sys2Proof.Machine

/-! ## Buffers and lanes (10_state R39) -/

/-- `BUF[b]`. -/
def State.buf (s : State) (b : Nat) : Block := nth s.bufs b

/-- `BUF[b] <- blk`. -/
def State.setBuf (s : State) (b : Nat) (blk : Block) : State := { s with bufs := put s.bufs b blk }

/-- Lane `i` of a block. -/
def lane (blk : Block) (i : Nat) : Word := nth blk i

/-- A block with lane `i` replaced. -/
def setLane (blk : Block) (i : Nat) (v : Word) : Block := put blk i v

/-! ## Predictors (R37) -/

/-- `PRED[i]`. -/
def State.predAt (s : State) (i : Nat) : Word := nth s.pred i

/-- `PRED[i] <- v`. -/
def State.setPred (s : State) (i : Nat) (v : Word) : State := { s with pred := put s.pred i v }

/-! ## Tables and their valid bits (R38 to R42) -/

/-- A table slot a command can name. -/
inductive TableRef where
  | huff (cls slot : Nat)
  | quant (slot : Nat)
  | recip (slot : Nat)
  deriving DecidableEq, Repr

/-- The bit of `TVALID` (R38). -/
def TableRef.bit : TableRef → Nat
  | .quant t => t
  | .recip t => 4 + t
  | .huff c s => 8 + 4 * c + s

/-- The name of a table in `ERRINFO` (30 R95 step 4). -/
def TableRef.id : TableRef → Word
  | .huff c s => BitVec.ofNat 32 (16 * c + s)
  | .quant t => BitVec.ofNat 32 (0x100 + t)
  | .recip t => BitVec.ofNat 32 (0x200 + t)

/-- The table's valid bit. -/
def State.valid (s : State) (r : TableRef) : Bool := s.tvalid.getLsbD r.bit

/-- `TVALID` with the table's valid bit set to `b`. -/
def State.setValid (s : State) (r : TableRef) (b : Bool) : State :=
  { s with tvalid := if b then s.tvalid ||| BitVec.twoPow 16 r.bit
                     else s.tvalid &&& ~~~ BitVec.twoPow 16 r.bit }

/-- `QT[t]`. -/
def State.qt (s : State) (t : Nat) : Vector Half 64 := nth s.qts t

/-- `QT[t] <- v`. -/
def State.setQt (s : State) (t : Nat) (v : Vector Half 64) : State := { s with qts := put s.qts t v }

/-- `FQ[t]`. -/
def State.fq (s : State) (t : Nat) : Vector F64 64 := nth s.fqs t

/-- `FQ[t] <- v`. -/
def State.setFq (s : State) (t : Nat) (v : Vector F64 64) : State := { s with fqs := put s.fqs t v }

/-- The table an access outside the eight slots reads; no command makes one. -/
def HuffTable.empty : HuffTable := ⟨tab fun _ => 0, []⟩

/-- `HT[c][k]`. -/
def State.ht (s : State) (c k : Nat) : HuffTable := s.hts.toList.getD (4 * c + k) HuffTable.empty

/-- `HT[c][k] <- v`. -/
def State.setHt (s : State) (c k : Nat) (v : HuffTable) : State := { s with hts := put s.hts (4 * c + k) v }

/-! ## The zig-zag permutation (45_zigzag R250) -/

/-- The 64 values of `ZZ`, from position to natural index. PRESUMED by the spec itself (93 G1). -/
def zzTable : List Nat :=
  [ 0,  1,  8, 16,  9,  2,  3, 10, 17, 24, 32, 25, 18, 11,  4,  5] ++
  [12, 19, 26, 33, 40, 48, 41, 34, 27, 20, 13,  6,  7, 14, 21, 28] ++
  [35, 42, 49, 56, 57, 50, 43, 36, 29, 22, 15, 23, 30, 37, 44, 51] ++
  [58, 59, 52, 45, 38, 31, 39, 46, 53, 60, 61, 54, 47, 55, 62, 63]

/-- `ZZ[k]`: the natural index at zig-zag position `k`. -/
def zz (k : Nat) : Nat := zzTable.getD k 0

/-- `ZZI[n]`: the zig-zag position of natural index `n`, the inverse of `ZZ`. -/
def zzi (n : Nat) : Nat := zzTable.idxOf n

end Sys2Proof.Machine
end

