-- ==== Sys2Proof/Machine/WriteSet.lean ====
section
/-!
DEFINITION. The write set of each command ("registers written" in its rule), the tables it needs, and what an
error makes of its write set (60_exceptions R303 point 3).
-/

namespace Sys2Proof.Machine

/-- A piece of state that a command can write. -/
inductive Loc where
  | brOffset
  | bdata
  | bcount
  | result
  | nobit
  | mstop
  | pred (i : Nat)
  | eobrun
  | acstate
  | tblptr
  /-- All 64 lanes of a buffer. -/
  | buf (b : Nat)
  /-- Lane 0 of a buffer. -/
  | lane0 (b : Nat)
  | table (r : TableRef)
  | valid (r : TableRef)
  deriving DecidableEq, Repr

/-- The table a DHT spec byte names, if its class and slot are legal (41 R140). -/
def huffSpec (spec : Byte) : Option TableRef :=
  if (hiNib spec).toNat ≤ 1 ∧ (loNib spec).toNat ≤ 3 then
    some (.huff (hiNib spec).toNat (loNib spec).toNat)
  else none

/-- The table a DQT spec byte names, if its slot is legal (43 R190). -/
def quantSpec (spec : Byte) : Option TableRef :=
  if (loNib spec).toNat ≤ 3 then some (.quant (loNib spec).toNat) else none

/-- A table load writes `TBLPTR` and, where the slot number is legal, the table and its valid bit (R303). -/
def loadSet : Option TableRef → List Loc
  | some r => [.table r, .valid r, .tblptr]
  | none => [.tblptr]

/-- The bit reader's registers, `BR_OFFSET` and `BR_STATE`. -/
def brSet : List Loc := [.brOffset, .bdata, .bcount]

/-- The "registers written" of each command's rule. -/
def writeSet : Instr → List Loc
  | .nop => []
  | .zero d => [.buf d.toNat]
  | .copy d _ => [.buf d.toNat]
  | .readbit => brSet ++ [.result, .nobit]
  | .receive _ => brSet ++ [.result]
  | .receivex _ => brSet ++ [.result]
  | .align => [.bcount]
  | .scaninit => [.pred 0, .pred 1, .pred 2, .pred 3, .eobrun, .acstate, .bcount]
  | .rstsync => [.bcount, .pred 0, .pred 1, .pred 2, .pred 3, .eobrun, .acstate, .result, .brOffset, .mstop]
  | .htload spec => loadSet (huffSpec spec)
  | .hdec _ _ => brSet ++ [.result]
  | .decbase d _ _ p => brSet ++ [.buf d.toNat, .pred p.toNat]
  | .dcfirst d _ p => brSet ++ [.lane0 d.toNat, .pred p.toNat]
  | .dcsucc d => brSet ++ [.lane0 d.toNat]
  | .acfirst d _ => brSet ++ [.buf d.toNat, .eobrun]
  | .acsucc d _ => brSet ++ [.buf d.toNat, .eobrun, .acstate]
  | .qload spec => loadSet (quantSpec spec)
  | .dequant d _ _ => [.buf d.toNat]
  | .idct d _ => [.buf d.toNat]
  | .qscale d _ _ => [.buf d.toNat]
  | .eqload _ t => [.table (.recip t.toNat), .valid (.recip t.toNat)]
  | .fdctq d _ _ => [.buf d.toNat]
  | .zzfwd d _ => [.buf d.toNat]
  | .zzinv d _ => [.buf d.toNat]

/-- The tables a command needs, in the order R307 reports a missing one: DC, AC, dequantization, encoder
(30 R95 step 4). -/
def neededTables : Instr → List TableRef
  | .hdec c k => [.huff c.toNat k.toNat]
  | .decbase _ t u _ => [.huff 0 t.toNat, .huff 1 u.toNat]
  | .dcfirst _ t _ => [.huff 0 t.toNat]
  | .acfirst _ u => [.huff 1 u.toNat]
  | .acsucc _ u => [.huff 1 u.toNat]
  | .dequant _ _ t => [.quant t.toNat]
  | .fdctq _ _ t => [.recip t.toNat]
  | .nop | .zero _ | .copy _ _ | .readbit | .receive _ | .receivex _ | .align | .scaninit | .rstsync
  | .htload _ | .dcsucc _ | .qload _ | .idct _ _ | .qscale _ _ _ | .eqload _ _ | .zzfwd _ _ | .zzinv _ _ => []

/-! ## Unspecified values -/

/-- `ACSTATE.STATE` from its number; 5, 6 and 7 give `INITIAL` (R36: WARL). -/
def AcMode.ofCode : Nat → AcMode
  | 1 => .skipZrl
  | 2 => .skipPlace
  | 3 => .placing
  | 4 => .eob
  | _ => .initial

/-- The number of a state in `ACSTATE.STATE` (R36). -/
def AcMode.code : AcMode → Nat
  | .initial => 0
  | .skipZrl => 1
  | .skipPlace => 2
  | .placing => 3
  | .eob => 4

/-- The contents that draw `n` gives to a Huffman table. -/
def drawHuff (n c k : Nat) : HuffTable := ⟨tab fun l => Config.drawBits n c k l, Config.drawVals n c k⟩

/-- Give a location the unspecified value of draw `n`; a valid bit is cleared instead (R303 point 3). -/
def havocLoc (n : Nat) (s : State) : Loc → State
  | .brOffset => { s with br := { s.br with offset := Config.drawOffset n } }
  | .bdata => { s with br := { s.br with bdata := Config.drawBdata n } }
  | .bcount => { s with br := { s.br with bcount := Config.drawBcount n } }
  | .result => { s with result := Config.drawResult n }
  | .nobit => { s with nobit := Config.drawNobit n }
  | .mstop => { s with mstop := Config.drawMstop n }
  | .pred i => s.setPred i (Config.drawPred n i)
  | .eobrun => { s with eobrun := Config.drawEobrun n }
  | .acstate => { s with ac := ⟨AcMode.ofCode (Config.drawAcMode n).val, Config.drawNextNeg n⟩ }
  | .tblptr => { s with tblptr := Config.drawTblptr n }
  | .buf b => s.setBuf b (tab fun i => Config.drawLane n b i)
  | .lane0 b => s.setBuf b (setLane (s.buf b) 0 (Config.drawLane n b 0))
  | .table (.quant t) => { s.setQt t (tab fun i => Config.drawQuant n t i) with qtDraw := put s.qtDraw t n }
  | .table (.recip t) => s.setFq t (tab fun i => Config.drawRecip n t i)
  | .table (.huff c k) => s.setHt c k (drawHuff n c k)
  | .valid r => s.setValid r false

/-- Every location of a write set holds an unspecified value, all of one fresh draw (R303 point 3). -/
def havoc (locs : List Loc) (s : State) : State :=
  { locs.foldl (havocLoc s.draws) s with draws := s.draws + 1 }

end Sys2Proof.Machine
end

