-- ==== Sys2Proof/Machine/Ops.lean ====
section
/-!
DEFINITION. Taking an error, returning from one, the two resets, and the frame that every command runs in
(60_exceptions R300 to R307, 30_encoding R95, 70 R340, R341).
-/

namespace Sys2Proof.Machine

/-! ## Errors (60_exceptions R300) -/

/-- The error kinds of R300. -/
inductive ErrKind where
  | badCommand
  | invalidQuantSpec
  | invalidHuffmanTable
  | invalidHuffmanSequence
  | invalidAcEncoding
  | unexpectedMarker
  | markerNotFound
  | tableUndefined
  | badArgument
  | commandOverrun
  | streamEnd
  deriving DecidableEq, Repr

/-- The code of each kind (R300). -/
def ErrKind.code : ErrKind → Byte
  | .badCommand => 1
  | .invalidQuantSpec => 2
  | .invalidHuffmanTable => 3
  | .invalidHuffmanSequence => 4
  | .invalidAcEncoding => 5
  | .unexpectedMarker => 6
  | .markerNotFound => 7
  | .tableUndefined => 8
  | .badArgument => 9
  | .commandOverrun => 10
  | .streamEnd => 11

/-- An error as a command raises it: its kind and its detail (R10's `raise E(info)`). -/
structure CmdError where
  kind : ErrKind
  info : Word
  deriving DecidableEq, Repr

/-- R303 point 2: `ERRCODE`, `ERRINFO` and `ERRCMD` for command word `w`, and `STATUS.ERR`. The registers keep
the first error since the last clear (R27, R306). -/
def recordError (e : CmdError) (w : Word) (s : State) : State :=
  if s.err then s
  else { s with err := true, errcode := e.kind.code, errinfo := e.info, errcmd := w }

/-- A raise during execution (R303): the write set holds unspecified values, the valid bit of a failed load is
0, and the error is recorded. -/
def raiseInExecution (i : Instr) (e : CmdError) (s : State) : State :=
  recordError e (encode i) (havoc (writeSet i) s)

/-- A raise at decode changes the error registers only (R303 point 3, 30 R95). -/
def raiseAtDecode (e : CmdError) (w : Word) (s : State) : State := recordError e w s

/-- Error return: `CTRL.ERRCLR` (R305). -/
def clearError (s : State) : State := { s with err := false, errcode := 0, errinfo := 0, errcmd := 0 }

/-! ## A command (30_encoding R95 steps 3 to 5) -/

/-- The error that the decode checks raise, if any: an out-of-range field, then the first needed table whose
valid bit is 0 (R95 steps 3 and 4, R307). -/
def decodeError (i : Instr) (s : State) : Option CmdError :=
  if i.wellFormed then
    ((neededTables i).find? fun r => !s.valid r).map fun r => ⟨.tableUndefined, r.id⟩
  else some ⟨.badCommand, 0⟩

/-- The frame every command runs in: the decode checks, then its own effect `body`; either may raise. -/
def runCommand (i : Instr) (body : State → Except CmdError State) (s : State) :
    Host.Outcome State Fault Refusal :=
  .next (match decodeError i s with
    | some e => raiseAtDecode e (encode i) s
    | none =>
      match body s with
      | .ok s' => s'
      | .error e => raiseInExecution i e s)

/-! ## Resets (70 R340, R341) -/

/-- Each dequantization slot that a soft reset makes invalid takes a fresh draw for its window reads; the
others keep theirs (93 U4). -/
def invalidateQuant (s : State) : Vector Nat 4 :=
  tab fun t => if s.valid (.quant t) then s.draws else nth s.qtDraw t

/-- The registers at their reset values, every memory unchanged (R45, R341). -/
def resetRegisters (s : State) : State :=
  { s with
    running := none, err := false, nobit := false, mstop := false, result := 0,
    errcode := 0, errinfo := 0, errcmd := 0, streamLen := 0, br := ⟨0, 0, 0⟩, tblptr := 0,
    scan := ⟨0, 0, 0⟩, eobrun := 0, ac := ⟨.initial, false⟩, pred := tab fun _ => 0, tvalid := 0,
    qtDraw := invalidateQuant s, draws := s.draws + 1 }

/-- Soft reset, `CTRL.SRESET` (R341): a running command is abandoned, its write set unspecified. Of a register in that
write set R341 says this and also that it takes its reset value; the reset value is taken (DESIGN CHOICE,
notes/assumptions/25.md). -/
def softReset (s : State) : State :=
  resetRegisters (match s.running with
    | some i => havoc (writeSet i) s
    | none => s)

/-- Hardware reset by the platform's reset input (R340): the host's statements and what it has read are not
the block's. -/
def hardwareReset (s : State) : State :=
  { State.powerOn s.cfg s.draws with host := s.host, replies := s.replies }

end Sys2Proof.Machine
end

