-- ==== Sys2Proof/Machine/BitReader.lean ====
section
/-!
DEFINITION. The bit reader and its commands (40_bitreader R120 to R128).
The primitives take the stream as `src`, which is `StreamByte`, and a bit reader, and answer the bit reader
they leave. Byte offsets are exact integers (00 R8), so offset + 1 does not wrap.
-/

namespace Sys2Proof.Machine

/-- The stream as a command sees it: `StreamByte` (00 R10). -/
abbrev Source := Nat → Option Byte

/-- What `FetchBit` returns (R120). -/
inductive Fetch where
  | bit (b : Bool) (r : BitReader)
  | noBit (marker : Word)
  | raised (e : CmdError)
  deriving DecidableEq, Repr

/-- A marker is `0xFF00` plus its second byte (R120). -/
def marker (n : Byte) : Word := BitVec.ofNat 32 (0xFF00 + n.toNat)

/-- The second byte of an RSTn marker (R120, 00 R13). -/
def isRst (n : Byte) : Bool := decide (0xD0 ≤ n.toNat ∧ n.toNat ≤ 0xD7)

/-- `InvalidHuffmanSequence(BR_OFFSET)`. -/
def outOfBits (r : BitReader) : CmdError := ⟨.invalidHuffmanSequence, r.offset⟩

/-- The bit reader after it fetched byte `b` and moved `k` bytes on: the refill leaves 7 bits. -/
def refill (r : BitReader) (b : Byte) (k : Nat) : Fetch :=
  .bit (b.getLsbD 7) ⟨r.offset + BitVec.ofNat 32 k, b, 7⟩

/-- R120. -/
def fetchBit (src : Source) (r : BitReader) : Fetch :=
  if r.bcount.toNat > 0 then
    .bit (r.bdata.getLsbD (r.bcount.toNat - 1)) { r with bcount := r.bcount - 1 }
  else
    match src r.offset.toNat with
    | none => .raised (outOfBits r)
    | some b =>
      if b = 0xFF then
        match src (r.offset.toNat + 1) with
        | none => .raised (outOfBits r)
        | some n =>
          if n = 0 then refill r b 2
          else if isRst n then .noBit (marker n)
          else .raised ⟨.unexpectedMarker, marker n⟩
      else refill r b 1

/-- R126: a bit of a multi-bit read; an RSTn there means that the data ran out. -/
def readBit (src : Source) (r : BitReader) : Except CmdError (Bool × BitReader) :=
  match fetchBit src r with
  | .bit b r' => .ok (b, r')
  | .noBit _ => .error (outOfBits r)
  | .raised e => .error e

/-- R122: `n` more bits after the value `v`, most significant first. -/
def recvFrom (src : Source) : Nat → Nat → BitReader → Except CmdError (Nat × BitReader)
  | 0, v, r => .ok (v, r)
  | n + 1, v, r =>
    match readBit src r with
    | .error e => .error e
    | .ok (b, r') => recvFrom src n (2 * v + b.toNat) r'

/-- R122: `RECV(n)`. -/
def recv (src : Source) (n : Nat) (r : BitReader) : Except CmdError (Nat × BitReader) :=
  recvFrom src n 0 r

/-- R123: the value of the `n`-bit magnitude code `v`; `Extend(0) = 0`. -/
def magnitude (n v : Nat) : Int :=
  if n = 0 then 0 else if v < 2 ^ (n - 1) then (v : Int) - 2 ^ n + 1 else v

/-- R123: `Extend(n)`. -/
def extend (src : Source) (n : Nat) (r : BitReader) : Except CmdError (Int × BitReader) :=
  match recv src n r with
  | .error e => .error e
  | .ok (v, r') => .ok (magnitude n v, r')

/-! ## Commands -/

/-- R121. -/
def readbitBody (s : State) : Except CmdError State :=
  match fetchBit s.streamByte s.br with
  | .bit b r => .ok ({ s with br := r, result := BitVec.ofNat 32 b.toNat }.setNobit false)
  | .noBit m => .ok ({ s with result := 0x80000000 + m }.setNobit true)
  | .raised e => .error e

/-- `READBIT` (R121). -/
def execReadbit (s : State) : Host.Outcome State Fault Refusal := runCommand .readbit readbitBody s

/-- R122. -/
def receiveBody (n : Byte) (s : State) : Except CmdError State :=
  match recv s.streamByte n.toNat s.br with
  | .error e => .error e
  | .ok (v, r) => .ok { s with br := r, result := BitVec.ofNat 32 v }

/-- `RECEIVE n` (R122). -/
def execReceive (n : Byte) (s : State) : Host.Outcome State Fault Refusal :=
  runCommand (.receive n) (receiveBody n) s

/-- R123. -/
def receivexBody (n : Byte) (s : State) : Except CmdError State :=
  match extend s.streamByte n.toNat s.br with
  | .error e => .error e
  | .ok (v, r) => .ok { s with br := r, result := toWord (wrap32 v) }

/-- `RECEIVEX n` (R123). -/
def execReceivex (n : Byte) (s : State) : Host.Outcome State Fault Refusal :=
  runCommand (.receivex n) (receivexBody n) s

/-- The bit reader at a byte boundary: `BCOUNT <- 0` (R124). -/
def BitReader.aligned (r : BitReader) : BitReader := { r with bcount := 0 }

/-- `ALIGN` (R124). -/
def execAlign (s : State) : Host.Outcome State Fault Refusal :=
  runCommand .align (fun s => .ok { s with br := s.br.aligned }) s

/-- The decoder state that a scan start and a restart clear (R125, R127). -/
def clearScan (s : State) : State :=
  { s with br := s.br.aligned, pred := tab fun _ => 0, eobrun := 0, ac := ⟨.initial, false⟩ }

/-- `SCANINIT` (R125). -/
def execScaninit (s : State) : Host.Outcome State Fault Refusal :=
  runCommand .scaninit (fun s => .ok (clearScan s)) s

/-- R127. -/
def rstsyncBody (s : State) : Except CmdError State :=
  let s1 := clearScan s
  match bigEndian16 s1.streamByte s1.br.offset.toNat with
  | none => .error ⟨.markerNotFound, s1.br.offset⟩
  | some m =>
    if m < 0xFF00 then .error ⟨.markerNotFound, s1.br.offset⟩
    else
      let s2 := { s1 with result := BitVec.ofNat 32 m }
      if 0xFFD0 ≤ m ∧ m ≤ 0xFFD7 then
        .ok ({ s2 with br := { s2.br with offset := s2.br.offset + 2 } }.setMstop false)
      else .ok (s2.setMstop true)

/-- `RSTSYNC` (R127). -/
def execRstsync (s : State) : Host.Outcome State Fault Refusal := runCommand .rstsync rstsyncBody s

end Sys2Proof.Machine
end

