-- ==== Sys2Proof/Machine/Huffman.lean ====
section
/-!
DEFINITION. Huffman tables: building one from BITS and HUFFVAL, and decoding a symbol (41_huffman R140 to R143).
-/

namespace Sys2Proof.Machine

/-! ## The canonical code (R140) -/

/-- An entry of the code map: the code of `len` bits with value `code` stands for `sym` (R42). -/
structure HuffCode where
  len : Nat
  code : Nat
  sym : Byte
  deriving DecidableEq, Repr

/-- Consecutive codes of one length from `code` on, one for each symbol. -/
def codesOfLength (len : Nat) : Nat → List Byte → List HuffCode
  | _, [] => []
  | code, v :: vs => ⟨len, code, v⟩ :: codesOfLength len (code + 1) vs

/-- R140's assignment from length `len` on, `code` the next code, `bits` the counts left, `vals` the symbols
left: "at depth `i`, the next `BITS[i]` symbols consume codes `code, code+1, …`, then `code = (code + BITS[i]) << 1`". -/
def assignCodes : Nat → Nat → List Nat → List Byte → List HuffCode
  | _, _, [], _ => []
  | len, code, b :: bs, vals =>
    codesOfLength len code (vals.take b) ++ assignCodes (len + 1) (2 * (code + b)) bs (vals.drop b)

/-- No length needs a code that does not exist: `code + BITS[L] ≤ 2^L` at every length (R140). -/
def codeSpaceFits : Nat → Nat → List Nat → Bool
  | _, _, [] => true
  | len, code, b :: bs => decide (code + b ≤ 2 ^ len) && codeSpaceFits (len + 1) (2 * (code + b)) bs

/-- The counts `BITS[1..16]` as numbers. -/
def HuffTable.counts (h : HuffTable) : List Nat := h.bits.toList.map BitVec.toNat

/-- `NVAL` (R42). -/
def HuffTable.nval (h : HuffTable) : Nat := h.counts.sum

/-- The code map (R42, R140). -/
def HuffTable.codeMap (h : HuffTable) : List HuffCode := assignCodes 1 0 h.counts h.vals

/-- What a successful load leaves: `NVAL` symbols, at most 256, and a code space that holds them (R140). -/
def HuffTable.wf (h : HuffTable) : Bool :=
  decide (h.vals.length = h.nval) && decide (h.nval ≤ 256) && codeSpaceFits 1 0 h.counts

/-! ## Symbol decode (R141) -/

/-- The symbol of the code of `len` bits with value `code`, if there is one. -/
def symbolOf (map : List HuffCode) (len code : Nat) : Option Byte :=
  (map.find? fun e => e.len == len && e.code == code).map HuffCode.sym

/-- R141's walk: at most `n` more bits, the next one the `len`-th, `code` the bits so far. -/
def huffWalk (src : Source) (map : List HuffCode) :
    Nat → Nat → Nat → BitReader → Except CmdError (Byte × BitReader)
  | 0, _, _, r => .error (outOfBits r)
  | n + 1, len, code, r =>
    match readBit src r with
    | .error e => .error e
    | .ok (b, r') =>
      match symbolOf map len (2 * code + b.toNat) with
      | some v => .ok (v, r')
      | none => huffWalk src map n (len + 1) (2 * code + b.toNat) r'

/-- R141: `HuffDecode` with the given code map; all 16 bits are read before it fails
(R143; notes/assumptions/12.md). -/
def huffDecode (src : Source) (map : List HuffCode) (r : BitReader) : Except CmdError (Byte × BitReader) :=
  huffWalk src map 16 1 0 r

/-! ## Commands -/

/-- The `n` stream bytes from `p` on, or none if one is `EOS`. -/
def readBytes (src : Source) : Nat → Nat → Option (List Byte)
  | _, 0 => some []
  | p, n + 1 =>
    match src p, readBytes src (p + 1) n with
    | some b, some bs => some (b :: bs)
    | _, _ => none

/-- R140's table at `p`, with spec byte `spec`. -/
def readHuffTable (src : Source) (spec : Byte) (p : Nat) : Except CmdError HuffTable :=
  match readBytes src p 16 with
  | none => .error ⟨.streamEnd, BitVec.ofNat 32 p⟩
  | some bits =>
    let nval := (bits.map BitVec.toNat).sum
    if nval > 256 then .error ⟨.invalidHuffmanTable, spec.setWidth 32⟩
    else
      match readBytes src (p + 16) nval with
      | none => .error ⟨.streamEnd, BitVec.ofNat 32 p⟩
      | some vals =>
        let h : HuffTable := ⟨tab fun l => bits.getD l 0, vals⟩
        if codeSpaceFits 1 0 h.counts then .ok h
        else .error ⟨.invalidHuffmanTable, spec.setWidth 32⟩

/-- R140. -/
def htloadBody (spec : Byte) (s : State) : Except CmdError State :=
  match huffSpec spec with
  | none => .error ⟨.invalidHuffmanTable, spec.setWidth 32⟩
  | some ref =>
    match readHuffTable s.streamByte spec s.tblptr.toNat with
    | .error e => .error e
    | .ok h =>
      let s' := (s.setHt (hiNib spec).toNat (loNib spec).toNat h).setValid ref true
      .ok { s' with tblptr := BitVec.ofNat 32 (s.tblptr.toNat + 16 + h.nval) }

/-- `HTLOAD spec` (R140). -/
def execHtload (spec : Byte) (s : State) : Host.Outcome State Fault Refusal :=
  runCommand (.htload spec) (htloadBody spec) s

/-- R142. -/
def hdecBody (c k : Nib) (s : State) : Except CmdError State :=
  match huffDecode s.streamByte (s.ht c.toNat k.toNat).codeMap s.br with
  | .error e => .error e
  | .ok (v, r) => .ok { s with br := r, result := v.setWidth 32 }

/-- `HDEC dcN | acN` (R142). -/
def execHdec (c k : Nib) (s : State) : Host.Outcome State Fault Refusal :=
  runCommand (.hdec c k) (hdecBody c k) s

end Sys2Proof.Machine
end

