-- ==== Sys2Proof/Machine/BlockDecode.lean ====
section
/-!
DEFINITION. The per-block entropy decode commands (42_block_decode R160 to R168).
A loop of the rules' pseudocode is a recursion on the number of passes left; 64 passes are enough for each,
because every pass moves the position `k` on by at least 1 (70 R354).
-/

namespace Sys2Proof.Machine

/-- The code map of DC or AC table `k` (class 0 or 1). -/
def State.codeMap (s : State) (c k : Nat) : List HuffCode := (s.ht c k).codeMap

/-- The low and the high half of a symbol `rs`: the category `s` and the run `r` (R161). -/
def symS (rs : Byte) : Nat := (loNib rs).toNat
def symR (rs : Byte) : Nat := (hiNib rs).toNat

/-- Place a decoded coefficient at zig-zag position `k`; past 63 it is dropped (R160 points 1 and 3). -/
def place (blk : Block) (k : Nat) (v : Int) : Block :=
  if k ≤ 63 then setLane blk (zz k) (toWord v) else blk

/-! ## DC coefficients -/

/-- The DC part that `DECBASE` and `DCFIRST` share: the symbol `t` and `Extend(t)` (R161, R162). -/
def decodeDc (src : Source) (map : List HuffCode) (r : BitReader) : Except CmdError (Int × BitReader) :=
  match huffDecode src map r with
  | .error e => .error e
  | .ok (t, r1) =>
    if t.toNat > 16 then .error (outOfBits r1) else extend src t.toNat r1

/-- `wrap32(PRED[I] + diff)` (R161, R162). -/
def predicted (s : State) (p : Nat) (diff : Int) : Word := toWord (wrap32 (signed (s.predAt p) + diff))

/-! ## `DECBASE` (R161) -/

/-- R161's loop over the AC coefficients, from position `k`. -/
def baseAc (src : Source) (map : List HuffCode) :
    Nat → Nat → Block → BitReader → Except CmdError (Block × BitReader)
  | 0, _, blk, r => .ok (blk, r)
  | fuel + 1, k, blk, r =>
    if k < 64 then
      match huffDecode src map r with
      | .error e => .error e
      | .ok (rs, r1) =>
        if symS rs = 0 then
          if symR rs < 15 then .ok (blk, r1) else baseAc src map fuel (k + 16) blk r1
        else
          match extend src (symS rs) r1 with
          | .error e => .error e
          | .ok (v, r2) => baseAc src map fuel (k + symR rs + 1) (place blk (k + symR rs) v) r2
    else .ok (blk, r)

/-- R161. -/
def decbaseBody (d t u : Nib) (p : Byte) (s : State) : Except CmdError State :=
  match decodeDc s.streamByte (s.codeMap 0 t.toNat) s.br with
  | .error e => .error e
  | .ok (diff, r1) =>
    let pv := predicted s p.toNat diff
    match baseAc s.streamByte (s.codeMap 1 u.toNat) 64 1 (setLane (s.buf d.toNat) 0 pv) r1 with
    | .error e => .error e
    | .ok (blk, r2) => .ok { (s.setPred p.toNat pv).setBuf d.toNat blk with br := r2 }

/-- `DECBASE bD, dcT, acU, pI` (R161). -/
def execDecbase (d t u : Nib) (p : Byte) (s : State) : Host.Outcome State Fault Refusal :=
  runCommand (.decbase d t u p) (decbaseBody d t u p) s

/-! ## `DCFIRST`, `DCSUCC` (R162, R163) -/

/-- R162. -/
def dcfirstBody (d t : Nib) (p : Byte) (s : State) : Except CmdError State :=
  match decodeDc s.streamByte (s.codeMap 0 t.toNat) s.br with
  | .error e => .error e
  | .ok (diff, r1) =>
    let pv := predicted s p.toNat (shl32 diff s.scan.al.toNat)
    .ok { (s.setPred p.toNat pv).setBuf d.toNat (setLane (s.buf d.toNat) 0 pv) with br := r1 }

/-- `DCFIRST bD, dcT, pI` (R162). -/
def execDcfirst (d t : Nib) (p : Byte) (s : State) : Host.Outcome State Fault Refusal :=
  runCommand (.dcfirst d t p) (dcfirstBody d t p) s

/-- R163: a bitwise OR on the 32-bit pattern. -/
def dcsuccBody (d : Nib) (s : State) : Except CmdError State :=
  match readBit s.streamByte s.br with
  | .error e => .error e
  | .ok (b, r) =>
    let old := lane (s.buf d.toNat) 0
    let new := old ||| BitVec.ofNat 32 (b.toNat * 2 ^ s.scan.al.toNat)
    .ok { s.setBuf d.toNat (setLane (s.buf d.toNat) 0 new) with br := r }

/-- `DCSUCC bD` (R163). -/
def execDcsucc (d : Nib) (s : State) : Host.Outcome State Fault Refusal :=
  runCommand (.dcsucc d) (dcsuccBody d) s

/-! ## `ACFIRST` (R164) -/

/-- R164's loop from position `k` to the band's end `e`; it carries the block and `EOBRUN`. -/
def firstAc (src : Source) (map : List HuffCode) (al e : Nat) :
    Nat → Nat → Block → Word → BitReader → Except CmdError (Block × Word × BitReader)
  | 0, _, blk, eob, r => .ok (blk, eob, r)
  | fuel + 1, k, blk, eob, r =>
    if k ≤ e then
      match huffDecode src map r with
      | .error x => .error x
      | .ok (rs, r1) =>
        if symS rs = 0 then
          if symR rs < 15 then
            match recv src (symR rs) r1 with
            | .error x => .error x
            | .ok (v, r2) => .ok (blk, toWord (wrap32 (2 ^ symR rs + v - 1)), r2)
          else firstAc src map al e fuel (k + 16) blk eob r1
        else
          match extend src (symS rs) r1 with
          | .error x => .error x
          | .ok (v, r2) =>
            firstAc src map al e fuel (k + symR rs + 1) (place blk (k + symR rs) (shl32 v al)) eob r2
    else .ok (blk, eob, r)

/-- R164. -/
def acfirstBody (d u : Nib) (s : State) : Except CmdError State :=
  if signed s.eobrun > 0 then .ok { s with eobrun := s.eobrun - 1 }
  else
    match firstAc s.streamByte (s.codeMap 1 u.toNat) s.scan.al.toNat s.scan.se.toNat 64 s.scan.ss.toNat
        (s.buf d.toNat) s.eobrun s.br with
    | .error e => .error e
    | .ok (blk, eob, r) => .ok { s.setBuf d.toNat blk with eobrun := eob, br := r }

/-- `ACFIRST bD, acU` (R164). -/
def execAcfirst (d u : Nib) (s : State) : Host.Outcome State Fault Refusal :=
  runCommand (.acfirst d u) (acfirstBody d u) s

/-! ## `ACSUCC` (R165 to R167) -/

/-- What R165's loop carries: the block, `EOBRUN`, `ACSTATE`, the local run counter `r` (R166) and the bit
reader. -/
structure AcRun where
  blk : Block
  eob : Word
  ac : AcState
  run : Int
  br : BitReader
  deriving DecidableEq, Repr

/-- R167: `Refine` of lane `z`. -/
def refine (src : Source) (al z : Nat) (a : AcRun) : Except CmdError AcRun :=
  match readBit src a.br with
  | .error e => .error e
  | .ok (b, r) =>
    let old := signed (lane a.blk z)
    let sg : Int := if old < 0 then -1 else 1
    .ok { a with blk := setLane a.blk z (toWord (wrap32 (old + sg * b.toNat * 2 ^ al))), br := r }

/-- R165, state `INITIAL`: decode one symbol; the position does not move. -/
def acSymbol (src : Source) (map : List HuffCode) (a : AcRun) : Except CmdError AcRun :=
  match huffDecode src map a.br with
  | .error e => .error e
  | .ok (rs, r1) =>
    if symS rs = 0 then
      if symR rs < 15 then
        match recv src (symR rs) r1 with
        | .error e => .error e
        | .ok (v, r2) =>
          .ok { a with eob := toWord (wrap32 (v + 2 ^ symR rs)), ac := { a.ac with mode := .eob },
                       run := symR rs, br := r2 }
      else .ok { a with ac := { a.ac with mode := .skipZrl }, run := 16, br := r1 }
    else if symS rs = 1 then
      match readBit src r1 with
      | .error e => .error e
      | .ok (b, r2) =>
        .ok { a with ac := ⟨if symR rs > 0 then .skipPlace else .placing, !b⟩, run := symR rs, br := r2 }
    else .error ⟨.invalidAcEncoding, rs.setWidth 32⟩

/-- R165, a state other than `INITIAL`, at the position whose natural index is `z`. -/
def acVisit (src : Source) (al z : Nat) (a : AcRun) : Except CmdError AcRun :=
  if lane a.blk z ≠ 0 then
    match a.ac.mode with
    | .initial => .ok a
    | .skipZrl | .skipPlace | .placing | .eob => refine src al z a
  else
    match a.ac.mode with
    | .initial => .ok a
    | .skipZrl =>
      .ok { a with run := a.run - 1, ac := { a.ac with mode := if a.run - 1 = 0 then .initial else .skipZrl } }
    | .skipPlace =>
      .ok { a with run := a.run - 1, ac := { a.ac with mode := if a.run - 1 = 0 then .placing else .skipPlace } }
    | .placing =>
      .ok { a with blk := setLane a.blk z (toWord (shl32 (if a.ac.nextNeg then -1 else 1) al)),
                   ac := { a.ac with mode := .initial } }
    | .eob => .ok a

/-- R165 at one position `k`: in `INITIAL` a symbol first, which always leaves `INITIAL`; then the visit. -/
def acPosition (src : Source) (map : List HuffCode) (al k : Nat) (a : AcRun) : Except CmdError AcRun :=
  match (if a.ac.mode = .initial then acSymbol src map a else .ok a) with
  | .error e => .error e
  | .ok a' => acVisit src al (zz k) a'

/-- R165's loop: `n` positions from `k` on. -/
def acBand (src : Source) (map : List HuffCode) (al : Nat) : Nat → Nat → AcRun → Except CmdError AcRun
  | 0, _, a => .ok a
  | n + 1, k, a =>
    match acPosition src map al k a with
    | .error e => .error e
    | .ok a' => acBand src map al n (k + 1) a'

/-- R165, "on scan-end": in state `EOB`, count the block off the run. -/
def acEnd (a : AcRun) : AcRun :=
  if a.ac.mode = .eob then
    { a with eob := a.eob - 1, ac := { a.ac with mode := if a.eob - 1 = 0 then .initial else .eob } }
  else a

/-- R165. -/
def acsuccBody (d u : Nib) (s : State) : Except CmdError State :=
  match acBand s.streamByte (s.codeMap 1 u.toNat) s.scan.al.toNat (s.scan.se.toNat + 1 - s.scan.ss.toNat)
      s.scan.ss.toNat ⟨s.buf d.toNat, s.eobrun, s.ac, 0, s.br⟩ with
  | .error e => .error e
  | .ok a => .ok { s.setBuf d.toNat (acEnd a).blk with
                    eobrun := (acEnd a).eob, ac := (acEnd a).ac, br := (acEnd a).br }

/-- `ACSUCC bD, acU` (R165). -/
def execAcsucc (d u : Nib) (s : State) : Host.Outcome State Fault Refusal :=
  runCommand (.acsucc d u) (acsuccBody d u) s

end Sys2Proof.Machine
end

