-- ==== Sys2Proof/Machine/Control.lean ====
section
/-!
DEFINITION. The buffer control commands (46_control R270 to R272).
-/

namespace Sys2Proof.Machine

/-- `NOP` (R270). -/
def execNop (s : State) : Host.Outcome State Fault Refusal := runCommand .nop (fun s => .ok s) s

/-- A block of zeros. -/
def zeroBlock : Block := tab fun _ => 0

/-- `ZERO bD` (R271). -/
def execZero (d : Nib) (s : State) : Host.Outcome State Fault Refusal :=
  runCommand (.zero d) (fun s => .ok (s.setBuf d.toNat zeroBlock)) s

/-- `COPY bD, bS` (R272). -/
def execCopy (d b : Nib) (s : State) : Host.Outcome State Fault Refusal :=
  runCommand (.copy d b) (fun s => .ok (s.setBuf d.toNat (s.buf b.toNat))) s

end Sys2Proof.Machine
end

