-- ==== Sys2Proof/Machine/Dequant.lean ====
section
/-!
DEFINITION. The dequantization table load and the multiply (43_dequant_idct R190, R191, R197).
-/

namespace Sys2Proof.Machine

/-- Entry `j` of a table body at `p` with precision `pq`: one byte, or two in big-endian order (R190, 20 R69). -/
def quantEntry (src : Nat → Option Byte) (pq p j : Nat) : Option Half :=
  if pq = 0 then (src (p + j)).map fun b => b.setWidth 16
  else (bigEndian16 src (p + 2 * j)).map fun v => BitVec.ofNat 16 v

/-- Entries `j`, `j + 1`, … of a table body, `n` of them, or none if a byte is `EOS`. -/
def quantEntries (src : Nat → Option Byte) (pq p : Nat) : Nat → Nat → Option (List Half)
  | 0, _ => some []
  | n + 1, j =>
    match quantEntry src pq p j, quantEntries src pq p n (j + 1) with
    | some v, some vs => some (v :: vs)
    | _, _ => none

/-- R190. Entry `j` of the body goes to natural index `ZZ[j]`, so index `i` takes entry `ZZI[i]`. -/
def qloadBody (spec : Byte) (s : State) : Except CmdError State :=
  let pq := (hiNib spec).toNat
  match quantSpec spec with
  | none => .error ⟨.invalidQuantSpec, spec.setWidth 32⟩
  | some ref =>
    if pq > 1 then .error ⟨.invalidQuantSpec, spec.setWidth 32⟩
    else
      match quantEntries s.streamByte pq s.tblptr.toNat 64 0 with
      | none => .error ⟨.streamEnd, s.tblptr⟩
      | some vs =>
        let s' := (s.setQt (loNib spec).toNat (tab fun i => vs.getD (zzi i) 0)).setValid ref true
        .ok { s' with tblptr := BitVec.ofNat 32 (s.tblptr.toNat + 64 * (pq + 1)) }

/-- `QLOAD spec` (R190). -/
def execQload (spec : Byte) (s : State) : Host.Outcome State Fault Refusal :=
  runCommand (.qload spec) (qloadBody spec) s

/-- R191: the block times the table, lane by lane, each product wrapped. -/
def dequantized (blk : Block) (q : Vector Half 64) : Block :=
  tab fun i => toWord (wrap32 (signed (lane blk i) * (nth q i).toNat))

/-- `DEQUANT bD, bS, qT` (R191). -/
def execDequant (d b t : Nib) (s : State) : Host.Outcome State Fault Refusal :=
  runCommand (.dequant d b t)
    (fun s => .ok (s.setBuf d.toNat (dequantized (s.buf b.toNat) (s.qt t.toNat)))) s

end Sys2Proof.Machine
end

