-- ==== Sys2Proof/Machine/Float64.lean ====
section
/-!
DEFINITION. IEEE 754 binary64 arithmetic (00_scope R9, 44_fdct_quant R226): addition, subtraction,
multiplication and division of bit patterns, each rounded to nearest, ties to even. A value is unpacked to an
exact integer times a power of two, the operation is exact, and `roundTo` packs it. The format is from general
knowledge by the spec's own account (93 G2).
-/

namespace Sys2Proof.Machine

/-- A binary64 value: `(-1)^neg · m · 2^e`, an infinity, or not a number. -/
inductive Num where
  | nan
  | inf (neg : Bool)
  | fin (neg : Bool) (m : Nat) (e : Int)
  deriving DecidableEq, Repr

/-- The value of a bit pattern. -/
def unpack (x : F64) : Num :=
  let neg := x.getLsbD 63
  let ex : Nat := x.toNat / 2 ^ 52 % 2048
  let fr : Nat := x.toNat % 2 ^ 52
  if ex = 2047 then (if fr = 0 then .inf neg else .nan)
  else if ex = 0 then .fin neg fr (-1074)
  else .fin neg (2 ^ 52 + fr) ((ex : Int) - 1075)

/-- The pattern with the given sign, biased exponent and fraction. -/
def pattern (neg : Bool) (ex fr : Nat) : F64 :=
  BitVec.ofNat 64 (neg.toNat * 2 ^ 63 + ex * 2 ^ 52 + fr)

def f64Inf (neg : Bool) : F64 := pattern neg 2047 0

/-- The one NaN this model makes; nothing the spec defines meets one (notes/assumptions/13.md). -/
def f64NaN : F64 := pattern false 2047 (2 ^ 51)

/-- `m / 2^k` rounded to the nearest integer, ties to even. -/
def roundShift (m k : Nat) : Nat :=
  let q := m / 2 ^ k
  let r := 2 * (m % 2 ^ k)
  if r > 2 ^ k ∨ (r = 2 ^ k ∧ q % 2 = 1) then q + 1 else q

/-- The pattern of `q · 2^e` for `q ≤ 2^53`, where `e` is -1074 if `q < 2^52`. -/
def packExact (neg : Bool) (q : Nat) (e : Int) : F64 :=
  if q < 2 ^ 52 then pattern neg 0 q
  else
    let q' := if q = 2 ^ 53 then 2 ^ 52 else q
    let ex := (if q = 2 ^ 53 then e + 1 else e) + 1075
    if ex ≥ 2047 then f64Inf neg else pattern neg ex.toNat (q' - 2 ^ 52)

/-- The binary64 value nearest to `(-1)^neg · m · 2^e`, ties to even. -/
def roundTo (neg : Bool) (m : Nat) (e : Int) : F64 :=
  if m = 0 then pattern neg 0 0
  else
    let e' := max (e + m.log2 - 52) (-1074)
    if e' ≤ e then packExact neg (m * 2 ^ (e - e').toNat) e'
    else packExact neg (roundShift m (e' - e).toNat) e'

/-- A signed significand. -/
def signedNat (neg : Bool) (m : Nat) : Int := if neg then -(m : Int) else m

def f64Neg (a : F64) : F64 := a ^^^ BitVec.twoPow 64 63

/-- `a ⊕ b`. -/
def f64Add (a b : F64) : F64 :=
  match unpack a, unpack b with
  | .fin na ma ea, .fin nb mb eb =>
    let e := min ea eb
    let x := signedNat na ma * 2 ^ (ea - e).toNat + signedNat nb mb * 2 ^ (eb - e).toNat
    if x = 0 then pattern (na && nb) 0 0 else roundTo (decide (x < 0)) x.natAbs e
  | .inf na, .inf nb => if na = nb then f64Inf na else f64NaN
  | .inf na, .fin _ _ _ => f64Inf na
  | .fin _ _ _, .inf nb => f64Inf nb
  | .nan, .nan => f64NaN
  | .nan, .inf _ => f64NaN
  | .nan, .fin _ _ _ => f64NaN
  | .inf _, .nan => f64NaN
  | .fin _ _ _, .nan => f64NaN

/-- `a ⊖ b`. -/
def f64Sub (a b : F64) : F64 := f64Add a (f64Neg b)

/-- `a ⊗ b`. -/
def f64Mul (a b : F64) : F64 :=
  match unpack a, unpack b with
  | .fin na ma ea, .fin nb mb eb => roundTo (na != nb) (ma * mb) (ea + eb)
  | .inf na, .inf nb => f64Inf (na != nb)
  | .inf na, .fin nb mb _ => if mb = 0 then f64NaN else f64Inf (na != nb)
  | .fin na ma _, .inf nb => if ma = 0 then f64NaN else f64Inf (na != nb)
  | .nan, .nan => f64NaN
  | .nan, .inf _ => f64NaN
  | .nan, .fin _ _ _ => f64NaN
  | .inf _, .nan => f64NaN
  | .fin _ _ _, .nan => f64NaN

/-- The quotient of significands to far more bits than binary64 holds, its last bit set if it is inexact: rounding
that gives the rounding of the exact quotient. -/
def stickyQuotient (m n : Nat) : Nat := 2 * (m * 2 ^ 120 / n) + (if m * 2 ^ 120 % n = 0 then 0 else 1)

/-- `a ⊘ b`. -/
def f64Div (a b : F64) : F64 :=
  match unpack a, unpack b with
  | .fin na ma ea, .fin nb mb eb =>
    if mb = 0 then (if ma = 0 then f64NaN else f64Inf (na != nb))
    else roundTo (na != nb) (stickyQuotient ma mb) (ea - eb - 121)
  | .inf _, .inf _ => f64NaN
  | .inf na, .fin nb _ _ => f64Inf (na != nb)
  | .fin na _ _, .inf nb => pattern (na != nb) 0 0
  | .nan, .nan => f64NaN
  | .nan, .inf _ => f64NaN
  | .nan, .fin _ _ _ => f64NaN
  | .inf _, .nan => f64NaN
  | .fin _ _ _, .nan => f64NaN

/-- `f64(n)` (R9). -/
def f64OfInt (n : Int) : F64 := roundTo (decide (n < 0)) n.natAbs 0

/-- The decimal literal `k / 10^9`: the binary64 value nearest to it (R9). -/
def f64Lit (k : Nat) : F64 := f64Div (f64OfInt k) (f64OfInt 1000000000)

/-- `floor(m · 2^e + 1/2)`, exactly. -/
def floorPlusHalf (m : Nat) (e : Int) : Nat :=
  if 0 ≤ e then m * 2 ^ e.toNat else (2 * m + 2 ^ (-e).toNat) / 2 ^ ((-e).toNat + 1)

/-- `floor(m · 2^e)`, exactly. -/
def floorScaled (m : Nat) (e : Int) : Nat :=
  if 0 ≤ e then m * 2 ^ e.toNat else m / 2 ^ (-e).toNat

end Sys2Proof.Machine
end

