-- ==== Sys2Proof/Machine/Grid.lean ====
section
/-!
DEFINITION. An 8×8 block as eight rows or eight columns of eight values, and one-dimensional passes over them
(00_scope R7: lane `8·row + column`; 43 R195, 44 R222).
-/

namespace Sys2Proof.Machine

/-- The eight values of a row or a column. -/
structure Oct (α : Type) where
  p0 : α
  p1 : α
  p2 : α
  p3 : α
  p4 : α
  p5 : α
  p6 : α
  p7 : α
  deriving DecidableEq, Repr

/-- Value `i` of the eight. -/
def Oct.at {α : Type} (o : Oct α) : Nat → α
  | 0 => o.p0
  | 1 => o.p1
  | 2 => o.p2
  | 3 => o.p3
  | 4 => o.p4
  | 5 => o.p5
  | 6 => o.p6
  | _ => o.p7

/-- The eight entries of `v` from `start` on in steps of `stride`. -/
def octOf {α : Type} [Inhabited α] (v : Vector α 64) (start stride : Nat) : Oct α :=
  ⟨nth v start, nth v (start + stride), nth v (start + 2 * stride), nth v (start + 3 * stride),
   nth v (start + 4 * stride), nth v (start + 5 * stride), nth v (start + 6 * stride),
   nth v (start + 7 * stride)⟩

/-- `pass` on rows 0..7, each written back to its place. -/
def mapRows {α : Type} [Inhabited α] (pass : Oct α → Oct α) (v : Vector α 64) : Vector α 64 :=
  let rows : List (Oct α) := (List.range 8).map fun r => pass (octOf v (8 * r) 1)
  tab fun i => (rows.map fun o => o.at (i % 8)).getD (i / 8) default

/-- `pass` on columns 0..7, each written back to its place. -/
def mapCols {α : Type} [Inhabited α] (pass : Oct α → Oct α) (v : Vector α 64) : Vector α 64 :=
  let cols : List (Oct α) := (List.range 8).map fun c => pass (octOf v c 8)
  tab fun i => (cols.map fun o => o.at (i / 8)).getD (i % 8) default

end Sys2Proof.Machine
end

