-- ==== Sys2Proof/Machine/Encoder.lean ====
section
/-!
DEFINITION. Quantization-table scaling and the FDCT engine (44_fdct_quant R220 to R227).
The butterfly network of R224 is from general knowledge by the spec's own account (93 G3).
-/

namespace Sys2Proof.Machine

/-! ## `QSCALE` (R220) -/

/-- The scale factor of a quality, clamped to 1..100 first. -/
def scaleFactor (quality : Nat) : Nat :=
  let q := min 100 (max 1 quality)
  if q < 50 then 5000 / q else 200 - 2 * q

/-- A base entry, the low 16 bits of its lane, scaled. -/
def scaledEntry (sf : Nat) (base : Word) : Nat := min 255 (max 1 ((base.toNat % 2 ^ 16 * sf + 50) / 100))

/-- R220: lane `ZZI[i]` of the result is the scaled lane `i`, so lane `k` is the scaled lane `ZZ[k]`. -/
def qscaled (blk : Block) (quality : Nat) : Block :=
  tab fun k => BitVec.ofNat 32 (scaledEntry (scaleFactor quality) (lane blk (zz k)))

/-- `QSCALE bD, bS, quality` (R220). -/
def execQscale (d b : Nib) (quality : Byte) (s : State) : Host.Outcome State Fault Refusal :=
  runCommand (.qscale d b quality)
    (fun s => .ok (s.setBuf d.toNat (qscaled (s.buf b.toNat) quality.toNat))) s

/-! ## `EQLOAD` (R221) -/

/-- The AAN scale factors (R223), in units of `10^-9`. -/
def aasfTable : List Nat :=
  [1000000000, 1387039845, 1306562965, 1175875602, 1000000000, 785694958, 541196100, 275899379]

/-- `aasf[k]` (R223). -/
def aasf (k : Nat) : F64 := f64Lit (aasfTable.getD k 0)

/-- R221: the reciprocal of natural index `k` for scaled table entry `v`, the products formed left to right. -/
def reciprocal (v : Int) (k : Nat) : F64 :=
  f64Div (f64OfInt 1)
    (f64Mul (f64Mul (f64Mul (f64OfInt v) (aasf (k / 8))) (aasf (k % 8))) (f64OfInt 8))

/-- An entry that `EQLOAD` accepts: 1..255 (R221). -/
def entryOk (v : Word) : Bool := decide (1 ≤ signed v ∧ signed v ≤ 255)

/-- The first lane, in rising order, that `EQLOAD` does not accept. -/
def badEntry (blk : Block) : Option Word := blk.toList.find? fun v => !entryOk v

/-- R221. -/
def eqloadBody (b t : Nib) (s : State) : Except CmdError State :=
  match badEntry (s.buf b.toNat) with
  | some v => .error ⟨.badArgument, v⟩
  | none =>
    .ok ((s.setFq t.toNat (tab fun k => reciprocal (signed (lane (s.buf b.toNat) (zzi k))) k)).setValid
      (.recip t.toNat) true)

/-- `EQLOAD bS, fT` (R221). -/
def execEqload (b t : Nib) (s : State) : Host.Outcome State Fault Refusal :=
  runCommand (.eqload b t) (eqloadBody b t) s

/-! ## `FDCTQ` (R222, R224, R225) -/

/-- R224: one row or one column. -/
def fdctPass (d : Oct F64) : Oct F64 :=
  let tmp0 := f64Add d.p0 d.p7
  let tmp7 := f64Sub d.p0 d.p7
  let tmp1 := f64Add d.p1 d.p6
  let tmp6 := f64Sub d.p1 d.p6
  let tmp2 := f64Add d.p2 d.p5
  let tmp5 := f64Sub d.p2 d.p5
  let tmp3 := f64Add d.p3 d.p4
  let tmp4 := f64Sub d.p3 d.p4
  -- even part
  let tmp10 := f64Add tmp0 tmp3
  let tmp13 := f64Sub tmp0 tmp3
  let tmp11 := f64Add tmp1 tmp2
  let tmp12 := f64Sub tmp1 tmp2
  let o0 := f64Add tmp10 tmp11
  let o4 := f64Sub tmp10 tmp11
  let z1 := f64Mul (f64Add tmp12 tmp13) (f64Lit 707106781)
  let o2 := f64Add tmp13 z1
  let o6 := f64Sub tmp13 z1
  -- odd part
  let odd10 := f64Add tmp4 tmp5
  let odd11 := f64Add tmp5 tmp6
  let odd12 := f64Add tmp6 tmp7
  let z5 := f64Mul (f64Sub odd10 odd12) (f64Lit 382683433)
  let z2 := f64Add (f64Mul (f64Lit 541196100) odd10) z5
  let z4 := f64Add (f64Mul (f64Lit 1306562965) odd12) z5
  let z3 := f64Mul odd11 (f64Lit 707106781)
  let z11 := f64Add tmp7 z3
  let z13 := f64Sub tmp7 z3
  let o5 := f64Add z13 z2
  let o3 := f64Sub z13 z2
  let o1 := f64Add z11 z4
  let o7 := f64Sub z11 z4
  ⟨o0, o1, o2, o3, o4, o5, o6, o7⟩

/-- R222: pass 1 on rows, pass 2 on columns. -/
def fdctPasses (x : Vector F64 64) : Vector F64 64 := mapCols fdctPass (mapRows fdctPass x)

/-- R225, `EXACT`: round half away from zero, on the real value; before the wrap. -/
def quantExact (x : F64) : Int :=
  match unpack x with
  | .fin neg m e => signedNat neg (floorPlusHalf m e)
  | .inf _ => Config.quantNonFinite x
  | .nan => Config.quantNonFinite x

/-- `trunc` of a binary64 value. -/
def f64Trunc (x : F64) : Int :=
  match unpack x with
  | .fin neg m e => signedNat neg (floorScaled m e)
  | .inf _ => Config.quantNonFinite x
  | .nan => Config.quantNonFinite x

/-- `x > 0` of a binary64 value. -/
def f64Positive (x : F64) : Bool :=
  match unpack x with
  | .fin neg m _ => !neg && decide (m ≠ 0)
  | .inf neg => !neg
  | .nan => false

/-- The binary64 value 0.5. -/
def f64Half : F64 := f64Lit 500000000

/-- R225, `ADD_HALF_B64`: the addition itself rounds; before the wrap. -/
def quantAddHalf (x : F64) : Int :=
  if f64Positive x then f64Trunc (f64Add x f64Half) else f64Trunc (f64Sub x f64Half)

/-- R225: `Quant`. -/
def quant (impl : RoundImpl) (x : F64) : Int :=
  match impl with
  | .exact => wrap32 (quantExact x)
  | .addHalfB64 => wrap32 (quantAddHalf x)

/-- R222: the 64 quantized coefficients of a block of samples. -/
def fdctqBlock (impl : RoundImpl) (blk : Block) (fq : Vector F64 64) : Block :=
  let x := fdctPasses (tab fun i => f64OfInt (signed (lane blk i)))
  tab fun i => toWord (quant impl (f64Mul (nth x i) (nth fq i)))

/-- `FDCTQ bD, bS, fT` (R222). -/
def execFdctq (d b t : Nib) (s : State) : Host.Outcome State Fault Refusal :=
  runCommand (.fdctq d b t)
    (fun s => .ok (s.setBuf d.toNat (fdctqBlock s.cfg.roundImpl (s.buf b.toNat) (s.fq t.toNat)))) s

end Sys2Proof.Machine
end

