-- ==== Sys2Proof/Machine/Idct.lean ====
section
/-!
DEFINITION. The IDCT engine (43_dequant_idct R192 to R198): exact integers, with `wrap32` where the rule writes it.
The dataflow of R194 is from general knowledge by the spec's own account (93 G5); the column pass follows
90_conflicts C2.
-/

namespace Sys2Proof.Machine

/-! ## Constants (R193) -/

def c1 : Int := 4017
def s1 : Int := 799
def c3 : Int := 3406
def s3 : Int := 2276
def c6 : Int := 1567
def s6 : Int := 3784
def sq2 : Int := 5793
def sq1d2 : Int := 2896

/-- The parameters of a pass (R194): `RND4`, `S4`, `SH`, `FR`, `FS`. -/
structure PassParams where
  rnd4 : Int
  s4 : Nat
  sh : Nat
  fr : Int
  fs : Nat
  deriving DecidableEq, Repr

def rowParams : PassParams := ⟨128, 8, 4, 512, 10⟩
def colParams : PassParams := ⟨2048, 12, 0, 8192, 14⟩

/-- `sra(wrap32(x), n)`: the form every rounding of R194 takes. -/
def wsra (x : Int) (n : Nat) : Int := sra (wrap32 x) n

/-- R194: one row or one column. -/
def idctPass (k : PassParams) (p : Oct Int) : Oct Int :=
  if p.p1 = 0 ∧ p.p2 = 0 ∧ p.p3 = 0 ∧ p.p4 = 0 ∧ p.p5 = 0 ∧ p.p6 = 0 ∧ p.p7 = 0 then
    let t := wsra (sq2 * p.p0 + k.fr) k.fs
    ⟨t, t, t, t, t, t, t, t⟩
  else
    -- stage 4
    let v0 := wsra (sq2 * p.p0 + k.rnd4) k.s4
    let v1 := wsra (sq2 * p.p4 + k.rnd4) k.s4
    let v2 := p.p2
    let v3 := p.p6
    let v4 := wsra (sq1d2 * (p.p1 - p.p7) + k.rnd4) k.s4
    let v7 := wsra (sq1d2 * (p.p1 + p.p7) + k.rnd4) k.s4
    let v5 := shl32 p.p3 k.sh
    let v6 := shl32 p.p5 k.sh
    -- stage 3
    let a0 := wsra (v0 + v1 + 1) 1
    let a1 := wsra (v0 - v1 + 1) 1
    let a2 := wsra (v2 * c6 - v3 * s6 + k.rnd4) k.s4
    let a3 := wsra (v2 * s6 + v3 * c6 + k.rnd4) k.s4
    let a4 := wsra (v4 + v6 + 1) 1
    let a6 := wsra (v4 - v6 + 1) 1
    let a5 := wsra (v7 - v5 + 1) 1
    let a7 := wsra (v7 + v5 + 1) 1
    -- stage 2
    let b0 := wsra (a0 + a3 + 1) 1
    let b3 := wsra (a0 - a3 + 1) 1
    let b1 := wsra (a1 + a2 + 1) 1
    let b2 := wsra (a1 - a2 + 1) 1
    let b4 := wsra (a4 * c3 - a7 * s3 + 2048) 12
    let b7 := wsra (a4 * s3 + a7 * c3 + 2048) 12
    let b5 := wsra (a5 * c1 - a6 * s1 + 2048) 12
    let b6 := wsra (a5 * s1 + a6 * c1 + 2048) 12
    -- stage 1
    ⟨wrap32 (b0 + b7), wrap32 (b1 + b6), wrap32 (b2 + b5), wrap32 (b3 + b4),
     wrap32 (b3 - b4), wrap32 (b2 - b5), wrap32 (b1 - b6), wrap32 (b0 - b7)⟩

/-- R195: rows 0..7, then columns 0..7 of the result. -/
def idctPasses (p : Vector Int 64) : Vector Int 64 :=
  mapCols (idctPass colParams) (mapRows (idctPass rowParams) p)

/-- R196: level shift and clamp. -/
def sampleOf (p : Int) : Int := clamp 0 255 (128 + wsra (p + 8) 4)

/-- R195: the 64 samples of a block of coefficients. -/
def idctBlock (blk : Block) : Block :=
  let q := idctPasses (tab fun i => signed (lane blk i))
  tab fun i => toWord (sampleOf (nth q i))

/-- `IDCT bD, bS` (R192). -/
def execIdct (d b : Nib) (s : State) : Host.Outcome State Fault Refusal :=
  runCommand (.idct d b) (fun s => .ok (s.setBuf d.toNat (idctBlock (s.buf b.toNat)))) s

end Sys2Proof.Machine
end

