-- ==== Sys2Proof/Machine/Zigzag.lean ====
section
/-!
DEFINITION. The zig-zag reordering commands (45_zigzag R251, R252). Lanes move as 32-bit patterns.
-/

namespace Sys2Proof.Machine

/-- R251: lane `k` of the result is lane `ZZ[k]` of the source. -/
def toZigzag (blk : Block) : Block := tab fun k => lane blk (zz k)

/-- R252: lane `ZZ[k]` of the result is lane `k` of the source. -/
def toNatural (blk : Block) : Block := tab fun n => lane blk (zzi n)

/-- `ZZFWD bD, bS` (R251). -/
def execZzfwd (d b : Nib) (s : State) : Host.Outcome State Fault Refusal :=
  runCommand (.zzfwd d b) (fun s => .ok (s.setBuf d.toNat (toZigzag (s.buf b.toNat)))) s

/-- `ZZINV bD, bS` (R252). -/
def execZzinv (d b : Nib) (s : State) : Host.Outcome State Fault Refusal :=
  runCommand (.zzinv d b) (fun s => .ok (s.setBuf d.toNat (toNatural (s.buf b.toNat)))) s

end Sys2Proof.Machine
end

