-- ==== Sys2Proof/Machine/Dispatch.lean ====
section
/-!
DEFINITION. The meaning of each command: one arm per constructor of Instr (30_encoding R93, R95 steps 3 to 5).
-/

namespace Sys2Proof.Machine

def exec (i : Instr) (s : State) : Host.Outcome State Fault Refusal :=
  match i with
  -- 46_control
  | .nop => Sys2Proof.Machine.execNop s
  | .zero d => Sys2Proof.Machine.execZero d s
  | .copy d b => Sys2Proof.Machine.execCopy d b s
  -- 40_bitreader
  | .readbit => Sys2Proof.Machine.execReadbit s
  | .receive n => Sys2Proof.Machine.execReceive n s
  | .receivex n => Sys2Proof.Machine.execReceivex n s
  | .align => Sys2Proof.Machine.execAlign s
  | .scaninit => Sys2Proof.Machine.execScaninit s
  | .rstsync => Sys2Proof.Machine.execRstsync s
  -- 41_huffman
  | .htload spec => Sys2Proof.Machine.execHtload spec s
  | .hdec c k => Sys2Proof.Machine.execHdec c k s
  -- 42_block_decode
  | .decbase d t u p => Sys2Proof.Machine.execDecbase d t u p s
  | .dcfirst d t p => Sys2Proof.Machine.execDcfirst d t p s
  | .dcsucc d => Sys2Proof.Machine.execDcsucc d s
  | .acfirst d u => Sys2Proof.Machine.execAcfirst d u s
  | .acsucc d u => Sys2Proof.Machine.execAcsucc d u s
  -- 43_dequant_idct
  | .qload spec => Sys2Proof.Machine.execQload spec s
  | .dequant d b t => Sys2Proof.Machine.execDequant d b t s
  | .idct d b => Sys2Proof.Machine.execIdct d b s
  -- 44_fdct_quant
  | .qscale d b q => Sys2Proof.Machine.execQscale d b q s
  | .eqload b t => Sys2Proof.Machine.execEqload b t s
  | .fdctq d b t => Sys2Proof.Machine.execFdctq d b t s
  -- 45_zigzag
  | .zzfwd d b => Sys2Proof.Machine.execZzfwd d b s
  | .zzinv d b => Sys2Proof.Machine.execZzinv d b s

end Sys2Proof.Machine
end

