-- ==== Sys2Proof/Machine/HostAccess.lean ====
section
/-!
DEFINITION. The host window: the register map, the access classes, widths, alignment and byte order
(20_memory R62 to R72, 10_state R21 to R38, R46).
-/

namespace Sys2Proof.Machine

/-- The registers of 20_memory R64. -/
inductive Reg where
  | id
  | caps
  | ctrl
  | status
  | cmd
  | result
  | errcode
  | errinfo
  | errcmd
  | streamLen
  | brOffset
  | brState
  | tblptr
  | scancfg
  | eobrun
  | acstate
  | pred (i : Nat)
  | tvalid
  deriving DecidableEq, Repr

/-- R64, the register part of the map. -/
def regMap : List (Nat × Reg) :=
  [(0x000, .id), (0x004, .caps), (0x008, .ctrl), (0x00C, .status), (0x010, .cmd), (0x014, .result),
   (0x018, .errcode), (0x01C, .errinfo), (0x020, .errcmd), (0x024, .streamLen)] ++
  [(0x028, .brOffset), (0x02C, .brState), (0x030, .tblptr), (0x034, .scancfg), (0x038, .eobrun),
   (0x03C, .acstate), (0x040, .pred 0), (0x044, .pred 1), (0x048, .pred 2), (0x04C, .pred 3),
   (0x050, .tvalid)]

/-- `CTRL`'s, `STATUS`'s and `CMD`'s offsets (R64). -/
def ctrlOffset : Offset := 0x008
def statusOffset : Offset := 0x00C
def cmdOffset : Offset := 0x010

/-- What stands at an offset of the window (R64 to R66, R68). -/
inductive Place where
  | reg (r : Reg)
  | lane (b i : Nat)
  | quant (t i : Nat)
  | stream (o : Nat)
  | reserved
  deriving DecidableEq, Repr

/-- R64 to R66 for an offset that begins an access. -/
def placeAt (cap off : Nat) : Place :=
  if off < 0x800 then
    match regMap.lookup off with
    | some r => .reg r
    | none => .reserved
  else if off < 0x1000 then .lane ((off - 0x800) / 0x100) (off % 0x100 / 4)
  else if off < 0x1400 then .quant ((off - 0x1000) / 0x100) (off % 0x100 / 4)
  else if 0x100000 ≤ off ∧ off < 0x100000 + cap then .stream (off - 0x100000)
  else .reserved

/-! ## Registers (R46) -/

/-- `TVALID` (R38): reserved bits read 0. -/
def State.tvalidWord (s : State) : Word := s.tvalid.setWidth 32

/-- `BR_STATE` (R32). -/
def BitReader.stateWord (r : BitReader) : Word := (r.bcount ++ r.bdata).setWidth 32

/-- `SCANCFG` (R34). -/
def ScanCfg.word (c : ScanCfg) : Word :=
  c.ss.setWidth 32 ||| c.se.setWidth 32 <<< 8 ||| c.al.setWidth 32 <<< 16

/-- `ACSTATE` (R36). -/
def AcState.word (a : AcState) : Word := BitVec.ofNat 32 a.mode.code ||| flagBit a.nextNeg 8

/-- What a host read of a register returns (R21 to R38); a write-only register reads 0 (R46). -/
def Reg.read (s : State) : Reg → Word
  | .id => 0x4A504547
  | .caps => BitVec.ofNat 32 s.cfg.streamCap
  | .ctrl => 0
  | .status => s.status
  | .cmd => 0
  | .result => s.result
  | .errcode => s.errcode.setWidth 32
  | .errinfo => s.errinfo
  | .errcmd => s.errcmd
  | .streamLen => s.streamLen
  | .brOffset => s.br.offset
  | .brState => s.br.stateWord
  | .tblptr => s.tblptr
  | .scancfg => s.scan.word
  | .eobrun => s.eobrun
  | .acstate => s.ac.word
  | .pred i => s.predAt i
  | .tvalid => s.tvalidWord

/-- A write of `CTRL` (R23): with both bits 1 the error clear adds nothing to the soft reset. -/
def writeCtrl (v : Word) (s : State) : State :=
  if v.getLsbD 0 then softReset s else if v.getLsbD 1 then clearError s else s

/-- What a host write of a register does (R23 to R38, R46); `CMD` is not here, since a write of it issues a
command (Issue.lean). Reserved fields are not stored. -/
def Reg.write (v : Word) (s : State) : Reg → State
  | .ctrl => writeCtrl v s
  | .streamLen => { s with streamLen := BitVec.ofNat 32 (min v.toNat s.cfg.streamCap) }
  | .brOffset => { s with br := { s.br with offset := v } }
  | .brState => { s with br := ⟨s.br.offset, v.extractLsb' 0 8, v.extractLsb' 8 3⟩ }
  | .tblptr => { s with tblptr := v }
  | .scancfg => { s with scan := ⟨v.extractLsb' 0 6, v.extractLsb' 8 6, v.extractLsb' 16 4⟩ }
  | .eobrun => { s with eobrun := v }
  | .acstate => { s with ac := ⟨AcMode.ofCode (v.extractLsb' 0 3).toNat, v.getLsbD 8⟩ }
  | .pred i => s.setPred i v
  | .id => s
  | .caps => s
  | .status => s
  | .cmd => s
  | .result => s
  | .errcode => s
  | .errinfo => s
  | .errcmd => s
  | .tvalid => s

/-! ## Accesses (R65 to R71) -/

/-- A stream byte as the host sees it; at or beyond `STREAM_CAP` the aperture is reserved and reads 0
(R66, R68). -/
def hostByte (s : State) (o : Nat) : Byte := if o < s.cfg.streamCap then s.byteAt o else 0

/-- A host write of a stream byte; at or beyond `STREAM_CAP` it is ignored (R66, R68). -/
def setHostByte (s : State) (o : Nat) (v : Byte) : State := if o < s.cfg.streamCap then s.setByte o v else s

/-- A read of entry `i` of `QT[t]` in the window: unspecified while the table is invalid (R65, 93 U4). -/
def readQuant (s : State) (t i : Nat) : Word :=
  if s.valid (.quant t) then (nth (s.qt t) i).setWidth 32
  else Config.drawQuantRead (nth s.qtDraw t) t i

/-- A 32-bit read of the aperture: `Σ_j STREAM[o+j]·2^(8j)` (R71). -/
def readStream32 (s : State) (o : Nat) : Word :=
  hostByte s (o + 3) ++ hostByte s (o + 2) ++ hostByte s (o + 1) ++ hostByte s o

/-- A 32-bit write of the aperture: `STREAM[o+j] <- w[8j+7:8j]` (R71). -/
def writeStream32 (s : State) (o : Nat) (w : Word) : State :=
  setHostByte (setHostByte (setHostByte (setHostByte s o (w.extractLsb' 0 8)) (o + 1) (w.extractLsb' 8 8))
    (o + 2) (w.extractLsb' 16 8)) (o + 3) (w.extractLsb' 24 8)

/-- A 32-bit read: its value (R65 to R68, R71). -/
def read32 (s : State) (off : Nat) : Word :=
  if off % 4 ≠ 0 then 0
  else
    match placeAt s.cfg.streamCap off with
    | .reg r => r.read s
    | .lane b i => lane (s.buf b) i
    | .quant t i => readQuant s t i
    | .stream o => readStream32 s o
    | .reserved => 0

/-- A 32-bit write other than to `CMD` (R65 to R68, R71). -/
def write32 (s : State) (off : Nat) (v : Word) : State :=
  if off % 4 ≠ 0 then s
  else
    match placeAt s.cfg.streamCap off with
    | .reg r => r.write v s
    | .lane b i => s.setBuf b (setLane (s.buf b) i v)
    | .quant _ _ => s
    | .stream o => writeStream32 s o v
    | .reserved => s

/-- An 8-bit read: the aperture only; elsewhere it is non-conforming and returns 0 (R67). -/
def read8 (s : State) (off : Nat) : Byte :=
  match placeAt s.cfg.streamCap off with
  | .stream o => hostByte s o
  | .reg _ => 0
  | .lane _ _ => 0
  | .quant _ _ => 0
  | .reserved => 0

/-- An 8-bit write: the aperture only; elsewhere it is non-conforming and changes nothing (R67). -/
def write8 (s : State) (off : Nat) (v : Byte) : State :=
  match placeAt s.cfg.streamCap off with
  | .stream o => setHostByte s o v
  | .reg _ => s
  | .lane _ _ => s
  | .quant _ _ => s
  | .reserved => s

end Sys2Proof.Machine
end

