-- ==== Sys2Proof/Machine/Issue.lean ====
section
/-!
DEFINITION. Issuing a command (30_encoding R95), and one statement of the host (30 R97, 20 R61, R73, 70 R350).
-/

namespace Sys2Proof.Machine

/-- A write of `w` to `CMD` (R95): dropped while `ERR` = 1; `CommandOverrun` while `BUSY` = 1; `BadCommand` if
the word is no command; else the command runs, atomically (20 R61). -/
def issue (w : Word) (s : State) : Host.Outcome State Fault Refusal :=
  if s.err then .next s
  else if s.busy then .next (raiseAtDecode ⟨.commandOverrun, 0⟩ w s)
  else
    match decode w with
    | .ok i => exec i s
    | .error _ => .next (raiseAtDecode ⟨.badCommand, 0⟩ w s)

/-- The command in execution, if there is one, completes (20 R61). No step from an idle block leaves one. -/
def complete (s : State) : Host.Outcome State Fault Refusal :=
  match s.running with
  | some i => exec i { s with running := none }
  | none => .next s

/-- The host gets `v` back from a read. -/
def reply (v : Word) (s : State) : State := { s with replies := v :: s.replies }

/-- An access that 70 R350 gives a result only while `BUSY` = 0. -/
def whenIdle (s s' : State) : Host.Outcome State Fault Refusal :=
  if s.busy then .fault .hostAccessWhileBusy else .next s'

/-- One statement of the host, or the platform's reset. While `BUSY` = 1 only a read of `STATUS`, a write of
`CMD`, a write of `CTRL`, `WAIT` and the reset input have a meaning (R350, R302). `WAIT` reads `STATUS` until `BUSY` = 0,
and how often it reads is open; what these reads return is not listed in `replies` (DESIGN CHOICE,
notes/assumptions/11.md). -/
def runStmt (h : HostStmt) (s : State) : Host.Outcome State Fault Refusal :=
  match h with
  | .write32 off v =>
    if off = cmdOffset then issue v s
    else if off = ctrlOffset then .next (write32 s off.toNat v)
    else whenIdle s (write32 s off.toNat v)
  | .write8 off v => whenIdle s (write8 s off.toNat v)
  | .writeOther _ _ => whenIdle s s
  | .read32 off =>
    if off = statusOffset then .next (reply (read32 s off.toNat) s)
    else whenIdle s (reply (read32 s off.toNat) s)
  | .read8 off => whenIdle s (reply ((read8 s off.toNat).setWidth 32) s)
  | .readOther _ _ => whenIdle s (reply 0 s)
  | .wait => complete s
  | .resetInput => .next (hardwareReset s)

/-- One step: the host's next statement; with none left a command in execution completes, and an idle block
waits (70 R340). -/
def advance (s : State) : Host.Outcome State Fault Refusal :=
  match s.host with
  | [] => complete s
  | h :: rest => runStmt h { s with host := rest }

/-- `s` with a write of the word `w` to `CMD` as the host's next statement; bits from `nbits` on are 0. -/
def withCommand (s : State) (nbits w : Nat) : State :=
  { s with host := .write32 cmdOffset (BitVec.ofNat 32 (w % 2 ^ nbits)) :: s.host }

end Sys2Proof.Machine
end

