-- ==== Sys2Proof/Machine/Step.lean ====
section
/-!
DEFINITION. One step of the machine, and placing a command where the next step takes it (20_memory R61, R76).
-/

namespace Sys2Proof.Machine

/-- One host statement, as one atomic transition (20 R61, R73). -/
def step (s : State) : Host.Outcome State Fault Refusal := advance s

/-- `s` whose next step issues the command word `w`. -/
def State.withFetchWord (s : State) (nbits w : Nat) : State := withCommand s nbits w

end Sys2Proof.Machine
end

