-- ==== Sys2Proof/Safety.lean ====
section
/-!
DEFINITION. What claims speak of: the invariants of a run, the frame of a command, and the rules' own account of
reading bits, symbols and blocks as relations, without the recursion of the machine's functions.
-/

namespace Sys2Proof.Machine

/-! ## Invariants -/

/-- `BUSY` = 0: no command is in execution. With atomic commands it holds between any two steps (20 R61). -/
def State.Idle (s : State) : Prop := s.running = none

/-- Stream memory is in its canonical form and inside `STREAM_CAP`, and so is `STREAM_LEN` (10 R30, R43, 00 R6). -/
def State.StreamInv (s : State) : Prop :=
  s.cfg.legal = true ∧ s.streamLen.toNat ≤ s.cfg.streamCap ∧ Memory.wf s.stream = true ∧
    ∀ c ∈ s.stream, c.1 < s.cfg.streamCap

/-- The error registers are 0 without an error, and name one of the codes 1..11 with one (60 R300). -/
def State.ErrorInv (s : State) : Prop :=
  (s.err = false → s.errcode = 0 ∧ s.errinfo = 0 ∧ s.errcmd = 0) ∧
    (s.err = true → 1 ≤ s.errcode.toNat ∧ s.errcode.toNat ≤ 11)

/-- A valid Huffman table is one that a load builds (41 R140). -/
def State.HuffInv (s : State) : Prop :=
  ∀ c < 2, ∀ k < 4, s.valid (.huff c k) = true → (s.ht c k).wf = true

/-- A finite, positive binary64 value (44 R221). -/
def posFinite (x : F64) : Bool :=
  match unpack x with
  | .fin neg m _ => !neg && decide (m ≠ 0)
  | .inf _ => false
  | .nan => false

/-- Every entry of a valid encoder table is finite and positive (44 R221). -/
def State.RecipInv (s : State) : Prop :=
  ∀ t < 4, s.valid (.recip t) = true → ∀ k < 64, posFinite (nth (s.fq t) k) = true

/-- The draws in use are older than the next one, so that a new draw is unrelated to them
(notes/assumptions/4.md). -/
def State.DrawInv (s : State) : Prop := s.memDraw < s.draws ∧ ∀ t < 4, nth s.qtDraw t < s.draws

/-! ## Frames -/

/-- `t` is `s` outside the locations `ws`, the error registers and the number of the next draw
(60 R303 point 4). -/
structure FrameOutside (ws : List Loc) (s t : State) : Prop where
  cfg : t.cfg = s.cfg
  running : t.running = s.running
  streamLen : t.streamLen = s.streamLen
  scan : t.scan = s.scan
  stream : ∀ o, t.byteAt o = s.byteAt o
  cells : t.stream = s.stream
  memDraw : t.memDraw = s.memDraw
  host : t.host = s.host
  replies : t.replies = s.replies
  brOffset : .brOffset ∉ ws → t.br.offset = s.br.offset
  bdata : .bdata ∉ ws → t.br.bdata = s.br.bdata
  bcount : .bcount ∉ ws → t.br.bcount = s.br.bcount
  result : .result ∉ ws → t.result = s.result
  nobit : .nobit ∉ ws → t.nobit = s.nobit
  mstop : .mstop ∉ ws → t.mstop = s.mstop
  eobrun : .eobrun ∉ ws → t.eobrun = s.eobrun
  ac : .acstate ∉ ws → t.ac = s.ac
  tblptr : .tblptr ∉ ws → t.tblptr = s.tblptr
  pred : ∀ i < 4, .pred i ∉ ws → t.predAt i = s.predAt i
  lane : ∀ b < 8, ∀ i < 64, .buf b ∉ ws → (i = 0 → .lane0 b ∉ ws) → lane (t.buf b) i = lane (s.buf b) i
  quant : ∀ k < 4, .table (.quant k) ∉ ws → t.qt k = s.qt k ∧ nth t.qtDraw k = nth s.qtDraw k
  recip : ∀ k < 4, .table (.recip k) ∉ ws → t.fq k = s.fq k
  huff : ∀ c < 2, ∀ k < 4, .table (.huff c k) ∉ ws → t.ht c k = s.ht c k
  quantValid : ∀ k < 4, .valid (.quant k) ∉ ws → t.valid (.quant k) = s.valid (.quant k)
  recipValid : ∀ k < 4, .valid (.recip k) ∉ ws → t.valid (.recip k) = s.valid (.recip k)
  huffValid : ∀ c < 2, ∀ k < 4, .valid (.huff c k) ∉ ws → t.valid (.huff c k) = s.valid (.huff c k)

/-- As `FrameOutside`, and no error was recorded and no draw taken: what a command that succeeds leaves alone. -/
def CleanOutside (ws : List Loc) (s t : State) : Prop :=
  FrameOutside ws s t ∧ t.err = s.err ∧ t.errcode = s.errcode ∧ t.errinfo = s.errinfo ∧
    t.errcmd = s.errcmd ∧ t.draws = s.draws

/-- `t` is `s` but for buffer `d`; every other field, all of stream memory among them, is as in `s`. -/
def OnlyBuf (d : Nat) (s t : State) : Prop :=
  { t with bufs := s.bufs } = s ∧ ∀ b < 8, b ≠ d → t.buf b = s.buf b

/-- `t` is `s` with error `e` recorded for command word `w`, and nothing else changed (60 R303). -/
def withError (e : CmdError) (w : Word) (s : State) : State :=
  { s with err := true, errcode := e.kind.code, errinfo := e.info, errcmd := w }

/-- The registers at their reset values (10 R45). -/
def RegistersReset (s : State) : Prop :=
  s.status = 0 ∧ s.running = none ∧ s.err = false ∧ s.nobit = false ∧ s.mstop = false ∧ s.result = 0 ∧
    s.errcode = 0 ∧ s.errinfo = 0 ∧ s.errcmd = 0 ∧ s.streamLen = 0 ∧ s.br = ⟨0, 0, 0⟩ ∧ s.tblptr = 0 ∧
    s.scan = ⟨0, 0, 0⟩ ∧ s.eobrun = 0 ∧ s.ac = ⟨.initial, false⟩ ∧ (∀ i < 4, s.predAt i = 0) ∧ s.tvalid = 0

/-- Command `i` failed in execution with `e`: the error is recorded for its word, and nothing changed outside its
write set, which holds unspecified values (60 R303). -/
def FailsWith (i : Instr) (e : CmdError) (s t : State) : Prop :=
  t.err = true ∧ t.errcode = e.kind.code ∧ t.errinfo = e.info ∧ t.errcmd = encode i ∧
    FrameOutside (writeSet i) s t

/-! ## Reading bits and symbols, as relations -/

/-- `BitsRead src r bs r'`: from bit reader `r`, successive `FetchBit`s return the bits `bs` and leave `r'`
(40 R120). -/
inductive BitsRead (src : Source) : BitReader → List Bool → BitReader → Prop where
  | nil (r : BitReader) : BitsRead src r [] r
  | cons {r r1 r' : BitReader} {b : Bool} {bs : List Bool} (first : fetchBit src r = .bit b r1)
      (rest : BitsRead src r1 bs r') : BitsRead src r (b :: bs) r'

/-- The number whose bits, most significant first, are `bs` (40 R122). -/
def bitsValue (bs : List Bool) : Nat := bs.foldl (fun v b => 2 * v + b.toNat) 0

/-- `RECV(n)` returns `v` (40 R122). -/
def NumberRead (src : Source) (n : Nat) (r : BitReader) (v : Nat) (r' : BitReader) : Prop :=
  ∃ bs, bs.length = n ∧ BitsRead src r bs r' ∧ v = bitsValue bs

/-- `Extend(n)` returns `x` (40 R123). -/
def MagnitudeRead (src : Source) (n : Nat) (r : BitReader) (x : Int) (r' : BitReader) : Prop :=
  ∃ v, NumberRead src n r v r' ∧
    x = if n = 0 then 0 else if v < 2 ^ (n - 1) then (v : Int) - 2 ^ n + 1 else v

/-- `HuffDecode` returns `v`: the bits read form its code, and no shorter run of them forms a code (41 R141). -/
def SymbolRead (src : Source) (map : List HuffCode) (r : BitReader) (v : Byte) (r' : BitReader) : Prop :=
  ∃ bs, 1 ≤ bs.length ∧ bs.length ≤ 16 ∧ BitsRead src r bs r' ∧
    ⟨bs.length, bitsValue bs, v⟩ ∈ map ∧
    ∀ n v', 1 ≤ n → n < bs.length → ⟨n, bitsValue (bs.take n), v'⟩ ∉ map

/-- `Bit()` raises `e`: the fetch raises it, or meets an RSTn and `e` is `InvalidHuffmanSequence(BR_OFFSET)`
(40 R120, R126). -/
def BitFails (src : Source) (r : BitReader) (e : CmdError) : Prop :=
  fetchBit src r = .raised e ∨ ∃ m, fetchBit src r = .noBit m ∧ e = ⟨.invalidHuffmanSequence, r.offset⟩

/-- The bit reader cannot give `n` bits from `r`: after fewer than `n` of them `Bit()` raises `e` (40 R122). -/
def BitsFail (src : Source) (n : Nat) (r : BitReader) (e : CmdError) : Prop :=
  ∃ bs r', bs.length < n ∧ BitsRead src r bs r' ∧ BitFails src r' e

/-- `HuffDecode` raises `e`: the bits read hold no code, and the next one cannot be read, or they are 16, the number
that pseudocode R141 reads (41 R143 allows fewer; notes/assumptions/12.md). -/
def SymbolFails (src : Source) (map : List HuffCode) (r : BitReader) (e : CmdError) : Prop :=
  ∃ bs r', bs.length ≤ 16 ∧ BitsRead src r bs r' ∧
    (∀ n v, 1 ≤ n → n ≤ bs.length → ⟨n, bitsValue (bs.take n), v⟩ ∉ map) ∧
    if bs.length < 16 then BitFails src r' e else e = ⟨.invalidHuffmanSequence, r'.offset⟩

/-! ## Decoding blocks, as relations -/

/-- The DC part of a block: the symbol `t ≤ 16`, then `Extend(t)` (42 R161, R162). -/
def DcRead (src : Source) (map : List HuffCode) (r : BitReader) (x : Int) (r' : BitReader) : Prop :=
  ∃ (t : Byte) (r1 : BitReader), SymbolRead src map r t r1 ∧ t.toNat ≤ 16 ∧ MagnitudeRead src t.toNat r1 x r'

/-- The DC part raises `e`: no symbol, a category above 16, or too few bits for its value (42 R161, R162). -/
def DcFails (src : Source) (map : List HuffCode) (r : BitReader) (e : CmdError) : Prop :=
  SymbolFails src map r e ∨ ∃ (t : Byte) (r1 : BitReader), SymbolRead src map r t r1 ∧
    if t.toNat ≤ 16 then BitsFail src t.toNat r1 e else e = ⟨.invalidHuffmanSequence, r1.offset⟩

/-- The loop of pseudocode R161 from position `k`, block `blk` and bit reader `r` ends: with a block and a bit
reader, or with the error that it raises. -/
inductive BaseRun (src : Source) (map : List HuffCode) :
    Nat → Block → BitReader → Except CmdError (Block × BitReader) → Prop where
  | done {k blk r} (past : 64 ≤ k) : BaseRun src map k blk r (.ok (blk, r))
  | eob {k blk r rs r1} (inside : k < 64) (sym : SymbolRead src map r rs r1) (hs : symS rs = 0)
      (hr : symR rs < 15) : BaseRun src map k blk r (.ok (blk, r1))
  | zrl {k blk r rs r1 o} (inside : k < 64) (sym : SymbolRead src map r rs r1) (hs : symS rs = 0)
      (hr : ¬ symR rs < 15) (rest : BaseRun src map (k + 16) blk r1 o) : BaseRun src map k blk r o
  | coef {k blk r rs r1 x r2 o} (inside : k < 64) (sym : SymbolRead src map r rs r1) (hs : symS rs ≠ 0)
      (val : MagnitudeRead src (symS rs) r1 x r2)
      (rest : BaseRun src map (k + symR rs + 1)
        (if k + symR rs ≤ 63 then setLane blk (zz (k + symR rs)) (toWord x) else blk) r2 o) :
      BaseRun src map k blk r o
  | symFails {k blk r e} (inside : k < 64) (sym : SymbolFails src map r e) : BaseRun src map k blk r (.error e)
  | valFails {k blk r rs r1 e} (inside : k < 64) (sym : SymbolRead src map r rs r1) (hs : symS rs ≠ 0)
      (val : BitsFail src (symS rs) r1 e) : BaseRun src map k blk r (.error e)

/-- The loop of pseudocode R164 from position `k`, with `EOBRUN` carried along, ends: with a block, `EOBRUN` and a bit
reader, or with the error that it raises. -/
inductive FirstRun (src : Source) (map : List HuffCode) (al e : Nat) :
    Nat → Block → Word → BitReader → Except CmdError (Block × Word × BitReader) → Prop where
  | done {k blk eob r} (past : e < k) : FirstRun src map al e k blk eob r (.ok (blk, eob, r))
  | eobRun {k blk eob r rs r1 v r2} (inside : k ≤ e) (sym : SymbolRead src map r rs r1) (hs : symS rs = 0)
      (hr : symR rs < 15) (bits : NumberRead src (symR rs) r1 v r2) :
      FirstRun src map al e k blk eob r (.ok (blk, toWord (wrap32 (2 ^ symR rs + v - 1)), r2))
  | zrl {k blk eob r rs r1 o} (inside : k ≤ e) (sym : SymbolRead src map r rs r1) (hs : symS rs = 0)
      (hr : ¬ symR rs < 15) (rest : FirstRun src map al e (k + 16) blk eob r1 o) :
      FirstRun src map al e k blk eob r o
  | coef {k blk eob r rs r1 x r2 o} (inside : k ≤ e) (sym : SymbolRead src map r rs r1)
      (hs : symS rs ≠ 0) (val : MagnitudeRead src (symS rs) r1 x r2)
      (rest : FirstRun src map al e (k + symR rs + 1)
        (if k + symR rs ≤ 63 then setLane blk (zz (k + symR rs)) (toWord (shl32 x al)) else blk) eob r2 o) :
      FirstRun src map al e k blk eob r o
  | symFails {k blk eob r x} (inside : k ≤ e) (sym : SymbolFails src map r x) :
      FirstRun src map al e k blk eob r (.error x)
  | runFails {k blk eob r rs r1 x} (inside : k ≤ e) (sym : SymbolRead src map r rs r1) (hs : symS rs = 0)
      (hr : symR rs < 15) (bits : BitsFail src (symR rs) r1 x) : FirstRun src map al e k blk eob r (.error x)
  | valFails {k blk eob r rs r1 x} (inside : k ≤ e) (sym : SymbolRead src map r rs r1) (hs : symS rs ≠ 0)
      (val : BitsFail src (symS rs) r1 x) : FirstRun src map al e k blk eob r (.error x)

/-- The loop of pseudocode R165 from position `k` and loop state `a` ends: with a loop state, or with the error that
it raises. In `INITIAL` a pass does not advance `k`. -/
inductive SuccRun (src : Source) (map : List HuffCode) (al e : Nat) : Nat → AcRun → Except CmdError AcRun → Prop where
  | done {k a} (past : e < k) : SuccRun src map al e k a (.ok a)
  | eobSym {k a rs r1 v r2 o} (inside : k ≤ e) (mode : a.ac.mode = .initial)
      (sym : SymbolRead src map a.br rs r1) (hs : symS rs = 0) (hr : symR rs < 15)
      (bits : NumberRead src (symR rs) r1 v r2)
      (rest : SuccRun src map al e k
        { a with eob := toWord (wrap32 (v + 2 ^ symR rs)), ac := ⟨.eob, a.ac.nextNeg⟩, run := symR rs, br := r2 } o) :
      SuccRun src map al e k a o
  | zrlSym {k a rs r1 o} (inside : k ≤ e) (mode : a.ac.mode = .initial)
      (sym : SymbolRead src map a.br rs r1) (hs : symS rs = 0) (hr : ¬ symR rs < 15)
      (rest : SuccRun src map al e k { a with ac := ⟨.skipZrl, a.ac.nextNeg⟩, run := 16, br := r1 } o) :
      SuccRun src map al e k a o
  | valueSym {k a rs r1 b r2 o} (inside : k ≤ e) (mode : a.ac.mode = .initial)
      (sym : SymbolRead src map a.br rs r1) (hs : symS rs = 1) (bit : fetchBit src r1 = .bit b r2)
      (rest : SuccRun src map al e k
        { a with ac := ⟨if symR rs > 0 then .skipPlace else .placing, b = false⟩, run := symR rs, br := r2 } o) :
      SuccRun src map al e k a o
  | refineLane {k a b r1 o} (inside : k ≤ e) (mode : a.ac.mode ≠ .initial) (nonzero : lane a.blk (zz k) ≠ 0)
      (bit : fetchBit src a.br = .bit b r1)
      (rest : SuccRun src map al e (k + 1)
        { a with
          blk := setLane a.blk (zz k) (toWord (wrap32 (signed (lane a.blk (zz k)) +
            (if signed (lane a.blk (zz k)) < 0 then -1 else 1) * b.toNat * 2 ^ al))),
          br := r1 } o) :
      SuccRun src map al e k a o
  | skipLane {k a o} (inside : k ≤ e) (mode : a.ac.mode = .skipZrl ∨ a.ac.mode = .skipPlace)
      (zero : lane a.blk (zz k) = 0)
      (rest : SuccRun src map al e (k + 1)
        { a with
          run := a.run - 1,
          ac := ⟨if a.run - 1 = 0 then (if a.ac.mode = .skipPlace then .placing else .initial) else a.ac.mode,
            a.ac.nextNeg⟩ } o) :
      SuccRun src map al e k a o
  | placeLane {k a o} (inside : k ≤ e) (mode : a.ac.mode = .placing) (zero : lane a.blk (zz k) = 0)
      (rest : SuccRun src map al e (k + 1)
        { a with
          blk := setLane a.blk (zz k) (toWord (shl32 (if a.ac.nextNeg then -1 else 1) al)),
          ac := ⟨.initial, a.ac.nextNeg⟩ } o) :
      SuccRun src map al e k a o
  | eobLane {k a o} (inside : k ≤ e) (mode : a.ac.mode = .eob) (zero : lane a.blk (zz k) = 0)
      (rest : SuccRun src map al e (k + 1) a o) : SuccRun src map al e k a o
  | symFails {k a x} (inside : k ≤ e) (mode : a.ac.mode = .initial) (sym : SymbolFails src map a.br x) :
      SuccRun src map al e k a (.error x)
  | runFails {k a rs r1 x} (inside : k ≤ e) (mode : a.ac.mode = .initial) (sym : SymbolRead src map a.br rs r1)
      (hs : symS rs = 0) (hr : symR rs < 15) (bits : BitsFail src (symR rs) r1 x) :
      SuccRun src map al e k a (.error x)
  | badSym {k a rs r1} (inside : k ≤ e) (mode : a.ac.mode = .initial) (sym : SymbolRead src map a.br rs r1)
      (hs : symS rs ≠ 0 ∧ symS rs ≠ 1) : SuccRun src map al e k a (.error ⟨.invalidAcEncoding, rs.setWidth 32⟩)
  | valueFails {k a rs r1 x} (inside : k ≤ e) (mode : a.ac.mode = .initial) (sym : SymbolRead src map a.br rs r1)
      (hs : symS rs = 1) (bit : BitFails src r1 x) : SuccRun src map al e k a (.error x)
  | refineFails {k a x} (inside : k ≤ e) (mode : a.ac.mode ≠ .initial) (nonzero : lane a.blk (zz k) ≠ 0)
      (bit : BitFails src a.br x) : SuccRun src map al e k a (.error x)

/-! ## The one-dimensional passes, line by line -/

/-- Pseudocode R194, each assignment in its order (43 R193, R194). -/
def idctRule (p : Oct Int) (rnd4 : Int) (s4 sh : Nat) (fr : Int) (fs : Nat) : Oct Int :=
  let ⟨p0, p1, p2, p3, p4, p5, p6, p7⟩ := p
  if p1 = 0 ∧ p2 = 0 ∧ p3 = 0 ∧ p4 = 0 ∧ p5 = 0 ∧ p6 = 0 ∧ p7 = 0 then
    let t := sra (wrap32 (5793 * p0 + fr)) fs
    ⟨t, t, t, t, t, t, t, t⟩
  else
    -- stage 4
    let v0 := sra (wrap32 (5793 * p0 + rnd4)) s4
    let v1 := sra (wrap32 (5793 * p4 + rnd4)) s4
    let v2 := p2
    let v3 := p6
    let v4 := sra (wrap32 (2896 * (p1 - p7) + rnd4)) s4
    let v7 := sra (wrap32 (2896 * (p1 + p7) + rnd4)) s4
    let v5 := shl32 p3 sh
    let v6 := shl32 p5 sh
    -- stage 3
    let t := sra (wrap32 (v0 - v1 + 1)) 1
    let v0 := sra (wrap32 (v0 + v1 + 1)) 1
    let v1 := t
    let t := sra (wrap32 (v2 * 3784 + v3 * 1567 + rnd4)) s4
    let v2 := sra (wrap32 (v2 * 1567 - v3 * 3784 + rnd4)) s4
    let v3 := t
    let t := sra (wrap32 (v4 - v6 + 1)) 1
    let v4 := sra (wrap32 (v4 + v6 + 1)) 1
    let v6 := t
    let t := sra (wrap32 (v7 + v5 + 1)) 1
    let v5 := sra (wrap32 (v7 - v5 + 1)) 1
    let v7 := t
    -- stage 2
    let t := sra (wrap32 (v0 - v3 + 1)) 1
    let v0 := sra (wrap32 (v0 + v3 + 1)) 1
    let v3 := t
    let t := sra (wrap32 (v1 - v2 + 1)) 1
    let v1 := sra (wrap32 (v1 + v2 + 1)) 1
    let v2 := t
    let t := sra (wrap32 (v4 * 2276 + v7 * 3406 + 2048)) 12
    let v4 := sra (wrap32 (v4 * 3406 - v7 * 2276 + 2048)) 12
    let v7 := t
    let t := sra (wrap32 (v5 * 799 + v6 * 4017 + 2048)) 12
    let v5 := sra (wrap32 (v5 * 4017 - v6 * 799 + 2048)) 12
    let v6 := t
    -- stage 1
    ⟨wrap32 (v0 + v7), wrap32 (v1 + v6), wrap32 (v2 + v5), wrap32 (v3 + v4),
     wrap32 (v3 - v4), wrap32 (v2 - v5), wrap32 (v1 - v6), wrap32 (v0 - v7)⟩

/-- Pseudocode R224, each assignment in its order (44 R224; `f64Lit n` is the literal `n / 10^9`). -/
def fdctRule (d : Oct F64) : Oct F64 :=
  let ⟨d0, d1, d2, d3, d4, d5, d6, d7⟩ := d
  let tmp0 := f64Add d0 d7
  let tmp7 := f64Sub d0 d7
  let tmp1 := f64Add d1 d6
  let tmp6 := f64Sub d1 d6
  let tmp2 := f64Add d2 d5
  let tmp5 := f64Sub d2 d5
  let tmp3 := f64Add d3 d4
  let tmp4 := f64Sub d3 d4
  -- even part
  let tmp10 := f64Add tmp0 tmp3
  let tmp13 := f64Sub tmp0 tmp3
  let tmp11 := f64Add tmp1 tmp2
  let tmp12 := f64Sub tmp1 tmp2
  let o0 := f64Add tmp10 tmp11
  let o4 := f64Sub tmp10 tmp11
  let z1 := f64Mul (f64Add tmp12 tmp13) (f64Lit 707106781)
  let o2 := f64Add tmp13 z1
  let o6 := f64Sub tmp13 z1
  -- odd part
  let tmp10 := f64Add tmp4 tmp5
  let tmp11 := f64Add tmp5 tmp6
  let tmp12 := f64Add tmp6 tmp7
  let z5 := f64Mul (f64Sub tmp10 tmp12) (f64Lit 382683433)
  let z2 := f64Add (f64Mul (f64Lit 541196100) tmp10) z5
  let z4 := f64Add (f64Mul (f64Lit 1306562965) tmp12) z5
  let z3 := f64Mul tmp11 (f64Lit 707106781)
  let z11 := f64Add tmp7 z3
  let z13 := f64Sub tmp7 z3
  let o5 := f64Add z13 z2
  let o3 := f64Sub z13 z2
  let o1 := f64Add z11 z4
  let o7 := f64Sub z11 z4
  ⟨o0, o1, o2, o3, o4, o5, o6, o7⟩

/-! ## Binary64 values -/

/-- The rational value of a finite binary64 pattern. -/
def f64Value (x : F64) : Option ℚ :=
  match unpack x with
  | .fin neg m e => some ((if neg then -(m : ℚ) else m) * (2 : ℚ) ^ e)
  | .inf _ => none
  | .nan => none

/-- The largest finite binary64 value. -/
def f64Max : ℚ := (2 ^ 53 - 1) * 2 ^ 971

/-- Where `r` is finite, it is a binary64 value nearest to `q`, and if another is as near, `r` is the one with an even
significand (00 R9: "rounded to nearest, ties to even"). -/
def NearestEven (q : ℚ) (r : F64) : Prop :=
  ∀ x, f64Value r = some x → ∀ (y : F64) (z : ℚ), f64Value y = some z →
    |x - q| ≤ |z - q| ∧ (|x - q| = |z - q| → z = x ∨ r.getLsbD 0 = false)

/-- `r` is `q` rounded to binary64, to nearest, ties to even; it is finite where `q` is in the finite range (00 R9). -/
def Rounded (q : ℚ) (r : F64) : Prop := (|q| ≤ f64Max → ∃ x, f64Value r = some x) ∧ NearestEven q r

end Sys2Proof.Machine
end

