-- ==== Sys2Proof/Certificates/Slice0/Obligations.lean ====
section
/-!
DEFINITION. The statements for the provers. Each docstring names the rules of spec/ it formalises; a clause that
rests on a choice of the model names its log entry.
-/

open Sys2Proof Sys2Proof.Machine

/-! ## Encoding (30_encoding) -/

/-- R90, R92, R93: no bit of an encoding is dropped, for every command and every operand value it admits. -/
def Obligations.EncodeThenDecode : Prop :=
  ∀ i : Instr, i.wellFormed = true → decode (encode i) = .ok i

/-- R92: every command word has one meaning; the decoder accepts no word with a bit outside the encoding. -/
def Obligations.DecodeThenEncode : Prop :=
  ∀ (w : Word) (i : Instr), decode w = .ok i → i.wellFormed = true ∧ encode i = w

/-- R93: one command word of each family, written out from the table, decodes to its command. -/
def Obligations.WrittenWordsDecode : Prop :=
  decode 0x00000000 = .ok .nop ∧ decode 0x02100000 = .ok (.copy 1 0) ∧ decode 0x11000010 = .ok (.receive 16) ∧
    decode 0x20000010 = .ok (.htload 0x10) ∧ decode 0x21000013 = .ok (.hdec 1 3) ∧
    decode 0x30701203 = .ok (.decbase 7 1 2 3) ∧ decode 0x41123000 = .ok (.dequant 1 2 3) ∧
    decode 0x50100032 = .ok (.qscale 1 0 50) ∧ decode 0x60430000 = .ok (.zzfwd 4 3)

/-! ## Issuing a command, and errors (30_encoding R95, 60_exceptions) -/

/-- 20 R61, 30 R95 step 5: with no error pending and the block idle, a write to `CMD` of a word that decodes runs
that command at once, on the state with the write taken from the host's statements. The host list is the
model's own (notes/assumptions/1.md). -/
def Obligations.StepRunsDecodedCommand : Prop :=
  ∀ (s : State) (w : Word) (i : Instr) (rest : List HostStmt),
    s.host = .write32 0x010 w :: rest → s.err = false → s.running = none → decode w = .ok i →
      step s = exec i { s with host := rest }

/-- R302: a `CMD` write while `ERR` = 1 has no effect; one while `BUSY` = 1 records `CommandOverrun` and does not
disturb the running command. -/
def Obligations.CommandDroppedWhileErrorOrBusy : Prop :=
  ∀ (s : State) (w : Word) (rest : List HostStmt), s.host = .write32 0x010 w :: rest →
    (s.err = true → step s = .next { s with host := rest }) ∧
    (s.err = false → s.running ≠ none →
      step s = .next (withError ⟨.commandOverrun, 0⟩ w { s with host := rest }))

/-- 30 R92 to R95 step 3: every word that is the encoding of no command with operands in range raises
`BadCommand` with `ERRINFO` 0, and changes only the error registers. -/
def Obligations.OtherWordsAreBadCommands : Prop :=
  ∀ (s : State) (w : Word) (rest : List HostStmt),
    s.host = .write32 0x010 w :: rest → s.err = false → s.running = none →
      (¬ ∃ i : Instr, i.wellFormed = true ∧ encode i = w) →
        step s = .next { s with host := rest, err := true, errcode := 1, errinfo := 0, errcmd := w }

/-- 30 R95 steps 3 and 4, 60 R300, R307: which decode error each command raises. The first missing table in the
order DC, AC, dequantization, encoder is reported; `ERRINFO` is `16·class + slot`, `0x100 + slot` or
`0x200 + slot`; only the error registers change. -/
def Obligations.MissingTableReported : Prop :=
  ∀ (s : State), s.err = false →
    (∀ c k : Nib, c.toNat ≤ 1 → k.toNat ≤ 3 → s.valid (.huff c.toNat k.toNat) = false →
      exec (.hdec c k) s
        = .next (withError ⟨.tableUndefined, BitVec.ofNat 32 (16 * c.toNat + k.toNat)⟩ (encode (.hdec c k)) s)) ∧
    (∀ (d t u : Nib) (p : Byte), d.toNat ≤ 7 → t.toNat ≤ 3 → u.toNat ≤ 3 → p.toNat ≤ 3 →
      (s.valid (.huff 0 t.toNat) = false → exec (.decbase d t u p) s
        = .next (withError ⟨.tableUndefined, BitVec.ofNat 32 t.toNat⟩ (encode (.decbase d t u p)) s)) ∧
      (s.valid (.huff 0 t.toNat) = true → s.valid (.huff 1 u.toNat) = false → exec (.decbase d t u p) s
        = .next (withError ⟨.tableUndefined, BitVec.ofNat 32 (16 + u.toNat)⟩ (encode (.decbase d t u p)) s)) ∧
      (s.valid (.huff 0 t.toNat) = false → exec (.dcfirst d t p) s
        = .next (withError ⟨.tableUndefined, BitVec.ofNat 32 t.toNat⟩ (encode (.dcfirst d t p)) s)) ∧
      (s.valid (.huff 1 u.toNat) = false → exec (.acfirst d u) s
        = .next (withError ⟨.tableUndefined, BitVec.ofNat 32 (16 + u.toNat)⟩ (encode (.acfirst d u)) s)) ∧
      (s.valid (.huff 1 u.toNat) = false → exec (.acsucc d u) s
        = .next (withError ⟨.tableUndefined, BitVec.ofNat 32 (16 + u.toNat)⟩ (encode (.acsucc d u)) s))) ∧
    (∀ d b t : Nib, d.toNat ≤ 7 → b.toNat ≤ 7 → t.toNat ≤ 3 →
      (s.valid (.quant t.toNat) = false → exec (.dequant d b t) s
        = .next (withError ⟨.tableUndefined, BitVec.ofNat 32 (0x100 + t.toNat)⟩ (encode (.dequant d b t)) s)) ∧
      (s.valid (.recip t.toNat) = false → exec (.fdctq d b t) s
        = .next (withError ⟨.tableUndefined, BitVec.ofNat 32 (0x200 + t.toNat)⟩ (encode (.fdctq d b t)) s)))

/-- 60 R303 point 4, R304, R27: whatever command runs, and however it ends, nothing outside its "registers
written" changes, every byte of stream memory among it; and the error registers either stay, or record an error
of that very command where none was pending. That a load whose spec byte names no legal slot has `TBLPTR` alone as its
write set is the model's reading (notes/assumptions/21.md). -/
def Obligations.CommandsKeepStateOutsideWriteSet : Prop :=
  ∀ (i : Instr) (s t : State), exec i s = .next t →
    FrameOutside (writeSet i) s t ∧
      ((t.err = s.err ∧ t.errcode = s.errcode ∧ t.errinfo = s.errinfo ∧ t.errcmd = s.errcmd) ∨
        (s.err = false ∧ t.err = true ∧ t.errcmd = encode i ∧ 1 ≤ t.errcode.toNat ∧ t.errcode.toNat ≤ 11))

/-- 00 R10, 10 R30: a command sees stream memory only below `STREAM_LEN`. Two runs that differ only in bytes at or
beyond it end alike, and leave those bytes as they were. That a failing command leaves the same unspecified values in
both is the model's choice (notes/assumptions/4.md). -/
def Obligations.CommandsDoNotSeeBeyondStreamLength : Prop :=
  ∀ (i : Instr) (s t : State) (m : List Host.Cell),
    (∀ o < s.streamLen.toNat, ({ s with stream := m } : State).byteAt o = s.byteAt o) →
      exec i s = .next t → exec i { s with stream := m } = .next { t with stream := m }

/-- R305: a write of `CTRL` with `ERRCLR` = 1 clears the error registers and nothing else (with `SRESET` = 1 it is a
soft reset, 10 R23); a soft reset clears the error too. -/
def Obligations.ErrorClearClearsErrorOnly : Prop :=
  ∀ (s : State) (v : Word) (rest : List HostStmt), s.host = .write32 0x008 v :: rest →
    (v.getLsbD 0 = false → v.getLsbD 1 = true →
      step s = .next { s with host := rest, err := false, errcode := 0, errinfo := 0, errcmd := 0 }) ∧
    (v.getLsbD 0 = true → ∃ t, step s = .next t ∧ t.err = false ∧ t.errcode = 0 ∧ t.errinfo = 0 ∧ t.errcmd = 0)

/-- 70 R341, 10 R45: soft reset. The registers take their reset values; the memories are unchanged, but for the
write set of a command that it abandons. That the host's list and what the host has read stay, and that a register in
the write set of an abandoned command takes its reset value, are the model's choices (notes/assumptions/16.md and
25.md). -/
def Obligations.SoftResetKeepsMemories : Prop :=
  ∀ (s : State) (v : Word) (rest : List HostStmt), s.host = .write32 0x008 v :: rest → v.getLsbD 0 = true →
    ∃ t, step s = .next t ∧ RegistersReset t ∧ t.stream = s.stream ∧ t.memDraw = s.memDraw ∧ t.cfg = s.cfg ∧
      t.host = rest ∧ t.replies = s.replies ∧
      (s.running = none → t.bufs = s.bufs ∧ t.qts = s.qts ∧ t.fqs = s.fqs ∧ t.hts = s.hts) ∧
      (∀ i, s.running = some i →
        (∀ b < 8, ∀ l < 64, .buf b ∉ writeSet i → (l = 0 → .lane0 b ∉ writeSet i) →
          lane (t.buf b) l = lane (s.buf b) l) ∧
        (∀ k < 4, .table (.quant k) ∉ writeSet i → t.qt k = s.qt k) ∧
        (∀ k < 4, .table (.recip k) ∉ writeSet i → t.fq k = s.fq k) ∧
        (∀ c < 2, ∀ k < 4, .table (.huff c k) ∉ writeSet i → t.ht c k = s.ht c k))

/-- 10 R45, 70 R340: the registers after hardware reset, at State.reset and after the reset input. -/
def Obligations.HardwareResetSetsRegisters : Prop :=
  RegistersReset State.reset ∧ State.reset.stream = [] ∧
    ∀ (s : State) (rest : List HostStmt), s.host = .resetInput :: rest →
      ∃ t, step s = .next t ∧ RegistersReset t ∧ t.stream = [] ∧ t.cfg = s.cfg

/-! ## Invariants -/

/-- 10 R30, R43, 00 R6: every step keeps stream memory and `STREAM_LEN` inside `STREAM_CAP`. The canonical form of the
list of written bytes, strictly rising addresses, is the model's own (notes/assumptions/6.md). -/
def Obligations.StepKeepsStreamInv : Prop :=
  ∀ s t : State, s.StreamInv → step s = .next t → t.StreamInv

/-- 60 R300, R305: every step keeps the error registers 0 without an error and a code 1..11 with one. -/
def Obligations.StepKeepsErrorInv : Prop :=
  ∀ s t : State, s.ErrorInv → step s = .next t → t.ErrorInv

/-- 41 R140, 10 R38: every step keeps every valid Huffman table one that a successful load builds. -/
def Obligations.StepKeepsHuffInv : Prop :=
  ∀ s t : State, s.HuffInv → step s = .next t → t.HuffInv

/-- 44 R221: every step keeps the entries of every valid encoder table finite and positive. -/
def Obligations.StepKeepsRecipInv : Prop :=
  ∀ s t : State, s.RecipInv → step s = .next t → t.RecipInv

/-- 20 R61, R67, 70 R354: from an idle block every step, whatever the host does, completes and leaves the block
idle: no access traps and every command ends. -/
def Obligations.IdleStepsCompleteIdle : Prop :=
  ∀ s : State, s.running = none → ∃ t, step s = .next t ∧ t.running = none

/-- The draws in use stay older than the next one, so that a new unspecified value is unrelated to every one in
use. The draws are the model's form of the spec's unspecified values (notes/assumptions/4.md). -/
def Obligations.StepKeepsDrawInv : Prop :=
  ∀ s t : State, s.DrawInv → step s = .next t → t.DrawInv

/-- The invariants above hold at reset. The defaults of the parameters are 00 R6's; the draw numbers are the
model's (notes/assumptions/4.md). -/
def Obligations.ResetMeetsInvariants : Prop :=
  State.reset.StreamInv ∧ State.reset.ErrorInv ∧ State.reset.HuffInv ∧ State.reset.RecipInv ∧
    State.reset.DrawInv ∧ State.reset.running = none

/-! ## The host window (20_memory) -/

/-- 10 R21, R22, and R24, R26 to R29, R38, R46: on an idle block a read of `ID` returns `0x4A504547`, one of `CAPS`
`STREAM_CAP`, one of another read-only register its value, and one of `CTRL` or `CMD` 0; a write to a read-only
register is ignored. The bits of `STATUS` and `TVALID` are those of R24 and R38. -/
def Obligations.ReadOnlyRegistersReadAndIgnoreWrites : Prop :=
  ∀ (s : State) (rest : List HostStmt), s.running = none →
    (s.host = .read32 0x000 :: rest →
      step s = .next { s with host := rest, replies := 0x4A504547 :: s.replies }) ∧
    (s.host = .read32 0x004 :: rest →
      step s = .next { s with host := rest, replies := BitVec.ofNat 32 s.cfg.streamCap :: s.replies }) ∧
    (s.host = .read32 0x00C :: rest → step s = .next { s with host := rest, replies := s.status :: s.replies }) ∧
    (s.host = .read32 0x014 :: rest → step s = .next { s with host := rest, replies := s.result :: s.replies }) ∧
    (s.host = .read32 0x018 :: rest →
      step s = .next { s with host := rest, replies := s.errcode.setWidth 32 :: s.replies }) ∧
    (s.host = .read32 0x01C :: rest → step s = .next { s with host := rest, replies := s.errinfo :: s.replies }) ∧
    (s.host = .read32 0x020 :: rest → step s = .next { s with host := rest, replies := s.errcmd :: s.replies }) ∧
    (s.host = .read32 0x050 :: rest →
      step s = .next { s with host := rest, replies := s.tvalid.setWidth 32 :: s.replies }) ∧
    (∀ off : Offset, off = 0x008 ∨ off = 0x010 → s.host = .read32 off :: rest →
      step s = .next { s with host := rest, replies := 0 :: s.replies }) ∧
    (∀ (off : Offset) (v : Word), off ∈ ([0x000, 0x004, 0x00C, 0x014, 0x018, 0x01C, 0x020, 0x050] : List Offset) →
      s.host = .write32 off v :: rest → step s = .next { s with host := rest }) ∧
    (s.status.getLsbD 0 = false ∧ s.status.getLsbD 1 = s.err ∧ s.status.getLsbD 2 = s.nobit ∧
      s.status.getLsbD 3 = s.mstop ∧ ∀ j, 4 ≤ j → s.status.getLsbD j = false) ∧
    ∀ t < 4, s.tvalid.getLsbD t = s.valid (.quant t) ∧ s.tvalid.getLsbD (4 + t) = s.valid (.recip t) ∧
      s.tvalid.getLsbD (8 + t) = s.valid (.huff 0 t) ∧ s.tvalid.getLsbD (12 + t) = s.valid (.huff 1 t)

/-- R30: a write of `v` to `STREAM_LEN` stores `min(v, STREAM_CAP)`, `v` unsigned; `StreamByte(o)` is `EOS` from
there on; the reset value is 0. -/
def Obligations.StreamLenStoresMinimum : Prop :=
  State.reset.streamLen = 0 ∧
    ∀ (s : State) (v : Word) (rest : List HostStmt), s.cfg.legal = true →
      (∀ o, s.streamByte o = none ↔ s.streamLen.toNat ≤ o) ∧
      (s.host = .write32 0x024 v :: rest → s.running = none →
        ∃ t, step s = .next t ∧ t.streamLen.toNat = min v.toNat s.cfg.streamCap ∧
          { t with streamLen := s.streamLen } = { s with host := rest })

/-- 10 R30 to R37, R46: the writable registers of an idle block. A write of `BR_OFFSET`, `TBLPTR`, `EOBRUN` or a
predictor stores the word; after one of `BR_STATE`, `SCANCFG` or `ACSTATE` the register reads as written but for its
reserved bits, which read 0, and an `ACSTATE.STATE` of 5, 6 or 7, which stores 0. Nothing else changes. A read returns
the register, each field at its bits, and changes nothing. -/
def Obligations.FieldRegistersStoreFields : Prop :=
  ∀ (s : State) (v : Word) (rest : List HostStmt), s.running = none →
    (s.host = .write32 0x028 v :: rest →
      step s = .next { s with host := rest, br := ⟨v, s.br.bdata, s.br.bcount⟩ }) ∧
    (s.host = .write32 0x02C v :: rest → ∃ t, step s = .next t ∧ read32 t 0x02C = v &&& 0x7FF ∧
      { t with br := s.br } = { s with host := rest } ∧ t.br.offset = s.br.offset) ∧
    (s.host = .write32 0x030 v :: rest → step s = .next { s with host := rest, tblptr := v }) ∧
    (s.host = .write32 0x034 v :: rest → ∃ t, step s = .next t ∧ read32 t 0x034 = v &&& 0xF3F3F ∧
      { t with scan := s.scan } = { s with host := rest }) ∧
    (s.host = .write32 0x038 v :: rest → step s = .next { s with host := rest, eobrun := v }) ∧
    (s.host = .write32 0x03C v :: rest → ∃ t, step s = .next t ∧
      read32 t 0x03C = (if (v &&& 7).toNat ≤ 4 then v &&& 0x107 else v &&& 0x100) ∧
      { t with ac := s.ac } = { s with host := rest }) ∧
    (∀ (i : Nat) (off : Offset), i < 4 → off.toNat = 0x040 + 4 * i → s.host = .write32 off v :: rest →
      ∃ t, step s = .next t ∧ t.predAt i = v ∧ (∀ j < 4, j ≠ i → t.predAt j = s.predAt j) ∧
        { t with pred := s.pred } = { s with host := rest }) ∧
    (∀ off : Offset,
      off ∈ ([0x024, 0x028, 0x02C, 0x030, 0x034, 0x038, 0x03C, 0x040, 0x044, 0x048, 0x04C] : List Offset) →
      s.host = .read32 off :: rest →
        step s = .next { s with host := rest, replies := read32 s off.toNat :: s.replies }) ∧
    read32 s 0x024 = s.streamLen ∧ read32 s 0x028 = s.br.offset ∧
    read32 s 0x02C = BitVec.ofNat 32 (s.br.bdata.toNat + 2 ^ 8 * s.br.bcount.toNat) ∧ read32 s 0x030 = s.tblptr ∧
    read32 s 0x034 = BitVec.ofNat 32 (s.scan.ss.toNat + 2 ^ 8 * s.scan.se.toNat + 2 ^ 16 * s.scan.al.toNat) ∧
    read32 s 0x038 = s.eobrun ∧ read32 s 0x03C = BitVec.ofNat 32 (s.ac.mode.code + 2 ^ 8 * s.ac.nextNeg.toNat) ∧
    ∀ i < 4, read32 s (0x040 + 4 * i) = s.predAt i

/-- 20 R66, R68: reserved space of the window, below the aperture and in it beyond `STREAM_CAP`: a 32-bit read returns 0
and a 32-bit write is ignored; in the aperture, where 8-bit accesses are conforming (R67), so is an 8-bit one. -/
def Obligations.ReservedSpaceReadsZero : Prop :=
  ∀ (s : State) (off : Offset) (v : Word) (x : Byte) (rest : List HostStmt), s.running = none →
    (0x054 ≤ off.toNat ∧ off.toNat < 0x800 ∨ 0x1400 ≤ off.toNat ∧ off.toNat < 0x100000 ∨
        0x100000 + s.cfg.streamCap ≤ off.toNat →
      (s.host = .read32 off :: rest → step s = .next { s with host := rest, replies := 0 :: s.replies }) ∧
      (s.host = .write32 off v :: rest → step s = .next { s with host := rest })) ∧
    (0x100000 + s.cfg.streamCap ≤ off.toNat →
      (s.host = .read8 off :: rest → step s = .next { s with host := rest, replies := 0 :: s.replies }) ∧
      (s.host = .write8 off x :: rest → step s = .next { s with host := rest }))

/-- 20 R67: an access of another width, a 32-bit access at an offset that is no multiple of 4, and an 8-bit access
outside the aperture are non-conforming: a write changes nothing, a read returns 0, and none traps. -/
def Obligations.NonConformingAccessesIgnored : Prop :=
  ∀ (s : State) (off : Offset) (n : Nat) (v : Word) (x : Byte) (rest : List HostStmt), s.running = none →
    (s.host = .readOther n off :: rest → step s = .next { s with host := rest, replies := 0 :: s.replies }) ∧
    (s.host = .writeOther n off :: rest → step s = .next { s with host := rest }) ∧
    (off.toNat % 4 ≠ 0 → s.host = .read32 off :: rest →
      step s = .next { s with host := rest, replies := 0 :: s.replies }) ∧
    (off.toNat % 4 ≠ 0 → s.host = .write32 off v :: rest → step s = .next { s with host := rest }) ∧
    (off.toNat < 0x100000 → s.host = .read8 off :: rest →
      step s = .next { s with host := rest, replies := 0 :: s.replies }) ∧
    (off.toNat < 0x100000 → s.host = .write8 off x :: rest → step s = .next { s with host := rest })

/-- 20 R71, R66: a 32-bit write in the aperture stores its bytes little-endian, an 8-bit write stores its byte; each
leaves every other byte of stream memory, and every other field, as it was. -/
def Obligations.ApertureWritesStoreBytes : Prop :=
  ∀ (s : State) (off : Offset) (v : Word) (x : Byte) (rest : List HostStmt) (o : Nat), s.running = none →
    off.toNat = 0x100000 + o →
    (o % 4 = 0 → o + 3 < s.cfg.streamCap → s.host = .write32 off v :: rest →
      ∃ t, step s = .next t ∧ { t with stream := s.stream } = { s with host := rest } ∧
        t.byteAt o = v.extractLsb' 0 8 ∧ t.byteAt (o + 1) = v.extractLsb' 8 8 ∧
        t.byteAt (o + 2) = v.extractLsb' 16 8 ∧ t.byteAt (o + 3) = v.extractLsb' 24 8 ∧
        ∀ a, a < o ∨ o + 3 < a → t.byteAt a = s.byteAt a) ∧
    (o < s.cfg.streamCap → s.host = .write8 off x :: rest →
      ∃ t, step s = .next t ∧ { t with stream := s.stream } = { s with host := rest } ∧
        t.byteAt o = x ∧ ∀ a, a ≠ o → t.byteAt a = s.byteAt a)

/-- 20 R71, R72: a 32-bit read in the aperture returns `Σ_j STREAM[o+j]·2^(8j)`, an 8-bit read returns the byte; a
read changes nothing. -/
def Obligations.ApertureReadsReturnBytes : Prop :=
  ∀ (s : State) (off : Offset) (rest : List HostStmt) (o : Nat), s.running = none → off.toNat = 0x100000 + o →
    (o % 4 = 0 → o + 3 < s.cfg.streamCap → s.host = .read32 off :: rest →
      step s = .next { s with
        host := rest,
        replies := BitVec.ofNat 32 ((s.byteAt o).toNat + (s.byteAt (o + 1)).toNat * 2 ^ 8 +
          (s.byteAt (o + 2)).toNat * 2 ^ 16 + (s.byteAt (o + 3)).toNat * 2 ^ 24) :: s.replies }) ∧
    (o < s.cfg.streamCap → s.host = .read8 off :: rest →
      step s = .next { s with host := rest, replies := (s.byteAt o).setWidth 32 :: s.replies })

/-- 20 R65: the `BUF` window reads and writes a lane as a 32-bit pattern; the `QT` window reads an entry of a valid
table zero-extended, and ignores writes. -/
def Obligations.BufferAndTableWindows : Prop :=
  ∀ (s : State) (off : Offset) (v : Word) (rest : List HostStmt) (b i : Nat), s.running = none → i < 64 →
    (b < 8 → off.toNat = 0x800 + 0x100 * b + 4 * i →
      (s.host = .read32 off :: rest →
        step s = .next { s with host := rest, replies := lane (s.buf b) i :: s.replies }) ∧
      (s.host = .write32 off v :: rest → ∃ t, step s = .next t ∧ OnlyBuf b { s with host := rest } t ∧
        lane (t.buf b) i = v ∧ ∀ j < 64, j ≠ i → lane (t.buf b) j = lane (s.buf b) j)) ∧
    (b < 4 → off.toNat = 0x1000 + 0x100 * b + 4 * i →
      (s.valid (.quant b) = true → s.host = .read32 off :: rest →
        step s = .next { s with host := rest, replies := (nth (s.qt b) i).setWidth 32 :: s.replies }) ∧
      (s.host = .write32 off v :: rest → step s = .next { s with host := rest }))

/-- 70 R350: while a command runs, a `STATUS` read returns the register, `BUSY` = 1 and its reserved bits 0 (10 R24); a
host access of any width other than that read and a 32-bit write of `CMD` or `CTRL` has no meaning, and the model stops
there (93 U6; that this is a fault is the model's choice, notes/assumptions/3.md). -/
def Obligations.BusyBlockAnswersStatusOnly : Prop :=
  ∀ (s : State) (off : Offset) (n : Nat) (v : Word) (x : Byte) (rest : List HostStmt), s.running ≠ none →
    (s.host = .read32 0x00C :: rest → step s = .next { s with host := rest, replies := s.status :: s.replies }) ∧
    (s.status.getLsbD 0 = true ∧ s.status.getLsbD 1 = s.err ∧ s.status.getLsbD 2 = s.nobit ∧
      s.status.getLsbD 3 = s.mstop ∧ ∀ j, 4 ≤ j → s.status.getLsbD j = false) ∧
    (off ≠ 0x00C → s.host = .read32 off :: rest → step s = .fault .hostAccessWhileBusy) ∧
    (off ≠ 0x008 → off ≠ 0x010 → s.host = .write32 off v :: rest → step s = .fault .hostAccessWhileBusy) ∧
    (s.host = .read8 off :: rest → step s = .fault .hostAccessWhileBusy) ∧
    (s.host = .write8 off x :: rest → step s = .fault .hostAccessWhileBusy) ∧
    (s.host = .readOther n off :: rest → step s = .fault .hostAccessWhileBusy) ∧
    (s.host = .writeOther n off :: rest → step s = .fault .hostAccessWhileBusy)

/-! ## Buffer control (46_control) -/

/-- R270 to R272: `NOP` changes nothing; `ZERO` makes every lane of its buffer 0; `COPY` copies every lane. Nothing
else changes, and the source and destination of `COPY` may be the same buffer. With their words and operand ranges. -/
def Obligations.ControlCommandsWriteBuffer : Prop :=
  (∀ d b : Nib, encode .nop = 0x00000000 ∧ encode (.zero d) = BitVec.ofNat 32 (0x01000000 + d.toNat * 2 ^ 20) ∧
    encode (.copy d b) = BitVec.ofNat 32 (0x02000000 + d.toNat * 2 ^ 20 + b.toNat * 2 ^ 16) ∧
    ((Instr.zero d).wellFormed = true ↔ d.toNat ≤ 7) ∧
    ((Instr.copy d b).wellFormed = true ↔ d.toNat ≤ 7 ∧ b.toNat ≤ 7)) ∧
  ∀ (s : State) (d b : Nib), d.toNat ≤ 7 → b.toNat ≤ 7 →
    exec .nop s = .next s ∧
    (∃ t, exec (.zero d) s = .next t ∧ OnlyBuf d.toNat s t ∧ ∀ i < 64, lane (t.buf d.toNat) i = 0) ∧
    (∃ t, exec (.copy d b) s = .next t ∧ OnlyBuf d.toNat s t ∧
      ∀ i < 64, lane (t.buf d.toNat) i = lane (s.buf b.toNat) i)

/-! ## The bit reader (40_bitreader) -/

/-- R120, R121: `READBIT` where it completes: a bit of `BDATA`, a fresh byte, a stuffed `0xFF`, or an RSTn, of which
nothing is consumed. Only the bit reader, `RESULT` and `NOBIT` change. -/
def Obligations.ReadbitReturnsBitOrMarker : Prop :=
  ∀ (s : State) (b n : Byte),
    (s.br.bcount ≠ 0 →
      exec .readbit s = .next { s with
        br := ⟨s.br.offset, s.br.bdata, s.br.bcount - 1⟩,
        result := if s.br.bdata.getLsbD (s.br.bcount.toNat - 1) then 1 else 0, nobit := false }) ∧
    (s.br.bcount = 0 → s.streamByte s.br.offset.toNat = some b → b ≠ 0xFF →
      exec .readbit s = .next { s with
        br := ⟨s.br.offset + 1, b, 7⟩, result := if b.getLsbD 7 then 1 else 0, nobit := false }) ∧
    (s.br.bcount = 0 → s.streamByte s.br.offset.toNat = some 0xFF →
      s.streamByte (s.br.offset.toNat + 1) = some 0 →
      exec .readbit s = .next { s with br := ⟨s.br.offset + 2, 0xFF, 7⟩, result := 1, nobit := false }) ∧
    (s.br.bcount = 0 → s.streamByte s.br.offset.toNat = some 0xFF →
      s.streamByte (s.br.offset.toNat + 1) = some n → 0xD0 ≤ n.toNat → n.toNat ≤ 0xD7 →
      exec .readbit s = .next { s with
        result := BitVec.ofNat 32 (0x80000000 + 0xFF00 + n.toNat), nobit := true })

/-- R120, R121: `READBIT` fails at `EOS`, at a lone last `0xFF`, and at a marker that is no RSTn. -/
def Obligations.ReadbitFailsAtEndOrMarker : Prop :=
  ∀ (s : State) (n : Byte), s.br.bcount = 0 → s.err = false →
    (s.streamByte s.br.offset.toNat = none → ∃ t, exec .readbit s = .next t ∧
      FailsWith .readbit ⟨.invalidHuffmanSequence, s.br.offset⟩ s t) ∧
    (s.streamByte s.br.offset.toNat = some 0xFF → s.streamByte (s.br.offset.toNat + 1) = none →
      ∃ t, exec .readbit s = .next t ∧ FailsWith .readbit ⟨.invalidHuffmanSequence, s.br.offset⟩ s t) ∧
    (s.streamByte s.br.offset.toNat = some 0xFF → s.streamByte (s.br.offset.toNat + 1) = some n → n ≠ 0 →
      ¬ (0xD0 ≤ n.toNat ∧ n.toNat ≤ 0xD7) → ∃ t, exec .readbit s = .next t ∧
        FailsWith .readbit ⟨.unexpectedMarker, BitVec.ofNat 32 (0xFF00 + n.toNat)⟩ s t)

/-- R122: where the bit reader can give `n` bits, `RECEIVE n` returns the number they form, most significant
first. -/
def Obligations.ReceiveReturnsBits : Prop :=
  ∀ (s : State) (n : Byte) (bs : List Bool) (r : BitReader), n.toNat ≤ 16 →
    BitsRead s.streamByte s.br bs r → bs.length = n.toNat →
      exec (.receive n) s = .next { s with br := r, result := BitVec.ofNat 32 (bitsValue bs) }

/-- R123: `RECEIVEX n` returns the magnitude code: a first bit 0 means `v - 2^n + 1`, a first bit 1 means `v`, and
no bits mean 0. -/
def Obligations.ReceivexReturnsMagnitude : Prop :=
  ∀ (s : State) (n : Byte) (bs : List Bool) (r : BitReader), n.toNat ≤ 16 →
    BitsRead s.streamByte s.br bs r → bs.length = n.toNat →
      exec (.receivex n) s = .next { s with
        br := r,
        result := BitVec.ofInt 32 (match bs with
          | [] => 0
          | true :: _ => bitsValue bs
          | false :: _ => (bitsValue bs : Int) - 2 ^ bs.length + 1) }

/-- R120, R122, R123, R126: where the bits run out or a marker stands before the `n`-th one, `RECEIVE` and
`RECEIVEX` fail with that error; an RSTn counts as bits that ran out. -/
def Obligations.ReceiveFailsWithoutBits : Prop :=
  ∀ (s : State) (n : Byte) (e : CmdError), n.toNat ≤ 16 → s.err = false →
    BitsFail s.streamByte n.toNat s.br e →
      (∃ t, exec (.receive n) s = .next t ∧ FailsWith (.receive n) e s t) ∧
      (∃ t, exec (.receivex n) s = .next t ∧ FailsWith (.receivex n) e s t)

/-- R124, R125: `ALIGN` sets `BCOUNT` to 0; `SCANINIT` clears the predictors, `EOBRUN`, `ACSTATE` and `BCOUNT`;
neither changes anything else. With their words. -/
def Obligations.AlignAndScaninitClear : Prop :=
  encode .align = 0x13000000 ∧ encode .scaninit = 0x14000000 ∧ ∀ s : State,
    exec .align s = .next { s with br := ⟨s.br.offset, s.br.bdata, 0⟩ } ∧
    ∃ t, exec .scaninit s = .next t ∧ t.br = ⟨s.br.offset, s.br.bdata, 0⟩ ∧ (∀ i < 4, t.predAt i = 0) ∧
      t.eobrun = 0 ∧ t.ac = ⟨.initial, false⟩ ∧
      { t with br := s.br, pred := s.pred, eobrun := s.eobrun, ac := s.ac } = s

/-- R127: `RSTSYNC` at a marker: it clears the scan's state, returns the marker, moves past an RSTn, and leaves any
other marker in place with `MSTOP` = 1. -/
def Obligations.RstsyncReportsMarker : Prop :=
  ∀ (s : State) (b : Byte), s.streamByte s.br.offset.toNat = some 0xFF →
    s.streamByte (s.br.offset.toNat + 1) = some b →
      ∃ t, exec .rstsync s = .next t ∧ t.result = BitVec.ofNat 32 (0xFF00 + b.toNat) ∧
        (∀ i < 4, t.predAt i = 0) ∧ t.eobrun = 0 ∧ t.ac = ⟨.initial, false⟩ ∧ t.br.bcount = 0 ∧
        t.br.bdata = s.br.bdata ∧
        (0xD0 ≤ b.toNat ∧ b.toNat ≤ 0xD7 → t.br.offset = s.br.offset + 2 ∧ t.mstop = false) ∧
        (¬ (0xD0 ≤ b.toNat ∧ b.toNat ≤ 0xD7) → t.br.offset = s.br.offset ∧ t.mstop = true) ∧
        { t with br := s.br, pred := s.pred, eobrun := s.eobrun, ac := s.ac, result := s.result,
                 mstop := s.mstop } = s

/-- R127: `RSTSYNC` fails with `MarkerNotFound` where fewer than two bytes remain or they form a value below
`0xFF00`. -/
def Obligations.RstsyncFailsWithoutMarker : Prop :=
  ∀ (s : State) (a b : Byte), s.err = false →
    (s.streamByte s.br.offset.toNat = none ∨ s.streamByte (s.br.offset.toNat + 1) = none ∨
      (s.streamByte s.br.offset.toNat = some a ∧ s.streamByte (s.br.offset.toNat + 1) = some b ∧
        256 * a.toNat + b.toNat < 0xFF00)) →
      ∃ t, exec .rstsync s = .next t ∧ FailsWith .rstsync ⟨.markerNotFound, s.br.offset⟩ s t

/-! ## Huffman tables (41_huffman) -/

/-- R140: the canonical codes. The `m`-th symbol of length `L` has the code
`Σ_{j<L} BITS[j]·2^(L-j) + m`, and the map holds no other code. -/
def Obligations.CanonicalCodesAssigned : Prop :=
  ∀ (h : HuffTable), h.vals.length = h.nval → ∀ (len code : Nat) (v : Byte),
    (⟨len, code, v⟩ ∈ h.codeMap ↔
      1 ≤ len ∧ len ≤ 16 ∧ ∃ m < (nth h.bits (len - 1)).toNat,
        code = (∑ j ∈ Finset.range (len - 1), (nth h.bits j).toNat * 2 ^ (len - 1 - j)) + m ∧
        h.vals[(∑ j ∈ Finset.range (len - 1), (nth h.bits j).toNat) + m]? = some v)

/-- R141: "A code is a prefix of no other code", so the first match of a walk is the only one. -/
def Obligations.HuffmanCodesPrefixFree : Prop :=
  ∀ (h : HuffTable), ∀ x ∈ h.codeMap, ∀ y ∈ h.codeMap, x.len ≤ y.len →
    y.code / 2 ^ (y.len - x.len) = x.code → x = y

/-- R140: a table body in the stream, with at most 256 symbols and codes that exist at every length, loads: the
slot holds its counts and symbols and is valid, `TBLPTR` moves past it, and nothing else changes. -/
def Obligations.HtloadLoadsTable : Prop :=
  ∀ (s : State) (spec : Byte) (bits vals : List Byte), (hiNib spec).toNat ≤ 1 → (loNib spec).toNat ≤ 3 →
    bits.length = 16 → vals.length = (bits.map BitVec.toNat).sum → vals.length ≤ 256 →
    (∀ len, 1 ≤ len → len ≤ 16 →
      ∑ j ∈ Finset.range len, (bits.getD j 0).toNat * 2 ^ (len - 1 - j) ≤ 2 ^ len) →
    (∀ j < 16, s.streamByte (s.tblptr.toNat + j) = bits[j]?) →
    (∀ j < vals.length, s.streamByte (s.tblptr.toNat + 16 + j) = vals[j]?) →
      ∃ t, exec (.htload spec) s = .next t ∧
        (t.ht (hiNib spec).toNat (loNib spec).toNat).bits.toList = bits ∧
        (t.ht (hiNib spec).toNat (loNib spec).toNat).vals = vals ∧
        t.valid (.huff (hiNib spec).toNat (loNib spec).toNat) = true ∧
        t.tblptr = BitVec.ofNat 32 (s.tblptr.toNat + 16 + vals.length) ∧
        CleanOutside [.table (.huff (hiNib spec).toNat (loNib spec).toNat),
          .valid (.huff (hiNib spec).toNat (loNib spec).toNat), .tblptr] s t

/-- R140, R303: why a Huffman load fails, and that the slot is then invalid: an illegal spec byte, a body past the
end of the stream, more than 256 symbols, or a code that does not exist. That a load whose spec byte names no legal slot
keeps every table and valid bit is the model's reading (notes/assumptions/21.md). -/
def Obligations.HtloadFails : Prop :=
  ∀ (s : State) (spec : Byte) (bits : List Byte), s.err = false →
    ((1 < (hiNib spec).toNat ∨ 3 < (loNib spec).toNat) →
      ∃ t, exec (.htload spec) s = .next t ∧
        FailsWith (.htload spec) ⟨.invalidHuffmanTable, spec.setWidth 32⟩ s t) ∧
    ((hiNib spec).toNat ≤ 1 → (loNib spec).toNat ≤ 3 →
      ((∃ j < 16, s.streamByte (s.tblptr.toNat + j) = none) →
        ∃ t, exec (.htload spec) s = .next t ∧ FailsWith (.htload spec) ⟨.streamEnd, s.tblptr⟩ s t ∧
          t.valid (.huff (hiNib spec).toNat (loNib spec).toNat) = false) ∧
      (bits.length = 16 → (∀ j < 16, s.streamByte (s.tblptr.toNat + j) = bits[j]?) →
        (256 < (bits.map BitVec.toNat).sum →
          ∃ t, exec (.htload spec) s = .next t ∧
            FailsWith (.htload spec) ⟨.invalidHuffmanTable, spec.setWidth 32⟩ s t ∧
            t.valid (.huff (hiNib spec).toNat (loNib spec).toNat) = false) ∧
        ((bits.map BitVec.toNat).sum ≤ 256 →
          (∃ j < (bits.map BitVec.toNat).sum, s.streamByte (s.tblptr.toNat + 16 + j) = none) →
          ∃ t, exec (.htload spec) s = .next t ∧ FailsWith (.htload spec) ⟨.streamEnd, s.tblptr⟩ s t ∧
            t.valid (.huff (hiNib spec).toNat (loNib spec).toNat) = false) ∧
        ((bits.map BitVec.toNat).sum ≤ 256 →
          (∀ j < (bits.map BitVec.toNat).sum, s.streamByte (s.tblptr.toNat + 16 + j) ≠ none) →
          (∃ len, 1 ≤ len ∧ len ≤ 16 ∧
            2 ^ len < ∑ j ∈ Finset.range len, (bits.getD j 0).toNat * 2 ^ (len - 1 - j)) →
          ∃ t, exec (.htload spec) s = .next t ∧
            FailsWith (.htload spec) ⟨.invalidHuffmanTable, spec.setWidth 32⟩ s t ∧
            t.valid (.huff (hiNib spec).toNat (loNib spec).toNat) = false)))

/-- R141, R142: where the bits of a code stand in the stream, `HDEC` returns its symbol and reads exactly those
bits; where a bit before the end of a code cannot be read, or no code stands there, it fails. How many bits a decode
without a match reads is the model's choice among those of R143 (notes/assumptions/12.md). -/
def Obligations.HdecReturnsSymbol : Prop :=
  ∀ (s : State) (c k : Nib), c.toNat ≤ 1 → k.toNat ≤ 3 → s.valid (.huff c.toNat k.toNat) = true →
    (∀ v r, SymbolRead s.streamByte (s.codeMap c.toNat k.toNat) s.br v r →
      exec (.hdec c k) s = .next { s with br := r, result := v.setWidth 32 }) ∧
    (∀ e, s.err = false → SymbolFails s.streamByte (s.codeMap c.toNat k.toNat) s.br e →
      ∃ t, exec (.hdec c k) s = .next t ∧ FailsWith (.hdec c k) e s t)

/-! ## Block decode (42_block_decode) -/

/-- R161, with R120 to R123, R126 and R141 as relations: a baseline block, and the error of the first part of it that
cannot be read. A decode without a match reads all 16 bits, the model's choice (notes/assumptions/12.md). -/
def Obligations.DecbaseDecodesBlock : Prop :=
  ∀ (s : State) (d t u : Nib) (p : Byte), d.toNat ≤ 7 → t.toNat ≤ 3 → u.toNat ≤ 3 → p.toNat ≤ 3 →
    s.valid (.huff 0 t.toNat) = true → s.valid (.huff 1 u.toNat) = true →
    (∀ (x : Int) (r1 r2 : BitReader) (blk : Block), DcRead s.streamByte (s.codeMap 0 t.toNat) s.br x r1 →
      BaseRun s.streamByte (s.codeMap 1 u.toNat) 1
        (setLane (s.buf d.toNat) 0 (toWord (wrap32 (signed (s.predAt p.toNat) + x)))) r1 (.ok (blk, r2)) →
      ∃ s', exec (.decbase d t u p) s = .next s' ∧ s'.buf d.toNat = blk ∧ s'.br = r2 ∧
        s'.predAt p.toNat = toWord (wrap32 (signed (s.predAt p.toNat) + x)) ∧
        CleanOutside [.buf d.toNat, .pred p.toNat, .brOffset, .bdata, .bcount] s s') ∧
    (∀ e, s.err = false →
      (DcFails s.streamByte (s.codeMap 0 t.toNat) s.br e ∨
        ∃ (x : Int) (r1 : BitReader), DcRead s.streamByte (s.codeMap 0 t.toNat) s.br x r1 ∧
          BaseRun s.streamByte (s.codeMap 1 u.toNat) 1
            (setLane (s.buf d.toNat) 0 (toWord (wrap32 (signed (s.predAt p.toNat) + x)))) r1 (.error e)) →
      ∃ s', exec (.decbase d t u p) s = .next s' ∧ FailsWith (.decbase d t u p) e s s')

/-- R162, R163: the DC commands of a progressive image. `DCFIRST` adds the shifted difference to the predictor and
writes lane 0; `DCSUCC` sets bit `AL` of lane 0 if the next bit is 1. Where the DC part or the bit cannot be read, they
fail (R126, R141; a decode without a match reads all 16 bits, the model's choice, notes/assumptions/12.md). -/
def Obligations.DcCommandsWriteLaneZero : Prop :=
  ∀ (s : State) (d t : Nib) (p : Byte), d.toNat ≤ 7 → t.toNat ≤ 3 → p.toNat ≤ 3 →
    (s.valid (.huff 0 t.toNat) = true → ∀ x r, DcRead s.streamByte (s.codeMap 0 t.toNat) s.br x r →
      ∃ s', exec (.dcfirst d t p) s = .next s' ∧ s'.br = r ∧
        s'.predAt p.toNat = toWord (wrap32 (signed (s.predAt p.toNat) + shl32 x s.scan.al.toNat)) ∧
        lane (s'.buf d.toNat) 0 = s'.predAt p.toNat ∧
        CleanOutside [.lane0 d.toNat, .pred p.toNat, .brOffset, .bdata, .bcount] s s') ∧
    (s.valid (.huff 0 t.toNat) = true → s.err = false → ∀ e, DcFails s.streamByte (s.codeMap 0 t.toNat) s.br e →
      ∃ s', exec (.dcfirst d t p) s = .next s' ∧ FailsWith (.dcfirst d t p) e s s') ∧
    (∀ b r, fetchBit s.streamByte s.br = .bit b r →
      ∃ s', exec (.dcsucc d) s = .next s' ∧ s'.br = r ∧
        (∀ j < 32, (lane (s'.buf d.toNat) 0).getLsbD j
          = ((lane (s.buf d.toNat) 0).getLsbD j || (b && decide (j = s.scan.al.toNat)))) ∧
        CleanOutside [.lane0 d.toNat, .brOffset, .bdata, .bcount] s s') ∧
    (s.err = false → ∀ e, BitFails s.streamByte s.br e →
      ∃ s', exec (.dcsucc d) s = .next s' ∧ FailsWith (.dcsucc d) e s s')

/-- R161, R162: a DC category above 16 is an error of both commands that decode one; `DCFIRST` needs no AC table. -/
def Obligations.DcCategoryAboveSixteenFails : Prop :=
  ∀ (s : State) (d t : Nib) (p v : Byte) (r : BitReader), s.err = false →
    d.toNat ≤ 7 → t.toNat ≤ 3 → p.toNat ≤ 3 → s.valid (.huff 0 t.toNat) = true →
    SymbolRead s.streamByte (s.codeMap 0 t.toNat) s.br v r → 16 < v.toNat →
      (∀ u : Nib, u.toNat ≤ 3 → s.valid (.huff 1 u.toNat) = true → ∃ s', exec (.decbase d t u p) s = .next s' ∧
        FailsWith (.decbase d t u p) ⟨.invalidHuffmanSequence, r.offset⟩ s s') ∧
      (∃ s', exec (.dcfirst d t p) s = .next s' ∧
        FailsWith (.dcfirst d t p) ⟨.invalidHuffmanSequence, r.offset⟩ s s')

/-- R164: in an end-of-band run `ACFIRST` only counts the block off; else it decodes the band, or fails with the error
of the first part of it that cannot be read (R126, R141; a decode without a match reads all 16 bits, the model's choice,
notes/assumptions/12.md). -/
def Obligations.AcfirstDecodesBand : Prop :=
  ∀ (s : State) (d u : Nib), d.toNat ≤ 7 → u.toNat ≤ 3 → s.valid (.huff 1 u.toNat) = true →
    (0 < signed s.eobrun →
      ∃ t, exec (.acfirst d u) s = .next t ∧ signed t.eobrun = signed s.eobrun - 1 ∧
        { t with eobrun := s.eobrun } = s) ∧
    (signed s.eobrun ≤ 0 → ∀ (blk : Block) (eob : Word) (r : BitReader),
      FirstRun s.streamByte (s.codeMap 1 u.toNat) s.scan.al.toNat s.scan.se.toNat s.scan.ss.toNat
        (s.buf d.toNat) s.eobrun s.br (.ok (blk, eob, r)) →
      ∃ t, exec (.acfirst d u) s = .next t ∧ t.buf d.toNat = blk ∧ t.eobrun = eob ∧ t.br = r ∧
        CleanOutside [.buf d.toNat, .eobrun, .brOffset, .bdata, .bcount] s t) ∧
    (signed s.eobrun ≤ 0 → s.err = false → ∀ e,
      FirstRun s.streamByte (s.codeMap 1 u.toNat) s.scan.al.toNat s.scan.se.toNat s.scan.ss.toNat
        (s.buf d.toNat) s.eobrun s.br (.error e) →
      ∃ t, exec (.acfirst d u) s = .next t ∧ FailsWith (.acfirst d u) e s t)

/-- R165 to R167: an AC refinement scan of a band, the run counter starting at 0; at the band's end a state `EOB`
counts the block off, and returns to `INITIAL` when the run is over. A symbol whose category is neither 0 nor 1 raises
`InvalidAcEncoding` with the symbol; a symbol or a bit that cannot be read raises its error (R126, R141; a decode
without a match reads all 16 bits, the model's choice, notes/assumptions/12.md). -/
def Obligations.AcsuccRefinesBand : Prop :=
  ∀ (s : State) (d u : Nib), d.toNat ≤ 7 → u.toNat ≤ 3 → s.valid (.huff 1 u.toNat) = true →
    (∀ a : AcRun,
      SuccRun s.streamByte (s.codeMap 1 u.toNat) s.scan.al.toNat s.scan.se.toNat s.scan.ss.toNat
        ⟨s.buf d.toNat, s.eobrun, s.ac, 0, s.br⟩ (.ok a) →
      ∃ t, exec (.acsucc d u) s = .next t ∧ t.buf d.toNat = a.blk ∧ t.br = a.br ∧
        t.ac.nextNeg = a.ac.nextNeg ∧
        (a.ac.mode ≠ .eob → t.eobrun = a.eob ∧ t.ac.mode = a.ac.mode) ∧
        (a.ac.mode = .eob → signed t.eobrun = wrap32 (signed a.eob - 1) ∧
          t.ac.mode = if t.eobrun = 0 then .initial else .eob) ∧
        CleanOutside [.buf d.toNat, .eobrun, .acstate, .brOffset, .bdata, .bcount] s t) ∧
    (∀ e, s.err = false →
      SuccRun s.streamByte (s.codeMap 1 u.toNat) s.scan.al.toNat s.scan.se.toNat s.scan.ss.toNat
        ⟨s.buf d.toNat, s.eobrun, s.ac, 0, s.br⟩ (.error e) →
      ∃ t, exec (.acsucc d u) s = .next t ∧ FailsWith (.acsucc d u) e s t)

/-! ## Dequantization and the IDCT (43_dequant_idct) -/

/-- R190, 20 R69: `QLOAD` puts entry `j` of the body, one byte or two big-endian ones, at natural index `ZZ[j]`,
makes the table valid and moves `TBLPTR` past the body; nothing else changes. -/
def Obligations.QloadLoadsTable : Prop :=
  ∀ (s : State) (spec : Byte) (vs : List Nat), (hiNib spec).toNat ≤ 1 → (loNib spec).toNat ≤ 3 →
    vs.length = 64 →
    (∀ j < 64, if hiNib spec = 0 then (s.streamByte (s.tblptr.toNat + j)).map BitVec.toNat = vs[j]?
      else ∃ hi lo : Byte, s.streamByte (s.tblptr.toNat + 2 * j) = some hi ∧
        s.streamByte (s.tblptr.toNat + 2 * j + 1) = some lo ∧ vs[j]? = some (256 * hi.toNat + lo.toNat)) →
      ∃ t, exec (.qload spec) s = .next t ∧
        (∀ j < 64, (nth (t.qt (loNib spec).toNat) (zz j)).toNat = vs.getD j 0) ∧
        t.valid (.quant (loNib spec).toNat) = true ∧
        t.tblptr = BitVec.ofNat 32 (s.tblptr.toNat + 64 * ((hiNib spec).toNat + 1)) ∧
        CleanOutside [.table (.quant (loNib spec).toNat), .valid (.quant (loNib spec).toNat), .tblptr] s t

/-- R190, R303: why a dequantization load fails, and that its slot, where legal, is then invalid. That a load whose spec
byte names no legal slot keeps every table and valid bit is the model's reading (notes/assumptions/21.md). -/
def Obligations.QloadFails : Prop :=
  ∀ (s : State) (spec : Byte), s.err = false →
    ((1 < (hiNib spec).toNat ∨ 3 < (loNib spec).toNat) →
      ∃ t, exec (.qload spec) s = .next t ∧
        FailsWith (.qload spec) ⟨.invalidQuantSpec, spec.setWidth 32⟩ s t ∧
        ((loNib spec).toNat ≤ 3 → t.valid (.quant (loNib spec).toNat) = false)) ∧
    ((hiNib spec).toNat ≤ 1 → (loNib spec).toNat ≤ 3 →
      (∃ j < 64 * ((hiNib spec).toNat + 1), s.streamByte (s.tblptr.toNat + j) = none) →
      ∃ t, exec (.qload spec) s = .next t ∧ FailsWith (.qload spec) ⟨.streamEnd, s.tblptr⟩ s t ∧
        t.valid (.quant (loNib spec).toNat) = false)

/-- R191, R197: `DEQUANT` with a valid table: each lane is the wrapped product of the source lane, signed, and the
table entry, unsigned; the two buffers may be one. With an invalid table it raises `TableUndefined`. With its word and
operand ranges. -/
def Obligations.DequantMultiplies : Prop :=
  (∀ d b t : Nib,
    encode (.dequant d b t)
      = BitVec.ofNat 32 (0x41000000 + d.toNat * 2 ^ 20 + b.toNat * 2 ^ 16 + t.toNat * 2 ^ 12) ∧
    ((Instr.dequant d b t).wellFormed = true ↔ d.toNat ≤ 7 ∧ b.toNat ≤ 7 ∧ t.toNat ≤ 3)) ∧
  ∀ (s : State) (d b t : Nib), d.toNat ≤ 7 → b.toNat ≤ 7 → t.toNat ≤ 3 →
    (s.valid (.quant t.toNat) = true →
      ∃ s', exec (.dequant d b t) s = .next s' ∧ OnlyBuf d.toNat s s' ∧
        ∀ i < 64, signed (lane (s'.buf d.toNat) i)
          = wrap32 (signed (lane (s.buf b.toNat) i) * (nth (s.qt t.toNat) i).toNat)) ∧
    (s.valid (.quant t.toNat) = false → s.err = false →
      exec (.dequant d b t) s
        = .next (withError ⟨.tableUndefined, BitVec.ofNat 32 (0x100 + t.toNat)⟩ (encode (.dequant d b t)) s))

/-- R192 to R197: the IDCT runs R194's pass, written out line by line in `idctRule`, on the rows of the source, then on
the columns of the result, and the output stage on every value; every sample is in 0..255. The dataflow of the pass is
from general knowledge by the spec's own account (notes/assumptions/14.md). -/
def Obligations.IdctTransformsBlock : Prop :=
  ∀ (s : State) (d b : Nib), d.toNat ≤ 7 → b.toNat ≤ 7 →
    ∃ t, exec (.idct d b) s = .next t ∧ OnlyBuf d.toNat s t ∧
      let row : Nat → Oct Int := fun r => idctRule
        ⟨signed (lane (s.buf b.toNat) (8 * r)), signed (lane (s.buf b.toNat) (8 * r + 1)),
         signed (lane (s.buf b.toNat) (8 * r + 2)), signed (lane (s.buf b.toNat) (8 * r + 3)),
         signed (lane (s.buf b.toNat) (8 * r + 4)), signed (lane (s.buf b.toNat) (8 * r + 5)),
         signed (lane (s.buf b.toNat) (8 * r + 6)), signed (lane (s.buf b.toNat) (8 * r + 7))⟩ 128 8 4 512 10
      let col : Nat → Oct Int := fun c => idctRule
        ⟨(row 0).at c, (row 1).at c, (row 2).at c, (row 3).at c, (row 4).at c, (row 5).at c, (row 6).at c,
         (row 7).at c⟩ 2048 12 0 8192 14
      ∀ r < 8, ∀ c < 8,
        signed (lane (t.buf d.toNat) (8 * r + c))
          = min 255 (max 0 (128 + sra (wrap32 ((col c).at r + 8)) 4)) ∧
        0 ≤ signed (lane (t.buf d.toNat) (8 * r + c)) ∧ signed (lane (t.buf d.toNat) (8 * r + c)) ≤ 255

/-- R192, R194, R196: a block whose only nonzero coefficient is lane 0: both fast paths, and one value in all 64
lanes. -/
def Obligations.IdctOfDcBlockIsFlat : Prop :=
  ∀ (s : State) (d b : Nib), d.toNat ≤ 7 → b.toNat ≤ 7 →
    (∀ i, 1 ≤ i → i < 64 → lane (s.buf b.toNat) i = 0) →
      ∃ t, exec (.idct d b) s = .next t ∧ OnlyBuf d.toNat s t ∧ ∀ i < 64,
        signed (lane (t.buf d.toNat) i) = min 255 (max 0 (128 + sra (wrap32 (
          sra (wrap32 (5793 * sra (wrap32 (5793 * signed (lane (s.buf b.toNat) 0) + 512)) 10 + 8192)) 14 + 8)) 4))

/-! ## The encoder (44_fdct_quant) -/

/-- R220: `QSCALE` clamps the quality, scales the low 16 bits of every base entry, clamps to 1..255, and deposits
natural index `i` at lane `ZZI[i]`. With its word and operand ranges. -/
def Obligations.QscaleScalesTable : Prop :=
  (∀ (d b : Nib) (quality : Byte),
    encode (.qscale d b quality)
      = BitVec.ofNat 32 (0x50000000 + d.toNat * 2 ^ 20 + b.toNat * 2 ^ 16 + quality.toNat) ∧
    ((Instr.qscale d b quality).wellFormed = true ↔ d.toNat ≤ 7 ∧ b.toNat ≤ 7)) ∧
  ∀ (s : State) (d b : Nib) (quality : Byte), d.toNat ≤ 7 → b.toNat ≤ 7 →
    ∃ t, exec (.qscale d b quality) s = .next t ∧ OnlyBuf d.toNat s t ∧
      ∀ q sf : Nat, q = min 100 (max 1 quality.toNat) → sf = (if q < 50 then 5000 / q else 200 - 2 * q) →
        ∀ i < 64, lane (t.buf d.toNat) (zzi i)
          = BitVec.ofNat 32 (min 255 (max 1 (((lane (s.buf b.toNat) i).toNat % 65536 * sf + 50) / 100)))

/-- R221, R303: `EQLOAD` with every lane in 1..255 stores the reciprocals, each product formed left to right, and
makes the slot valid; else the first lane outside is reported and the slot is invalid. -/
def Obligations.EqloadStoresReciprocals : Prop :=
  ∀ (s : State) (b t : Nib), b.toNat ≤ 7 → t.toNat ≤ 3 →
    ((∀ i < 64, 1 ≤ signed (lane (s.buf b.toNat) i) ∧ signed (lane (s.buf b.toNat) i) ≤ 255) →
      ∃ s', exec (.eqload b t) s = .next s' ∧ s'.valid (.recip t.toNat) = true ∧
        (∀ row < 8, ∀ col < 8, nth (s'.fq t.toNat) (8 * row + col)
          = f64Div (f64OfInt 1) (f64Mul (f64Mul (f64Mul
              (f64OfInt (signed (lane (s.buf b.toNat) (zzi (8 * row + col))))) (aasf row)) (aasf col))
              (f64OfInt 8))) ∧
        CleanOutside [.table (.recip t.toNat), .valid (.recip t.toNat)] s s') ∧
    (∀ j < 64, s.err = false →
      ¬ (1 ≤ signed (lane (s.buf b.toNat) j) ∧ signed (lane (s.buf b.toNat) j) ≤ 255) →
      (∀ i < j, 1 ≤ signed (lane (s.buf b.toNat) i) ∧ signed (lane (s.buf b.toNat) i) ≤ 255) →
      ∃ s', exec (.eqload b t) s = .next s' ∧
        FailsWith (.eqload b t) ⟨.badArgument, lane (s.buf b.toNat) j⟩ s s' ∧
        s'.valid (.recip t.toNat) = false)

/-- R222, R224: `FDCTQ` with a valid table runs R224's pass, written out line by line in `fdctRule`, on the rows, then on
the columns, multiplies by the reciprocals and quantizes, lane by lane. The butterfly network is from general knowledge
by the spec's own account (notes/assumptions/14.md). -/
def Obligations.FdctqTransformsBlock : Prop :=
  ∀ (s : State) (d b k : Nib), d.toNat ≤ 7 → b.toNat ≤ 7 → k.toNat ≤ 3 → s.valid (.recip k.toNat) = true →
    ∃ t, exec (.fdctq d b k) s = .next t ∧ OnlyBuf d.toNat s t ∧
      let x : Nat → F64 := fun i => f64OfInt (signed (lane (s.buf b.toNat) i))
      let row : Nat → Oct F64 := fun r => fdctRule ⟨x (8 * r), x (8 * r + 1), x (8 * r + 2), x (8 * r + 3),
        x (8 * r + 4), x (8 * r + 5), x (8 * r + 6), x (8 * r + 7)⟩
      let col : Nat → Oct F64 := fun c => fdctRule ⟨(row 0).at c, (row 1).at c, (row 2).at c, (row 3).at c,
        (row 4).at c, (row 5).at c, (row 6).at c, (row 7).at c⟩
      ∀ r < 8, ∀ c < 8, lane (t.buf d.toNat) (8 * r + c)
        = toWord (quant s.cfg.roundImpl (f64Mul ((col c).at r) (nth (s.fq k.toNat) (8 * r + c))))

/-- R222: "A constant block gives zero AC coefficients exactly", for a table as `EQLOAD` leaves it. -/
def Obligations.FdctqOfConstantBlockIsDc : Prop :=
  ∀ (s : State) (d b k : Nib) (v : Word), d.toNat ≤ 7 → b.toNat ≤ 7 → k.toNat ≤ 3 →
    s.valid (.recip k.toNat) = true → s.RecipInv → (∀ i < 64, lane (s.buf b.toNat) i = v) →
      ∃ t, exec (.fdctq d b k) s = .next t ∧ OnlyBuf d.toNat s t ∧
        ∀ i, 1 ≤ i → i < 64 → lane (t.buf d.toNat) i = 0

/-- R225, both realisations, on the real value of a finite `x`: `EXACT` rounds half away from zero exactly;
`ADD_HALF_B64` truncates the rounded sum `x ⊕ 0.5` or `x ⊖ 0.5`. -/
def Obligations.QuantRoundsHalfAway : Prop :=
  ∀ (x : F64) (q : ℚ), f64Value x = some q →
    quant .exact x = wrap32 (if 0 < q then ⌊q + 1 / 2⌋ else -⌊-q + 1 / 2⌋) ∧
    (0 < q → ∀ y, f64Value (f64Add x 0x3FE0000000000000) = some y →
      quant .addHalfB64 x = wrap32 (if 0 ≤ y then ⌊y⌋ else ⌈y⌉)) ∧
    (¬ 0 < q → ∀ y, f64Value (f64Sub x 0x3FE0000000000000) = some y →
      quant .addHalfB64 x = wrap32 (if 0 ≤ y then ⌊y⌋ else ⌈y⌉))

/-- 00 R9: `f64(n)` is exact below `2^53`, and a decimal literal and each of the four operations on finite operands give
the exact result rounded to nearest, ties to even: finite where the exact result is in the finite range, and no binary64
value is nearer to it. The format is from general knowledge by the spec's own account (notes/assumptions/14.md). -/
def Obligations.Binary64RoundsToNearestEven : Prop :=
  (∀ n : Int, n.natAbs < 2 ^ 53 → f64Value (f64OfInt n) = some (n : ℚ)) ∧
  (∀ k : Nat, k < 2 ^ 53 → Rounded (k / 10 ^ 9) (f64Lit k)) ∧
  ∀ (a b : F64) (x y : ℚ), f64Value a = some x → f64Value b = some y →
    Rounded (x + y) (f64Add a b) ∧ Rounded (x - y) (f64Sub a b) ∧
      Rounded (x * y) (f64Mul a b) ∧ (y ≠ 0 → Rounded (x / y) (f64Div a b))

/-! ## Zig-zag (45_zigzag) -/

/-- R250: `ZZ` and `ZZI` are inverse; the sequence starts at the corner, and each step moves along an anti-diagonal,
upwards on an even one and downwards on an odd one, or to the next anti-diagonal at the border. -/
def Obligations.ZigzagRunsAlongDiagonals : Prop :=
  zz 0 = 0 ∧ (∀ k < 64, zz k < 64 ∧ zzi (zz k) = k) ∧ (∀ n < 64, zzi n < 64 ∧ zz (zzi n) = n) ∧
    ∀ k < 63, ∀ row col row' col' : Nat, row = zz k / 8 → col = zz k % 8 → row' = zz (k + 1) / 8 →
      col' = zz (k + 1) % 8 →
      ((row + col) % 2 = 0 →
        (row ≠ 0 ∧ col ≠ 7 → row' + 1 = row ∧ col' = col + 1) ∧ (col = 7 → row' = row + 1 ∧ col' = 7) ∧
        (row = 0 ∧ col ≠ 7 → row' = 0 ∧ col' = col + 1)) ∧
      ((row + col) % 2 = 1 →
        (row ≠ 7 ∧ col ≠ 0 → row' = row + 1 ∧ col' + 1 = col) ∧ (row = 7 → row' = 7 ∧ col' = col + 1) ∧
        (col = 0 ∧ row ≠ 7 → row' = row + 1 ∧ col' = 0))

/-- R251, R252, 43 R197: `ZZFWD` and `ZZINV` move the lanes along `ZZ`, unchanged, in place too, and each undoes
the other. With their words and operand ranges. -/
def Obligations.ZigzagCommandsPermute : Prop :=
  (∀ d b : Nib,
    encode (.zzfwd d b) = BitVec.ofNat 32 (0x60000000 + d.toNat * 2 ^ 20 + b.toNat * 2 ^ 16) ∧
    encode (.zzinv d b) = BitVec.ofNat 32 (0x61000000 + d.toNat * 2 ^ 20 + b.toNat * 2 ^ 16) ∧
    ((Instr.zzfwd d b).wellFormed = true ↔ d.toNat ≤ 7 ∧ b.toNat ≤ 7) ∧
    ((Instr.zzinv d b).wellFormed = true ↔ d.toNat ≤ 7 ∧ b.toNat ≤ 7)) ∧
  ∀ (s : State) (d b e : Nib), d.toNat ≤ 7 → b.toNat ≤ 7 → e.toNat ≤ 7 →
    (∃ t, exec (.zzfwd d b) s = .next t ∧ OnlyBuf d.toNat s t ∧
      (∀ k < 64, lane (t.buf d.toNat) k = lane (s.buf b.toNat) (zz k)) ∧
      ∃ t', exec (.zzinv e d) t = .next t' ∧
        ∀ i < 64, lane (t'.buf e.toNat) i = lane (s.buf b.toNat) i) ∧
    (∃ t, exec (.zzinv d b) s = .next t ∧ OnlyBuf d.toNat s t ∧
      (∀ k < 64, lane (t.buf d.toNat) (zz k) = lane (s.buf b.toNat) k) ∧
      ∃ t', exec (.zzfwd e d) t = .next t' ∧
        ∀ i < 64, lane (t'.buf e.toNat) i = lane (s.buf b.toNat) i)
end

