-- ==== Sys2Proof/Laws/Arith.lean ====
section
/-!
SUPPORT. The integer primitives, and the two permutations of 45_zigzag R250 as inverses.
-/

namespace Sys2Proof.Machine

/-! ## Integers and patterns (00_scope R8) -/

/-- A stored integer is read back wrapped. -/
@[simp] theorem signed_toWord (x : Int) : signed (toWord x) = wrap32 x := by
  simp [signed, toWord, wrap32, BitVec.toInt_ofInt, Int.bmod]
  omega

@[simp] theorem wrap32_wrap32 (x : Int) : wrap32 (wrap32 x) = wrap32 x := by simp [wrap32]

/-- An integer of 32 bits is not changed by the wrap. -/
theorem wrap32_of_range {x : Int} (h : -2 ^ 31 ≤ x) (h' : x < 2 ^ 31) : wrap32 x = x := by
  simp only [wrap32]
  omega

theorem wrap32_range (x : Int) : -2 ^ 31 ≤ wrap32 x ∧ wrap32 x < 2 ^ 31 := by
  simp only [wrap32]
  omega

@[simp] theorem toWord_wrap32 (x : Int) : toWord (wrap32 x) = toWord x := by
  apply BitVec.eq_of_toInt_eq
  rw [← signed, ← signed, signed_toWord, signed_toWord, wrap32_wrap32]

@[simp] theorem toWord_signed (w : Word) : toWord (signed w) = w := BitVec.ofInt_toInt

theorem clamp_range {lo hi : Int} (h : lo ≤ hi) (x : Int) : lo ≤ clamp lo hi x ∧ clamp lo hi x ≤ hi := by
  simp [clamp, h]

/-! ## The zig-zag permutation -/

theorem zz_lt : ∀ k < 64, zz k < 64 := by decide

theorem zzi_lt : ∀ n < 64, zzi n < 64 := by decide

theorem zzi_zz : ∀ k < 64, zzi (zz k) = k := by decide

theorem zz_zzi : ∀ n < 64, zz (zzi n) = n := by decide

end Sys2Proof.Machine
end

