-- ==== Sys2Proof/Laws/Vec.lean ====
section
/-!
SUPPORT. Reading a vector after building it or replacing an entry.
-/

namespace Sys2Proof

section Vec

variable {α : Type} {n : Nat}

@[simp] theorem tab_toList (f : Nat → α) :
    (tab f : Vector α n).toList = List.ofFn fun i : Fin n => f i.val := rfl

@[simp] theorem put_toList (v : Vector α n) (i : Nat) (x : α) : (put v i x).toList = v.toList.set i x := rfl

theorem nth_eq_getD [Inhabited α] (v : Vector α n) (i : Nat) : nth v i = v.toList.getD i default := rfl

/-- An entry in range is the entry of the underlying list. -/
theorem nth_getElem? [Inhabited α] (v : Vector α n) {i : Nat} (h : i < n) : v.toList[i]? = some (nth v i) := by
  rw [nth_eq_getD, List.getD_eq_getElem?_getD, List.getElem?_eq_getElem (by simpa using h)]
  rfl

@[simp] theorem nth_tab [Inhabited α] (f : Nat → α) {i : Nat} (h : i < n) : nth (tab f : Vector α n) i = f i := by
  simp [nth_eq_getD, List.getD_eq_getElem?_getD, h]

@[simp] theorem nth_put_same [Inhabited α] (v : Vector α n) {i : Nat} (x : α) (h : i < n) :
    nth (put v i x) i = x := by
  simp [nth_eq_getD, List.getD_eq_getElem?_getD, h]

theorem nth_put_other [Inhabited α] (v : Vector α n) {i j : Nat} (x : α) (h : j ≠ i) :
    nth (put v i x) j = nth v j := by
  simp [nth_eq_getD, List.getD_eq_getElem?_getD, List.getElem?_set_ne h.symm]

/-- Replacing an entry that is not there changes nothing. -/
theorem put_outside (v : Vector α n) {i : Nat} (x : α) (h : n ≤ i) : put v i x = v := by
  apply Vector.toList_inj.1
  rw [put_toList, List.set_eq_of_length_le (by simpa using h)]

/-- Two vectors with the same entries are equal. -/
theorem vec_ext [Inhabited α] {u v : Vector α n} (h : ∀ i < n, nth u i = nth v i) : u = v := by
  apply Vector.toList_inj.1
  apply List.ext_getElem? 
  intro i
  by_cases hi : i < n
  · rw [nth_getElem? u hi, nth_getElem? v hi, h i hi]
  · rw [List.getElem?_eq_none (by simpa using hi), List.getElem?_eq_none (by simpa using hi)]

theorem put_nth_self [Inhabited α] (v : Vector α n) (i : Nat) : put v i (nth v i) = v := by
  by_cases hi : i < n
  · apply vec_ext
    intro j hj
    by_cases h : j = i
    · subst h; simp [hj]
    · exact nth_put_other v _ h
  · exact put_outside v _ (by omega)

end Vec

end Sys2Proof
end

