-- ==== Sys2Proof/Laws/State.lean ====
section
/-!
SUPPORT. Each update of State, field by field, and what each accessor reads after it.
-/

namespace Sys2Proof.Machine

variable (s : State)

/-! ## `setBuf` -/

@[simp] theorem State.setBuf_cfg (b : Nat) (blk : Block) : (s.setBuf b blk).cfg = s.cfg := rfl
@[simp] theorem State.setBuf_running (b : Nat) (blk : Block) : (s.setBuf b blk).running = s.running := rfl
@[simp] theorem State.setBuf_err (b : Nat) (blk : Block) : (s.setBuf b blk).err = s.err := rfl
@[simp] theorem State.setBuf_nobit (b : Nat) (blk : Block) : (s.setBuf b blk).nobit = s.nobit := rfl
@[simp] theorem State.setBuf_mstop (b : Nat) (blk : Block) : (s.setBuf b blk).mstop = s.mstop := rfl
@[simp] theorem State.setBuf_result (b : Nat) (blk : Block) : (s.setBuf b blk).result = s.result := rfl
@[simp] theorem State.setBuf_errcode (b : Nat) (blk : Block) : (s.setBuf b blk).errcode = s.errcode := rfl
@[simp] theorem State.setBuf_errinfo (b : Nat) (blk : Block) : (s.setBuf b blk).errinfo = s.errinfo := rfl
@[simp] theorem State.setBuf_errcmd (b : Nat) (blk : Block) : (s.setBuf b blk).errcmd = s.errcmd := rfl
@[simp] theorem State.setBuf_streamLen (b : Nat) (blk : Block) : (s.setBuf b blk).streamLen = s.streamLen := rfl
@[simp] theorem State.setBuf_br (b : Nat) (blk : Block) : (s.setBuf b blk).br = s.br := rfl
@[simp] theorem State.setBuf_tblptr (b : Nat) (blk : Block) : (s.setBuf b blk).tblptr = s.tblptr := rfl
@[simp] theorem State.setBuf_scan (b : Nat) (blk : Block) : (s.setBuf b blk).scan = s.scan := rfl
@[simp] theorem State.setBuf_eobrun (b : Nat) (blk : Block) : (s.setBuf b blk).eobrun = s.eobrun := rfl
@[simp] theorem State.setBuf_ac (b : Nat) (blk : Block) : (s.setBuf b blk).ac = s.ac := rfl
@[simp] theorem State.setBuf_pred (b : Nat) (blk : Block) : (s.setBuf b blk).pred = s.pred := rfl
@[simp] theorem State.setBuf_tvalid (b : Nat) (blk : Block) : (s.setBuf b blk).tvalid = s.tvalid := rfl
@[simp] theorem State.setBuf_bufs (b : Nat) (blk : Block) : (s.setBuf b blk).bufs = put s.bufs b blk := rfl
@[simp] theorem State.setBuf_qts (b : Nat) (blk : Block) : (s.setBuf b blk).qts = s.qts := rfl
@[simp] theorem State.setBuf_fqs (b : Nat) (blk : Block) : (s.setBuf b blk).fqs = s.fqs := rfl
@[simp] theorem State.setBuf_hts (b : Nat) (blk : Block) : (s.setBuf b blk).hts = s.hts := rfl
@[simp] theorem State.setBuf_stream (b : Nat) (blk : Block) : (s.setBuf b blk).stream = s.stream := rfl
@[simp] theorem State.setBuf_host (b : Nat) (blk : Block) : (s.setBuf b blk).host = s.host := rfl
@[simp] theorem State.setBuf_replies (b : Nat) (blk : Block) : (s.setBuf b blk).replies = s.replies := rfl
@[simp] theorem State.setBuf_draws (b : Nat) (blk : Block) : (s.setBuf b blk).draws = s.draws := rfl
@[simp] theorem State.setBuf_memDraw (b : Nat) (blk : Block) : (s.setBuf b blk).memDraw = s.memDraw := rfl
@[simp] theorem State.setBuf_qtDraw (b : Nat) (blk : Block) : (s.setBuf b blk).qtDraw = s.qtDraw := rfl
@[simp] theorem State.setBuf_predAt (b : Nat) (blk : Block) (j : Nat) : (s.setBuf b blk).predAt j = s.predAt j := rfl
@[simp] theorem State.setBuf_qt (b : Nat) (blk : Block) (j : Nat) : (s.setBuf b blk).qt j = s.qt j := rfl
@[simp] theorem State.setBuf_fq (b : Nat) (blk : Block) (j : Nat) : (s.setBuf b blk).fq j = s.fq j := rfl
@[simp] theorem State.setBuf_ht (b : Nat) (blk : Block) (i j : Nat) : (s.setBuf b blk).ht i j = s.ht i j := rfl
@[simp] theorem State.setBuf_valid (b : Nat) (blk : Block) (q : TableRef) : (s.setBuf b blk).valid q = s.valid q := rfl
@[simp] theorem State.setBuf_byteAt (b : Nat) (blk : Block) (a : Nat) : (s.setBuf b blk).byteAt a = s.byteAt a := rfl

/-! ## `setPred` -/

@[simp] theorem State.setPred_cfg (i : Nat) (v : Word) : (s.setPred i v).cfg = s.cfg := rfl
@[simp] theorem State.setPred_running (i : Nat) (v : Word) : (s.setPred i v).running = s.running := rfl
@[simp] theorem State.setPred_err (i : Nat) (v : Word) : (s.setPred i v).err = s.err := rfl
@[simp] theorem State.setPred_nobit (i : Nat) (v : Word) : (s.setPred i v).nobit = s.nobit := rfl
@[simp] theorem State.setPred_mstop (i : Nat) (v : Word) : (s.setPred i v).mstop = s.mstop := rfl
@[simp] theorem State.setPred_result (i : Nat) (v : Word) : (s.setPred i v).result = s.result := rfl
@[simp] theorem State.setPred_errcode (i : Nat) (v : Word) : (s.setPred i v).errcode = s.errcode := rfl
@[simp] theorem State.setPred_errinfo (i : Nat) (v : Word) : (s.setPred i v).errinfo = s.errinfo := rfl
@[simp] theorem State.setPred_errcmd (i : Nat) (v : Word) : (s.setPred i v).errcmd = s.errcmd := rfl
@[simp] theorem State.setPred_streamLen (i : Nat) (v : Word) : (s.setPred i v).streamLen = s.streamLen := rfl
@[simp] theorem State.setPred_br (i : Nat) (v : Word) : (s.setPred i v).br = s.br := rfl
@[simp] theorem State.setPred_tblptr (i : Nat) (v : Word) : (s.setPred i v).tblptr = s.tblptr := rfl
@[simp] theorem State.setPred_scan (i : Nat) (v : Word) : (s.setPred i v).scan = s.scan := rfl
@[simp] theorem State.setPred_eobrun (i : Nat) (v : Word) : (s.setPred i v).eobrun = s.eobrun := rfl
@[simp] theorem State.setPred_ac (i : Nat) (v : Word) : (s.setPred i v).ac = s.ac := rfl
@[simp] theorem State.setPred_pred (i : Nat) (v : Word) : (s.setPred i v).pred = put s.pred i v := rfl
@[simp] theorem State.setPred_tvalid (i : Nat) (v : Word) : (s.setPred i v).tvalid = s.tvalid := rfl
@[simp] theorem State.setPred_bufs (i : Nat) (v : Word) : (s.setPred i v).bufs = s.bufs := rfl
@[simp] theorem State.setPred_qts (i : Nat) (v : Word) : (s.setPred i v).qts = s.qts := rfl
@[simp] theorem State.setPred_fqs (i : Nat) (v : Word) : (s.setPred i v).fqs = s.fqs := rfl
@[simp] theorem State.setPred_hts (i : Nat) (v : Word) : (s.setPred i v).hts = s.hts := rfl
@[simp] theorem State.setPred_stream (i : Nat) (v : Word) : (s.setPred i v).stream = s.stream := rfl
@[simp] theorem State.setPred_host (i : Nat) (v : Word) : (s.setPred i v).host = s.host := rfl
@[simp] theorem State.setPred_replies (i : Nat) (v : Word) : (s.setPred i v).replies = s.replies := rfl
@[simp] theorem State.setPred_draws (i : Nat) (v : Word) : (s.setPred i v).draws = s.draws := rfl
@[simp] theorem State.setPred_memDraw (i : Nat) (v : Word) : (s.setPred i v).memDraw = s.memDraw := rfl
@[simp] theorem State.setPred_qtDraw (i : Nat) (v : Word) : (s.setPred i v).qtDraw = s.qtDraw := rfl
@[simp] theorem State.setPred_buf (i : Nat) (v : Word) (j : Nat) : (s.setPred i v).buf j = s.buf j := rfl
@[simp] theorem State.setPred_qt (i : Nat) (v : Word) (j : Nat) : (s.setPred i v).qt j = s.qt j := rfl
@[simp] theorem State.setPred_fq (i : Nat) (v : Word) (j : Nat) : (s.setPred i v).fq j = s.fq j := rfl
@[simp] theorem State.setPred_ht (i : Nat) (v : Word) (i' j : Nat) : (s.setPred i v).ht i' j = s.ht i' j := rfl
@[simp] theorem State.setPred_valid (i : Nat) (v : Word) (q : TableRef) : (s.setPred i v).valid q = s.valid q := rfl
@[simp] theorem State.setPred_byteAt (i : Nat) (v : Word) (a : Nat) : (s.setPred i v).byteAt a = s.byteAt a := rfl

/-! ## `setQt` -/

@[simp] theorem State.setQt_cfg (t : Nat) (v : Vector Half 64) : (s.setQt t v).cfg = s.cfg := rfl
@[simp] theorem State.setQt_running (t : Nat) (v : Vector Half 64) : (s.setQt t v).running = s.running := rfl
@[simp] theorem State.setQt_err (t : Nat) (v : Vector Half 64) : (s.setQt t v).err = s.err := rfl
@[simp] theorem State.setQt_nobit (t : Nat) (v : Vector Half 64) : (s.setQt t v).nobit = s.nobit := rfl
@[simp] theorem State.setQt_mstop (t : Nat) (v : Vector Half 64) : (s.setQt t v).mstop = s.mstop := rfl
@[simp] theorem State.setQt_result (t : Nat) (v : Vector Half 64) : (s.setQt t v).result = s.result := rfl
@[simp] theorem State.setQt_errcode (t : Nat) (v : Vector Half 64) : (s.setQt t v).errcode = s.errcode := rfl
@[simp] theorem State.setQt_errinfo (t : Nat) (v : Vector Half 64) : (s.setQt t v).errinfo = s.errinfo := rfl
@[simp] theorem State.setQt_errcmd (t : Nat) (v : Vector Half 64) : (s.setQt t v).errcmd = s.errcmd := rfl
@[simp] theorem State.setQt_streamLen (t : Nat) (v : Vector Half 64) : (s.setQt t v).streamLen = s.streamLen := rfl
@[simp] theorem State.setQt_br (t : Nat) (v : Vector Half 64) : (s.setQt t v).br = s.br := rfl
@[simp] theorem State.setQt_tblptr (t : Nat) (v : Vector Half 64) : (s.setQt t v).tblptr = s.tblptr := rfl
@[simp] theorem State.setQt_scan (t : Nat) (v : Vector Half 64) : (s.setQt t v).scan = s.scan := rfl
@[simp] theorem State.setQt_eobrun (t : Nat) (v : Vector Half 64) : (s.setQt t v).eobrun = s.eobrun := rfl
@[simp] theorem State.setQt_ac (t : Nat) (v : Vector Half 64) : (s.setQt t v).ac = s.ac := rfl
@[simp] theorem State.setQt_pred (t : Nat) (v : Vector Half 64) : (s.setQt t v).pred = s.pred := rfl
@[simp] theorem State.setQt_tvalid (t : Nat) (v : Vector Half 64) : (s.setQt t v).tvalid = s.tvalid := rfl
@[simp] theorem State.setQt_bufs (t : Nat) (v : Vector Half 64) : (s.setQt t v).bufs = s.bufs := rfl
@[simp] theorem State.setQt_qts (t : Nat) (v : Vector Half 64) : (s.setQt t v).qts = put s.qts t v := rfl
@[simp] theorem State.setQt_fqs (t : Nat) (v : Vector Half 64) : (s.setQt t v).fqs = s.fqs := rfl
@[simp] theorem State.setQt_hts (t : Nat) (v : Vector Half 64) : (s.setQt t v).hts = s.hts := rfl
@[simp] theorem State.setQt_stream (t : Nat) (v : Vector Half 64) : (s.setQt t v).stream = s.stream := rfl
@[simp] theorem State.setQt_host (t : Nat) (v : Vector Half 64) : (s.setQt t v).host = s.host := rfl
@[simp] theorem State.setQt_replies (t : Nat) (v : Vector Half 64) : (s.setQt t v).replies = s.replies := rfl
@[simp] theorem State.setQt_draws (t : Nat) (v : Vector Half 64) : (s.setQt t v).draws = s.draws := rfl
@[simp] theorem State.setQt_memDraw (t : Nat) (v : Vector Half 64) : (s.setQt t v).memDraw = s.memDraw := rfl
@[simp] theorem State.setQt_qtDraw (t : Nat) (v : Vector Half 64) : (s.setQt t v).qtDraw = s.qtDraw := rfl
@[simp] theorem State.setQt_buf (t : Nat) (v : Vector Half 64) (j : Nat) : (s.setQt t v).buf j = s.buf j := rfl
@[simp] theorem State.setQt_predAt (t : Nat) (v : Vector Half 64) (j : Nat) : (s.setQt t v).predAt j = s.predAt j := rfl
@[simp] theorem State.setQt_fq (t : Nat) (v : Vector Half 64) (j : Nat) : (s.setQt t v).fq j = s.fq j := rfl
@[simp] theorem State.setQt_ht (t : Nat) (v : Vector Half 64) (i j : Nat) : (s.setQt t v).ht i j = s.ht i j := rfl
@[simp] theorem State.setQt_valid (t : Nat) (v : Vector Half 64) (q : TableRef) : (s.setQt t v).valid q = s.valid q := rfl
@[simp] theorem State.setQt_byteAt (t : Nat) (v : Vector Half 64) (a : Nat) : (s.setQt t v).byteAt a = s.byteAt a := rfl

/-! ## `setFq` -/

@[simp] theorem State.setFq_cfg (t : Nat) (v : Vector F64 64) : (s.setFq t v).cfg = s.cfg := rfl
@[simp] theorem State.setFq_running (t : Nat) (v : Vector F64 64) : (s.setFq t v).running = s.running := rfl
@[simp] theorem State.setFq_err (t : Nat) (v : Vector F64 64) : (s.setFq t v).err = s.err := rfl
@[simp] theorem State.setFq_nobit (t : Nat) (v : Vector F64 64) : (s.setFq t v).nobit = s.nobit := rfl
@[simp] theorem State.setFq_mstop (t : Nat) (v : Vector F64 64) : (s.setFq t v).mstop = s.mstop := rfl
@[simp] theorem State.setFq_result (t : Nat) (v : Vector F64 64) : (s.setFq t v).result = s.result := rfl
@[simp] theorem State.setFq_errcode (t : Nat) (v : Vector F64 64) : (s.setFq t v).errcode = s.errcode := rfl
@[simp] theorem State.setFq_errinfo (t : Nat) (v : Vector F64 64) : (s.setFq t v).errinfo = s.errinfo := rfl
@[simp] theorem State.setFq_errcmd (t : Nat) (v : Vector F64 64) : (s.setFq t v).errcmd = s.errcmd := rfl
@[simp] theorem State.setFq_streamLen (t : Nat) (v : Vector F64 64) : (s.setFq t v).streamLen = s.streamLen := rfl
@[simp] theorem State.setFq_br (t : Nat) (v : Vector F64 64) : (s.setFq t v).br = s.br := rfl
@[simp] theorem State.setFq_tblptr (t : Nat) (v : Vector F64 64) : (s.setFq t v).tblptr = s.tblptr := rfl
@[simp] theorem State.setFq_scan (t : Nat) (v : Vector F64 64) : (s.setFq t v).scan = s.scan := rfl
@[simp] theorem State.setFq_eobrun (t : Nat) (v : Vector F64 64) : (s.setFq t v).eobrun = s.eobrun := rfl
@[simp] theorem State.setFq_ac (t : Nat) (v : Vector F64 64) : (s.setFq t v).ac = s.ac := rfl
@[simp] theorem State.setFq_pred (t : Nat) (v : Vector F64 64) : (s.setFq t v).pred = s.pred := rfl
@[simp] theorem State.setFq_tvalid (t : Nat) (v : Vector F64 64) : (s.setFq t v).tvalid = s.tvalid := rfl
@[simp] theorem State.setFq_bufs (t : Nat) (v : Vector F64 64) : (s.setFq t v).bufs = s.bufs := rfl
@[simp] theorem State.setFq_qts (t : Nat) (v : Vector F64 64) : (s.setFq t v).qts = s.qts := rfl
@[simp] theorem State.setFq_fqs (t : Nat) (v : Vector F64 64) : (s.setFq t v).fqs = put s.fqs t v := rfl
@[simp] theorem State.setFq_hts (t : Nat) (v : Vector F64 64) : (s.setFq t v).hts = s.hts := rfl
@[simp] theorem State.setFq_stream (t : Nat) (v : Vector F64 64) : (s.setFq t v).stream = s.stream := rfl
@[simp] theorem State.setFq_host (t : Nat) (v : Vector F64 64) : (s.setFq t v).host = s.host := rfl
@[simp] theorem State.setFq_replies (t : Nat) (v : Vector F64 64) : (s.setFq t v).replies = s.replies := rfl
@[simp] theorem State.setFq_draws (t : Nat) (v : Vector F64 64) : (s.setFq t v).draws = s.draws := rfl
@[simp] theorem State.setFq_memDraw (t : Nat) (v : Vector F64 64) : (s.setFq t v).memDraw = s.memDraw := rfl
@[simp] theorem State.setFq_qtDraw (t : Nat) (v : Vector F64 64) : (s.setFq t v).qtDraw = s.qtDraw := rfl
@[simp] theorem State.setFq_buf (t : Nat) (v : Vector F64 64) (j : Nat) : (s.setFq t v).buf j = s.buf j := rfl
@[simp] theorem State.setFq_predAt (t : Nat) (v : Vector F64 64) (j : Nat) : (s.setFq t v).predAt j = s.predAt j := rfl
@[simp] theorem State.setFq_qt (t : Nat) (v : Vector F64 64) (j : Nat) : (s.setFq t v).qt j = s.qt j := rfl
@[simp] theorem State.setFq_ht (t : Nat) (v : Vector F64 64) (i j : Nat) : (s.setFq t v).ht i j = s.ht i j := rfl
@[simp] theorem State.setFq_valid (t : Nat) (v : Vector F64 64) (q : TableRef) : (s.setFq t v).valid q = s.valid q := rfl
@[simp] theorem State.setFq_byteAt (t : Nat) (v : Vector F64 64) (a : Nat) : (s.setFq t v).byteAt a = s.byteAt a := rfl

/-! ## `setHt` -/

@[simp] theorem State.setHt_cfg (c k : Nat) (v : HuffTable) : (s.setHt c k v).cfg = s.cfg := rfl
@[simp] theorem State.setHt_running (c k : Nat) (v : HuffTable) : (s.setHt c k v).running = s.running := rfl
@[simp] theorem State.setHt_err (c k : Nat) (v : HuffTable) : (s.setHt c k v).err = s.err := rfl
@[simp] theorem State.setHt_nobit (c k : Nat) (v : HuffTable) : (s.setHt c k v).nobit = s.nobit := rfl
@[simp] theorem State.setHt_mstop (c k : Nat) (v : HuffTable) : (s.setHt c k v).mstop = s.mstop := rfl
@[simp] theorem State.setHt_result (c k : Nat) (v : HuffTable) : (s.setHt c k v).result = s.result := rfl
@[simp] theorem State.setHt_errcode (c k : Nat) (v : HuffTable) : (s.setHt c k v).errcode = s.errcode := rfl
@[simp] theorem State.setHt_errinfo (c k : Nat) (v : HuffTable) : (s.setHt c k v).errinfo = s.errinfo := rfl
@[simp] theorem State.setHt_errcmd (c k : Nat) (v : HuffTable) : (s.setHt c k v).errcmd = s.errcmd := rfl
@[simp] theorem State.setHt_streamLen (c k : Nat) (v : HuffTable) : (s.setHt c k v).streamLen = s.streamLen := rfl
@[simp] theorem State.setHt_br (c k : Nat) (v : HuffTable) : (s.setHt c k v).br = s.br := rfl
@[simp] theorem State.setHt_tblptr (c k : Nat) (v : HuffTable) : (s.setHt c k v).tblptr = s.tblptr := rfl
@[simp] theorem State.setHt_scan (c k : Nat) (v : HuffTable) : (s.setHt c k v).scan = s.scan := rfl
@[simp] theorem State.setHt_eobrun (c k : Nat) (v : HuffTable) : (s.setHt c k v).eobrun = s.eobrun := rfl
@[simp] theorem State.setHt_ac (c k : Nat) (v : HuffTable) : (s.setHt c k v).ac = s.ac := rfl
@[simp] theorem State.setHt_pred (c k : Nat) (v : HuffTable) : (s.setHt c k v).pred = s.pred := rfl
@[simp] theorem State.setHt_tvalid (c k : Nat) (v : HuffTable) : (s.setHt c k v).tvalid = s.tvalid := rfl
@[simp] theorem State.setHt_bufs (c k : Nat) (v : HuffTable) : (s.setHt c k v).bufs = s.bufs := rfl
@[simp] theorem State.setHt_qts (c k : Nat) (v : HuffTable) : (s.setHt c k v).qts = s.qts := rfl
@[simp] theorem State.setHt_fqs (c k : Nat) (v : HuffTable) : (s.setHt c k v).fqs = s.fqs := rfl
@[simp] theorem State.setHt_hts (c k : Nat) (v : HuffTable) : (s.setHt c k v).hts = put s.hts (4 * c + k) v := rfl
@[simp] theorem State.setHt_stream (c k : Nat) (v : HuffTable) : (s.setHt c k v).stream = s.stream := rfl
@[simp] theorem State.setHt_host (c k : Nat) (v : HuffTable) : (s.setHt c k v).host = s.host := rfl
@[simp] theorem State.setHt_replies (c k : Nat) (v : HuffTable) : (s.setHt c k v).replies = s.replies := rfl
@[simp] theorem State.setHt_draws (c k : Nat) (v : HuffTable) : (s.setHt c k v).draws = s.draws := rfl
@[simp] theorem State.setHt_memDraw (c k : Nat) (v : HuffTable) : (s.setHt c k v).memDraw = s.memDraw := rfl
@[simp] theorem State.setHt_qtDraw (c k : Nat) (v : HuffTable) : (s.setHt c k v).qtDraw = s.qtDraw := rfl
@[simp] theorem State.setHt_buf (c k : Nat) (v : HuffTable) (j : Nat) : (s.setHt c k v).buf j = s.buf j := rfl
@[simp] theorem State.setHt_predAt (c k : Nat) (v : HuffTable) (j : Nat) : (s.setHt c k v).predAt j = s.predAt j := rfl
@[simp] theorem State.setHt_qt (c k : Nat) (v : HuffTable) (j : Nat) : (s.setHt c k v).qt j = s.qt j := rfl
@[simp] theorem State.setHt_fq (c k : Nat) (v : HuffTable) (j : Nat) : (s.setHt c k v).fq j = s.fq j := rfl
@[simp] theorem State.setHt_valid (c k : Nat) (v : HuffTable) (q : TableRef) : (s.setHt c k v).valid q = s.valid q := rfl
@[simp] theorem State.setHt_byteAt (c k : Nat) (v : HuffTable) (a : Nat) : (s.setHt c k v).byteAt a = s.byteAt a := rfl

/-! ## `setByte` -/

@[simp] theorem State.setByte_cfg (o : Nat) (v : Byte) : (s.setByte o v).cfg = s.cfg := rfl
@[simp] theorem State.setByte_running (o : Nat) (v : Byte) : (s.setByte o v).running = s.running := rfl
@[simp] theorem State.setByte_err (o : Nat) (v : Byte) : (s.setByte o v).err = s.err := rfl
@[simp] theorem State.setByte_nobit (o : Nat) (v : Byte) : (s.setByte o v).nobit = s.nobit := rfl
@[simp] theorem State.setByte_mstop (o : Nat) (v : Byte) : (s.setByte o v).mstop = s.mstop := rfl
@[simp] theorem State.setByte_result (o : Nat) (v : Byte) : (s.setByte o v).result = s.result := rfl
@[simp] theorem State.setByte_errcode (o : Nat) (v : Byte) : (s.setByte o v).errcode = s.errcode := rfl
@[simp] theorem State.setByte_errinfo (o : Nat) (v : Byte) : (s.setByte o v).errinfo = s.errinfo := rfl
@[simp] theorem State.setByte_errcmd (o : Nat) (v : Byte) : (s.setByte o v).errcmd = s.errcmd := rfl
@[simp] theorem State.setByte_streamLen (o : Nat) (v : Byte) : (s.setByte o v).streamLen = s.streamLen := rfl
@[simp] theorem State.setByte_br (o : Nat) (v : Byte) : (s.setByte o v).br = s.br := rfl
@[simp] theorem State.setByte_tblptr (o : Nat) (v : Byte) : (s.setByte o v).tblptr = s.tblptr := rfl
@[simp] theorem State.setByte_scan (o : Nat) (v : Byte) : (s.setByte o v).scan = s.scan := rfl
@[simp] theorem State.setByte_eobrun (o : Nat) (v : Byte) : (s.setByte o v).eobrun = s.eobrun := rfl
@[simp] theorem State.setByte_ac (o : Nat) (v : Byte) : (s.setByte o v).ac = s.ac := rfl
@[simp] theorem State.setByte_pred (o : Nat) (v : Byte) : (s.setByte o v).pred = s.pred := rfl
@[simp] theorem State.setByte_tvalid (o : Nat) (v : Byte) : (s.setByte o v).tvalid = s.tvalid := rfl
@[simp] theorem State.setByte_bufs (o : Nat) (v : Byte) : (s.setByte o v).bufs = s.bufs := rfl
@[simp] theorem State.setByte_qts (o : Nat) (v : Byte) : (s.setByte o v).qts = s.qts := rfl
@[simp] theorem State.setByte_fqs (o : Nat) (v : Byte) : (s.setByte o v).fqs = s.fqs := rfl
@[simp] theorem State.setByte_hts (o : Nat) (v : Byte) : (s.setByte o v).hts = s.hts := rfl
@[simp] theorem State.setByte_stream (o : Nat) (v : Byte) : (s.setByte o v).stream = Memory.set s.stream o v := rfl
@[simp] theorem State.setByte_host (o : Nat) (v : Byte) : (s.setByte o v).host = s.host := rfl
@[simp] theorem State.setByte_replies (o : Nat) (v : Byte) : (s.setByte o v).replies = s.replies := rfl
@[simp] theorem State.setByte_draws (o : Nat) (v : Byte) : (s.setByte o v).draws = s.draws := rfl
@[simp] theorem State.setByte_memDraw (o : Nat) (v : Byte) : (s.setByte o v).memDraw = s.memDraw := rfl
@[simp] theorem State.setByte_qtDraw (o : Nat) (v : Byte) : (s.setByte o v).qtDraw = s.qtDraw := rfl
@[simp] theorem State.setByte_buf (o : Nat) (v : Byte) (j : Nat) : (s.setByte o v).buf j = s.buf j := rfl
@[simp] theorem State.setByte_predAt (o : Nat) (v : Byte) (j : Nat) : (s.setByte o v).predAt j = s.predAt j := rfl
@[simp] theorem State.setByte_qt (o : Nat) (v : Byte) (j : Nat) : (s.setByte o v).qt j = s.qt j := rfl
@[simp] theorem State.setByte_fq (o : Nat) (v : Byte) (j : Nat) : (s.setByte o v).fq j = s.fq j := rfl
@[simp] theorem State.setByte_ht (o : Nat) (v : Byte) (i j : Nat) : (s.setByte o v).ht i j = s.ht i j := rfl
@[simp] theorem State.setByte_valid (o : Nat) (v : Byte) (q : TableRef) : (s.setByte o v).valid q = s.valid q := rfl

/-! ## `setNobit` -/

@[simp] theorem State.setNobit_cfg (x : Bool) : (s.setNobit x).cfg = s.cfg := rfl
@[simp] theorem State.setNobit_running (x : Bool) : (s.setNobit x).running = s.running := rfl
@[simp] theorem State.setNobit_err (x : Bool) : (s.setNobit x).err = s.err := rfl
@[simp] theorem State.setNobit_nobit (x : Bool) : (s.setNobit x).nobit = x := rfl
@[simp] theorem State.setNobit_mstop (x : Bool) : (s.setNobit x).mstop = s.mstop := rfl
@[simp] theorem State.setNobit_result (x : Bool) : (s.setNobit x).result = s.result := rfl
@[simp] theorem State.setNobit_errcode (x : Bool) : (s.setNobit x).errcode = s.errcode := rfl
@[simp] theorem State.setNobit_errinfo (x : Bool) : (s.setNobit x).errinfo = s.errinfo := rfl
@[simp] theorem State.setNobit_errcmd (x : Bool) : (s.setNobit x).errcmd = s.errcmd := rfl
@[simp] theorem State.setNobit_streamLen (x : Bool) : (s.setNobit x).streamLen = s.streamLen := rfl
@[simp] theorem State.setNobit_br (x : Bool) : (s.setNobit x).br = s.br := rfl
@[simp] theorem State.setNobit_tblptr (x : Bool) : (s.setNobit x).tblptr = s.tblptr := rfl
@[simp] theorem State.setNobit_scan (x : Bool) : (s.setNobit x).scan = s.scan := rfl
@[simp] theorem State.setNobit_eobrun (x : Bool) : (s.setNobit x).eobrun = s.eobrun := rfl
@[simp] theorem State.setNobit_ac (x : Bool) : (s.setNobit x).ac = s.ac := rfl
@[simp] theorem State.setNobit_pred (x : Bool) : (s.setNobit x).pred = s.pred := rfl
@[simp] theorem State.setNobit_tvalid (x : Bool) : (s.setNobit x).tvalid = s.tvalid := rfl
@[simp] theorem State.setNobit_bufs (x : Bool) : (s.setNobit x).bufs = s.bufs := rfl
@[simp] theorem State.setNobit_qts (x : Bool) : (s.setNobit x).qts = s.qts := rfl
@[simp] theorem State.setNobit_fqs (x : Bool) : (s.setNobit x).fqs = s.fqs := rfl
@[simp] theorem State.setNobit_hts (x : Bool) : (s.setNobit x).hts = s.hts := rfl
@[simp] theorem State.setNobit_stream (x : Bool) : (s.setNobit x).stream = s.stream := rfl
@[simp] theorem State.setNobit_host (x : Bool) : (s.setNobit x).host = s.host := rfl
@[simp] theorem State.setNobit_replies (x : Bool) : (s.setNobit x).replies = s.replies := rfl
@[simp] theorem State.setNobit_draws (x : Bool) : (s.setNobit x).draws = s.draws := rfl
@[simp] theorem State.setNobit_memDraw (x : Bool) : (s.setNobit x).memDraw = s.memDraw := rfl
@[simp] theorem State.setNobit_qtDraw (x : Bool) : (s.setNobit x).qtDraw = s.qtDraw := rfl
@[simp] theorem State.setNobit_buf (x : Bool) (j : Nat) : (s.setNobit x).buf j = s.buf j := rfl
@[simp] theorem State.setNobit_predAt (x : Bool) (j : Nat) : (s.setNobit x).predAt j = s.predAt j := rfl
@[simp] theorem State.setNobit_qt (x : Bool) (j : Nat) : (s.setNobit x).qt j = s.qt j := rfl
@[simp] theorem State.setNobit_fq (x : Bool) (j : Nat) : (s.setNobit x).fq j = s.fq j := rfl
@[simp] theorem State.setNobit_ht (x : Bool) (i j : Nat) : (s.setNobit x).ht i j = s.ht i j := rfl
@[simp] theorem State.setNobit_valid (x : Bool) (q : TableRef) : (s.setNobit x).valid q = s.valid q := rfl
@[simp] theorem State.setNobit_byteAt (x : Bool) (a : Nat) : (s.setNobit x).byteAt a = s.byteAt a := rfl

/-! ## `setMstop` -/

@[simp] theorem State.setMstop_cfg (x : Bool) : (s.setMstop x).cfg = s.cfg := rfl
@[simp] theorem State.setMstop_running (x : Bool) : (s.setMstop x).running = s.running := rfl
@[simp] theorem State.setMstop_err (x : Bool) : (s.setMstop x).err = s.err := rfl
@[simp] theorem State.setMstop_nobit (x : Bool) : (s.setMstop x).nobit = s.nobit := rfl
@[simp] theorem State.setMstop_mstop (x : Bool) : (s.setMstop x).mstop = x := rfl
@[simp] theorem State.setMstop_result (x : Bool) : (s.setMstop x).result = s.result := rfl
@[simp] theorem State.setMstop_errcode (x : Bool) : (s.setMstop x).errcode = s.errcode := rfl
@[simp] theorem State.setMstop_errinfo (x : Bool) : (s.setMstop x).errinfo = s.errinfo := rfl
@[simp] theorem State.setMstop_errcmd (x : Bool) : (s.setMstop x).errcmd = s.errcmd := rfl
@[simp] theorem State.setMstop_streamLen (x : Bool) : (s.setMstop x).streamLen = s.streamLen := rfl
@[simp] theorem State.setMstop_br (x : Bool) : (s.setMstop x).br = s.br := rfl
@[simp] theorem State.setMstop_tblptr (x : Bool) : (s.setMstop x).tblptr = s.tblptr := rfl
@[simp] theorem State.setMstop_scan (x : Bool) : (s.setMstop x).scan = s.scan := rfl
@[simp] theorem State.setMstop_eobrun (x : Bool) : (s.setMstop x).eobrun = s.eobrun := rfl
@[simp] theorem State.setMstop_ac (x : Bool) : (s.setMstop x).ac = s.ac := rfl
@[simp] theorem State.setMstop_pred (x : Bool) : (s.setMstop x).pred = s.pred := rfl
@[simp] theorem State.setMstop_tvalid (x : Bool) : (s.setMstop x).tvalid = s.tvalid := rfl
@[simp] theorem State.setMstop_bufs (x : Bool) : (s.setMstop x).bufs = s.bufs := rfl
@[simp] theorem State.setMstop_qts (x : Bool) : (s.setMstop x).qts = s.qts := rfl
@[simp] theorem State.setMstop_fqs (x : Bool) : (s.setMstop x).fqs = s.fqs := rfl
@[simp] theorem State.setMstop_hts (x : Bool) : (s.setMstop x).hts = s.hts := rfl
@[simp] theorem State.setMstop_stream (x : Bool) : (s.setMstop x).stream = s.stream := rfl
@[simp] theorem State.setMstop_host (x : Bool) : (s.setMstop x).host = s.host := rfl
@[simp] theorem State.setMstop_replies (x : Bool) : (s.setMstop x).replies = s.replies := rfl
@[simp] theorem State.setMstop_draws (x : Bool) : (s.setMstop x).draws = s.draws := rfl
@[simp] theorem State.setMstop_memDraw (x : Bool) : (s.setMstop x).memDraw = s.memDraw := rfl
@[simp] theorem State.setMstop_qtDraw (x : Bool) : (s.setMstop x).qtDraw = s.qtDraw := rfl
@[simp] theorem State.setMstop_buf (x : Bool) (j : Nat) : (s.setMstop x).buf j = s.buf j := rfl
@[simp] theorem State.setMstop_predAt (x : Bool) (j : Nat) : (s.setMstop x).predAt j = s.predAt j := rfl
@[simp] theorem State.setMstop_qt (x : Bool) (j : Nat) : (s.setMstop x).qt j = s.qt j := rfl
@[simp] theorem State.setMstop_fq (x : Bool) (j : Nat) : (s.setMstop x).fq j = s.fq j := rfl
@[simp] theorem State.setMstop_ht (x : Bool) (i j : Nat) : (s.setMstop x).ht i j = s.ht i j := rfl
@[simp] theorem State.setMstop_valid (x : Bool) (q : TableRef) : (s.setMstop x).valid q = s.valid q := rfl
@[simp] theorem State.setMstop_byteAt (x : Bool) (a : Nat) : (s.setMstop x).byteAt a = s.byteAt a := rfl

/-! ## `setValid` -/

@[simp] theorem State.setValid_cfg (r : TableRef) (x : Bool) : (s.setValid r x).cfg = s.cfg := rfl
@[simp] theorem State.setValid_running (r : TableRef) (x : Bool) : (s.setValid r x).running = s.running := rfl
@[simp] theorem State.setValid_err (r : TableRef) (x : Bool) : (s.setValid r x).err = s.err := rfl
@[simp] theorem State.setValid_nobit (r : TableRef) (x : Bool) : (s.setValid r x).nobit = s.nobit := rfl
@[simp] theorem State.setValid_mstop (r : TableRef) (x : Bool) : (s.setValid r x).mstop = s.mstop := rfl
@[simp] theorem State.setValid_result (r : TableRef) (x : Bool) : (s.setValid r x).result = s.result := rfl
@[simp] theorem State.setValid_errcode (r : TableRef) (x : Bool) : (s.setValid r x).errcode = s.errcode := rfl
@[simp] theorem State.setValid_errinfo (r : TableRef) (x : Bool) : (s.setValid r x).errinfo = s.errinfo := rfl
@[simp] theorem State.setValid_errcmd (r : TableRef) (x : Bool) : (s.setValid r x).errcmd = s.errcmd := rfl
@[simp] theorem State.setValid_streamLen (r : TableRef) (x : Bool) : (s.setValid r x).streamLen = s.streamLen := rfl
@[simp] theorem State.setValid_br (r : TableRef) (x : Bool) : (s.setValid r x).br = s.br := rfl
@[simp] theorem State.setValid_tblptr (r : TableRef) (x : Bool) : (s.setValid r x).tblptr = s.tblptr := rfl
@[simp] theorem State.setValid_scan (r : TableRef) (x : Bool) : (s.setValid r x).scan = s.scan := rfl
@[simp] theorem State.setValid_eobrun (r : TableRef) (x : Bool) : (s.setValid r x).eobrun = s.eobrun := rfl
@[simp] theorem State.setValid_ac (r : TableRef) (x : Bool) : (s.setValid r x).ac = s.ac := rfl
@[simp] theorem State.setValid_pred (r : TableRef) (x : Bool) : (s.setValid r x).pred = s.pred := rfl
@[simp] theorem State.setValid_tvalid (r : TableRef) (x : Bool) : (s.setValid r x).tvalid =
    if x then s.tvalid ||| BitVec.twoPow 16 r.bit else s.tvalid &&& ~~~ BitVec.twoPow 16 r.bit := rfl
@[simp] theorem State.setValid_bufs (r : TableRef) (x : Bool) : (s.setValid r x).bufs = s.bufs := rfl
@[simp] theorem State.setValid_qts (r : TableRef) (x : Bool) : (s.setValid r x).qts = s.qts := rfl
@[simp] theorem State.setValid_fqs (r : TableRef) (x : Bool) : (s.setValid r x).fqs = s.fqs := rfl
@[simp] theorem State.setValid_hts (r : TableRef) (x : Bool) : (s.setValid r x).hts = s.hts := rfl
@[simp] theorem State.setValid_stream (r : TableRef) (x : Bool) : (s.setValid r x).stream = s.stream := rfl
@[simp] theorem State.setValid_host (r : TableRef) (x : Bool) : (s.setValid r x).host = s.host := rfl
@[simp] theorem State.setValid_replies (r : TableRef) (x : Bool) : (s.setValid r x).replies = s.replies := rfl
@[simp] theorem State.setValid_draws (r : TableRef) (x : Bool) : (s.setValid r x).draws = s.draws := rfl
@[simp] theorem State.setValid_memDraw (r : TableRef) (x : Bool) : (s.setValid r x).memDraw = s.memDraw := rfl
@[simp] theorem State.setValid_qtDraw (r : TableRef) (x : Bool) : (s.setValid r x).qtDraw = s.qtDraw := rfl
@[simp] theorem State.setValid_buf (r : TableRef) (x : Bool) (j : Nat) : (s.setValid r x).buf j = s.buf j := rfl
@[simp] theorem State.setValid_predAt (r : TableRef) (x : Bool) (j : Nat) : (s.setValid r x).predAt j = s.predAt j := rfl
@[simp] theorem State.setValid_qt (r : TableRef) (x : Bool) (j : Nat) : (s.setValid r x).qt j = s.qt j := rfl
@[simp] theorem State.setValid_fq (r : TableRef) (x : Bool) (j : Nat) : (s.setValid r x).fq j = s.fq j := rfl
@[simp] theorem State.setValid_ht (r : TableRef) (x : Bool) (i j : Nat) : (s.setValid r x).ht i j = s.ht i j := rfl
@[simp] theorem State.setValid_byteAt (r : TableRef) (x : Bool) (a : Nat) : (s.setValid r x).byteAt a = s.byteAt a := rfl

/-! ## An accessor after the update of its own field -/

@[simp] theorem State.buf_setBuf_same {b : Nat} (h : b < 8) (blk : Block) : (s.setBuf b blk).buf b = blk :=
  nth_put_same _ _ h

theorem State.buf_setBuf_other {b c : Nat} (h : c ≠ b) (blk : Block) : (s.setBuf b blk).buf c = s.buf c :=
  nth_put_other _ _ h

@[simp] theorem State.predAt_setPred_same {i : Nat} (h : i < 4) (v : Word) : (s.setPred i v).predAt i = v :=
  nth_put_same _ _ h

theorem State.predAt_setPred_other {i j : Nat} (h : j ≠ i) (v : Word) : (s.setPred i v).predAt j = s.predAt j :=
  nth_put_other _ _ h

@[simp] theorem State.qt_setQt_same {t : Nat} (h : t < 4) (v : Vector Half 64) : (s.setQt t v).qt t = v :=
  nth_put_same _ _ h

theorem State.qt_setQt_other {t k : Nat} (h : k ≠ t) (v : Vector Half 64) : (s.setQt t v).qt k = s.qt k :=
  nth_put_other _ _ h

@[simp] theorem State.fq_setFq_same {t : Nat} (h : t < 4) (v : Vector F64 64) : (s.setFq t v).fq t = v :=
  nth_put_same _ _ h

theorem State.fq_setFq_other {t k : Nat} (h : k ≠ t) (v : Vector F64 64) : (s.setFq t v).fq k = s.fq k :=
  nth_put_other _ _ h

@[simp] theorem State.ht_setHt_same {c k : Nat} (hc : c < 2) (hk : k < 4) (v : HuffTable) :
    (s.setHt c k v).ht c k = v := by
  have : 4 * c + k < 8 := by omega
  simp [State.ht, List.getD_eq_getElem?_getD, this]

theorem State.ht_setHt_other {c k c' k' : Nat} (h : 4 * c' + k' ≠ 4 * c + k) (v : HuffTable) :
    (s.setHt c k v).ht c' k' = s.ht c' k' := by
  simp [State.ht, List.getD_eq_getElem?_getD, List.getElem?_set_ne h.symm]

/-! ## Valid bits -/

/-- A slot a command can name has a bit of its own in `TVALID`. -/
def TableRef.legal : TableRef → Bool
  | .huff c k => decide (c < 2) && decide (k < 4)
  | .quant t => decide (t < 4)
  | .recip t => decide (t < 4)

theorem TableRef.bit_lt {r : TableRef} (h : r.legal = true) : r.bit < 16 := by
  cases r <;> simp [TableRef.legal, TableRef.bit] at * <;> omega

theorem TableRef.bit_inj {q r : TableRef} (hq : q.legal = true) (hr : r.legal = true) (h : q.bit = r.bit) :
    q = r := by
  cases q <;> cases r <;> simp [TableRef.legal, TableRef.bit] at * <;> omega

theorem State.valid_setValid_same {r : TableRef} (h : r.legal = true) (x : Bool) :
    (s.setValid r x).valid r = x := by
  have := TableRef.bit_lt h
  cases x <;> simp [State.valid, this]

theorem State.valid_setValid_other {q r : TableRef} (hq : q.legal = true) (hr : r.legal = true) (h : q ≠ r)
    (x : Bool) : (s.setValid r x).valid q = s.valid q := by
  have hb : q.bit ≠ r.bit := fun e => h (TableRef.bit_inj hq hr e)
  have := TableRef.bit_lt hq
  cases x <;> simp [State.valid, hb, this]

end Sys2Proof.Machine
end

