-- ==== Sys2Proof/Laws/Memory.lean ====
section
/-!
SUPPORT. The laws of stream memory: a read after a write, and that a write keeps the canonical form.
-/

namespace Sys2Proof.Machine

namespace Memory

@[simp] theorem get_set_same (m : List Host.Cell) (a : Nat) (v : Byte) : get (set m a v) a = some v := by
  induction m with
  | nil => simp [set, get]
  | cons x m ih =>
    obtain ⟨b, w⟩ := x
    rw [set]
    split_ifs <;> simp [get, *]

theorem get_set_other (m : List Host.Cell) {a c : Nat} (v : Byte) (h : c ≠ a) :
    get (set m a v) c = get m c := by
  induction m with
  | nil => simp [set, get, h]
  | cons x m ih =>
    obtain ⟨b, w⟩ := x
    rw [set]
    split_ifs with h1 h2
    · subst h1; simp [get, h]
    · by_cases h3 : c < a
      · have : c ≠ b := by omega
        have : c < b := by omega
        simp [get, *]
      · simp [get, h, h3]
    · simp [get, ih]

theorem mem_set {m : List Host.Cell} {a : Nat} {v : Byte} {x : Host.Cell} (h : x ∈ set m a v) :
    x = (a, v) ∨ x ∈ m := by
  induction m with
  | nil => exact .inl (by simpa [set] using h)
  | cons y m ih =>
    obtain ⟨b, w⟩ := y
    rw [set] at h
    split_ifs at h
    · rcases List.mem_cons.1 h with h | h
      · exact .inl h
      · exact .inr (List.mem_cons_of_mem _ h)
    · rcases List.mem_cons.1 h with h | h
      · exact .inl h
      · exact .inr h
    · rcases List.mem_cons.1 h with h | h
      · exact .inr (h ▸ List.mem_cons_self)
      · exact (ih h).imp_right (List.mem_cons_of_mem _)

theorem wf_iff (m : List Host.Cell) : wf m = true ↔ m.Pairwise fun x y => x.1 < y.1 := by simp [wf]

/-- A write keeps the canonical form. -/
theorem set_wf {m : List Host.Cell} (a : Nat) (v : Byte) (h : wf m = true) : wf (set m a v) = true := by
  rw [wf_iff] at *
  induction m with
  | nil => simp [set]
  | cons y m ih =>
    obtain ⟨b, w⟩ := y
    rw [List.pairwise_cons] at h
    rw [set]
    split_ifs with h1 h2
    · subst h1; exact List.pairwise_cons.2 h
    · refine List.pairwise_cons.2 ⟨?_, List.pairwise_cons.2 h⟩
      intro x hx
      rcases List.mem_cons.1 hx with rfl | hx
      · exact h2
      · exact lt_trans h2 (h.1 x hx)
    · refine List.pairwise_cons.2 ⟨?_, ih h.2⟩
      intro x hx
      rcases mem_set hx with rfl | hx
      · show b < a; omega
      · exact h.1 x hx

end Memory

@[simp] theorem State.byteAt_setByte_same (s : State) (a : Nat) (v : Byte) : (s.setByte a v).byteAt a = v := by
  simp [State.byteAt]

theorem State.byteAt_setByte_other (s : State) {a c : Nat} (v : Byte) (h : c ≠ a) :
    (s.setByte a v).byteAt c = s.byteAt c := by
  simp [State.byteAt, Memory.get_set_other _ _ h]

/-- `StreamByte` sees the stream only through its length and the bytes below it (00_scope R10). -/
theorem State.streamByte_congr {s t : State} (hl : t.streamLen = s.streamLen)
    (hb : ∀ o < s.streamLen.toNat, t.byteAt o = s.byteAt o) : t.streamByte = s.streamByte := by
  funext o
  simp only [State.streamByte, hl]
  split_ifs with h
  · rw [hb o h]
  · rfl

theorem State.reset_memory_wf : Memory.wf State.reset.stream = true := rfl

end Sys2Proof.Machine
end

