-- ==== Sys2Proof/Laws/Ops.lean ====
section
/-!
SUPPORT. What the shared operations can do: taking an error, making a write set unspecified, the resets, and the
frame that every command runs in.
-/

namespace Sys2Proof.Machine

/-! ## Recording an error -/

theorem recordError_of_no_error {s : State} (h : s.err = false) (e : CmdError) (w : Word) :
    recordError e w s = withError e w s := by
  simp [recordError, withError, h]

theorem recordError_of_error {s : State} (h : s.err = true) (e : CmdError) (w : Word) :
    recordError e w s = s := by
  simp [recordError, h]

/-- Everything that recording an error can do. -/
theorem recordError_cases (e : CmdError) (w : Word) (s : State) :
    (s.err = true ∧ recordError e w s = s) ∨ (s.err = false ∧ recordError e w s = withError e w s) := by
  cases h : s.err
  · exact .inr ⟨rfl, recordError_of_no_error h e w⟩
  · exact .inl ⟨rfl, recordError_of_error h e w⟩

/-- R300: "Codes 12..255 are not used", and 0 is no error. -/
theorem ErrKind.code_range (k : ErrKind) : 1 ≤ k.code.toNat ∧ k.code.toNat ≤ 11 := by
  cases k <;> decide

/-! ## Decode checks -/

theorem decodeError_none {i : Instr} {s : State} (hw : i.wellFormed = true)
    (ht : ∀ r ∈ neededTables i, s.valid r = true) : decodeError i s = none := by
  have : (neededTables i).find? (fun r => !s.valid r) = none := by
    rw [List.find?_eq_none]
    intro r hr
    simp [ht r hr]
  simp [decodeError, hw, this]

theorem decodeError_missing {i : Instr} {s : State} {r : TableRef} (hw : i.wellFormed = true)
    (h : (neededTables i).find? (fun r => !s.valid r) = some r) :
    decodeError i s = some ⟨.tableUndefined, r.id⟩ := by
  simp [decodeError, hw, h]

/-- The decode checks pass exactly for a well-formed command whose tables are loaded (R95). -/
theorem decodeError_none_iff (i : Instr) (s : State) :
    decodeError i s = none ↔ i.wellFormed = true ∧ ∀ r ∈ neededTables i, s.valid r = true := by
  refine ⟨fun h => ?_, fun h => decodeError_none h.1 h.2⟩
  by_cases hw : i.wellFormed = true
  · refine ⟨hw, ?_⟩
    simpa [decodeError, hw, List.find?_eq_none] using h
  · simp [decodeError, hw] at h

/-! ## The frame of a command -/

theorem runCommand_ok {i : Instr} {body : State → Except CmdError State} {s s' : State}
    (hw : i.wellFormed = true) (ht : ∀ r ∈ neededTables i, s.valid r = true) (hb : body s = .ok s') :
    runCommand i body s = .next s' := by
  simp [runCommand, decodeError_none hw ht, hb]

theorem runCommand_error {i : Instr} {body : State → Except CmdError State} {s : State} {e : CmdError}
    (hw : i.wellFormed = true) (ht : ∀ r ∈ neededTables i, s.valid r = true) (hb : body s = .error e) :
    runCommand i body s = .next (raiseInExecution i e s) := by
  simp [runCommand, decodeError_none hw ht, hb]

theorem runCommand_decode {i : Instr} (body : State → Except CmdError State) {s : State} {e : CmdError}
    (h : decodeError i s = some e) : runCommand i body s = .next (recordError e (encode i) s) := by
  simp [runCommand, h, raiseAtDecode]

/-- Everything that a command can do: an error at decode, its own effect, or an error in execution. -/
theorem runCommand_cases {i : Instr} {body : State → Except CmdError State} {s t : State}
    (h : runCommand i body s = .next t) :
    (∃ e, decodeError i s = some e ∧ t = recordError e (encode i) s) ∨
    (i.wellFormed = true ∧ (∀ r ∈ neededTables i, s.valid r = true) ∧
      (body s = .ok t ∨ ∃ e, body s = .error e ∧ t = raiseInExecution i e s)) := by
  cases hd : decodeError i s with
  | some e =>
    rw [runCommand_decode body hd] at h
    exact .inl ⟨e, rfl, by injection h with h; exact h.symm⟩
  | none =>
    obtain ⟨hw, ht⟩ := (decodeError_none_iff i s).1 hd
    refine .inr ⟨hw, ht, ?_⟩
    cases hb : body s with
    | ok s' =>
      rw [runCommand_ok hw ht hb] at h
      injection h with h
      exact .inl (by rw [h])
    | error e =>
      rw [runCommand_error hw ht hb] at h
      injection h with h
      exact .inr ⟨e, rfl, h.symm⟩

/-! ## Frames -/

theorem FrameOutside.refl (ws : List Loc) (s : State) : FrameOutside ws s s := by
  constructor <;> intros <;> first | rfl | exact ⟨rfl, rfl⟩

theorem FrameOutside.trans {ws : List Loc} {s t u : State} (h : FrameOutside ws s t) (k : FrameOutside ws t u) :
    FrameOutside ws s u where
  cfg := k.cfg.trans h.cfg
  running := k.running.trans h.running
  streamLen := k.streamLen.trans h.streamLen
  scan := k.scan.trans h.scan
  stream o := (k.stream o).trans (h.stream o)
  cells := k.cells.trans h.cells
  memDraw := k.memDraw.trans h.memDraw
  host := k.host.trans h.host
  replies := k.replies.trans h.replies
  brOffset m := (k.brOffset m).trans (h.brOffset m)
  bdata m := (k.bdata m).trans (h.bdata m)
  bcount m := (k.bcount m).trans (h.bcount m)
  result m := (k.result m).trans (h.result m)
  nobit m := (k.nobit m).trans (h.nobit m)
  mstop m := (k.mstop m).trans (h.mstop m)
  eobrun m := (k.eobrun m).trans (h.eobrun m)
  ac m := (k.ac m).trans (h.ac m)
  tblptr m := (k.tblptr m).trans (h.tblptr m)
  pred i hi m := (k.pred i hi m).trans (h.pred i hi m)
  lane b hb i hi m n := (k.lane b hb i hi m n).trans (h.lane b hb i hi m n)
  quant j hj m := ⟨(k.quant j hj m).1.trans (h.quant j hj m).1, (k.quant j hj m).2.trans (h.quant j hj m).2⟩
  recip j hj m := (k.recip j hj m).trans (h.recip j hj m)
  huff c hc j hj m := (k.huff c hc j hj m).trans (h.huff c hc j hj m)
  quantValid j hj m := (k.quantValid j hj m).trans (h.quantValid j hj m)
  recipValid j hj m := (k.recipValid j hj m).trans (h.recipValid j hj m)
  huffValid c hc j hj m := (k.huffValid c hc j hj m).trans (h.huffValid c hc j hj m)

/-- A frame holds for every larger write set. -/
theorem FrameOutside.mono {ws vs : List Loc} {s t : State} (h : FrameOutside ws s t) (hs : ws ⊆ vs) :
    FrameOutside vs s t where
  cfg := h.cfg
  running := h.running
  streamLen := h.streamLen
  scan := h.scan
  stream := h.stream
  cells := h.cells
  memDraw := h.memDraw
  host := h.host
  replies := h.replies
  brOffset m := h.brOffset fun x => m (hs x)
  bdata m := h.bdata fun x => m (hs x)
  bcount m := h.bcount fun x => m (hs x)
  result m := h.result fun x => m (hs x)
  nobit m := h.nobit fun x => m (hs x)
  mstop m := h.mstop fun x => m (hs x)
  eobrun m := h.eobrun fun x => m (hs x)
  ac m := h.ac fun x => m (hs x)
  tblptr m := h.tblptr fun x => m (hs x)
  pred i hi m := h.pred i hi fun x => m (hs x)
  lane b hb i hi m n := h.lane b hb i hi (fun x => m (hs x)) fun e x => n e (hs x)
  quant j hj m := h.quant j hj fun x => m (hs x)
  recip j hj m := h.recip j hj fun x => m (hs x)
  huff c hc j hj m := h.huff c hc j hj fun x => m (hs x)
  quantValid j hj m := h.quantValid j hj fun x => m (hs x)
  recipValid j hj m := h.recipValid j hj fun x => m (hs x)
  huffValid c hc j hj m := h.huffValid c hc j hj fun x => m (hs x)

/-- Recording an error changes nothing that the frame speaks of. -/
theorem withError_frame (e : CmdError) (w : Word) (ws : List Loc) (s : State) :
    FrameOutside ws s (withError e w s) := by
  constructor <;> intros <;> first | rfl | exact ⟨rfl, rfl⟩

theorem recordError_frame (e : CmdError) (w : Word) (ws : List Loc) (s : State) :
    FrameOutside ws s (recordError e w s) := by
  rcases recordError_cases e w s with ⟨-, h⟩ | ⟨-, h⟩ <;> rw [h]
  · exact .refl ws s
  · exact withError_frame e w ws s

/-- A location whose table, if it names one, is a slot of the block. -/
def Loc.legal : Loc → Bool
  | .table r => r.legal
  | .valid r => r.legal
  | _ => true

theorem lane_setBuf (s : State) {b c i : Nat} (hc : c < 8) (blk : Block)
    (h : c = b → lane blk i = lane (s.buf b) i) : lane ((s.setBuf b blk).buf c) i = lane (s.buf c) i := by
  by_cases e : c = b
  · subst e; rw [State.buf_setBuf_same s hc, h rfl]
  · rw [State.buf_setBuf_other s e]

/-- Every update but the named one leaves a field as it is: the frame's clauses that hold by definition. -/
theorem frame_of_fields {ws : List Loc} {s t : State} (cfg : t.cfg = s.cfg) (running : t.running = s.running)
    (streamLen : t.streamLen = s.streamLen) (scan : t.scan = s.scan) (cells : t.stream = s.stream)
    (memDraw : t.memDraw = s.memDraw) (host : t.host = s.host) (replies : t.replies = s.replies)
    (brOffset : t.br.offset = s.br.offset ∨ .brOffset ∈ ws) (bdata : t.br.bdata = s.br.bdata ∨ .bdata ∈ ws)
    (bcount : t.br.bcount = s.br.bcount ∨ .bcount ∈ ws) (result : t.result = s.result ∨ .result ∈ ws)
    (nobit : t.nobit = s.nobit ∨ .nobit ∈ ws) (mstop : t.mstop = s.mstop ∨ .mstop ∈ ws)
    (eobrun : t.eobrun = s.eobrun ∨ .eobrun ∈ ws) (ac : t.ac = s.ac ∨ .acstate ∈ ws)
    (tblptr : t.tblptr = s.tblptr ∨ .tblptr ∈ ws)
    (pred : ∀ i < 4, t.predAt i = s.predAt i ∨ .pred i ∈ ws)
    (lanes : ∀ b < 8, ∀ i < 64, lane (t.buf b) i = lane (s.buf b) i ∨ .buf b ∈ ws ∨ (i = 0 ∧ .lane0 b ∈ ws))
    (quant : ∀ k < 4, (t.qt k = s.qt k ∧ nth t.qtDraw k = nth s.qtDraw k) ∨ .table (.quant k) ∈ ws)
    (recip : ∀ k < 4, t.fq k = s.fq k ∨ .table (.recip k) ∈ ws)
    (huff : ∀ c < 2, ∀ k < 4, t.ht c k = s.ht c k ∨ .table (.huff c k) ∈ ws)
    (valid : ∀ r : TableRef, r.legal = true → t.valid r = s.valid r ∨ .valid r ∈ ws) : FrameOutside ws s t where
  cfg := cfg
  running := running
  streamLen := streamLen
  scan := scan
  stream o := by rw [State.byteAt, State.byteAt, cells, memDraw]
  cells := cells
  memDraw := memDraw
  host := host
  replies := replies
  brOffset m := brOffset.resolve_right m
  bdata m := bdata.resolve_right m
  bcount m := bcount.resolve_right m
  result m := result.resolve_right m
  nobit m := nobit.resolve_right m
  mstop m := mstop.resolve_right m
  eobrun m := eobrun.resolve_right m
  ac m := ac.resolve_right m
  tblptr m := tblptr.resolve_right m
  pred i hi m := (pred i hi).resolve_right m
  lane b hb i hi m n := (lanes b hb i hi).resolve_right fun h => h.elim m fun e => n e.1 e.2
  quant k hk m := (quant k hk).resolve_right m
  recip k hk m := (recip k hk).resolve_right m
  huff c hc k hk m := (huff c hc k hk).resolve_right m
  quantValid k hk m := (valid _ (by simp [TableRef.legal, hk])).resolve_right m
  recipValid k hk m := (valid _ (by simp [TableRef.legal, hk])).resolve_right m
  huffValid c hc k hk m := (valid _ (by simp [TableRef.legal, hc, hk])).resolve_right m

section Updates

variable (s : State)

theorem setBuf_frame (b : Nat) (blk : Block) : FrameOutside [.buf b] s (s.setBuf b blk) := by
  refine frame_of_fields rfl rfl rfl rfl rfl rfl rfl rfl (.inl rfl) (.inl rfl) (.inl rfl) (.inl rfl) (.inl rfl)
    (.inl rfl) (.inl rfl) (.inl rfl) (.inl rfl) (fun _ _ => .inl rfl) ?_ (fun _ _ => .inl ⟨rfl, rfl⟩)
    (fun _ _ => .inl rfl) (fun _ _ _ _ => .inl rfl) (fun _ _ => .inl rfl)
  intro c hc i _
  by_cases h : c = b
  · exact .inr (.inl (by simp [h]))
  · exact .inl (by rw [State.buf_setBuf_other s h])

theorem setLane0_frame (b : Nat) (v : Word) : FrameOutside [.lane0 b] s (s.setBuf b (setLane (s.buf b) 0 v)) := by
  refine frame_of_fields rfl rfl rfl rfl rfl rfl rfl rfl (.inl rfl) (.inl rfl) (.inl rfl) (.inl rfl) (.inl rfl)
    (.inl rfl) (.inl rfl) (.inl rfl) (.inl rfl) (fun _ _ => .inl rfl) ?_ (fun _ _ => .inl ⟨rfl, rfl⟩)
    (fun _ _ => .inl rfl) (fun _ _ _ _ => .inl rfl) (fun _ _ => .inl rfl)
  intro c hc i _
  by_cases h : c = b
  · subst h
    by_cases h0 : i = 0
    · exact .inr (.inr ⟨h0, by simp⟩)
    · exact .inl (by rw [State.buf_setBuf_same s hc]; exact nth_put_other _ _ h0)
  · exact .inl (by rw [State.buf_setBuf_other s h])

theorem setPred_frame (i : Nat) (v : Word) : FrameOutside [.pred i] s (s.setPred i v) := by
  refine frame_of_fields rfl rfl rfl rfl rfl rfl rfl rfl (.inl rfl) (.inl rfl) (.inl rfl) (.inl rfl) (.inl rfl)
    (.inl rfl) (.inl rfl) (.inl rfl) (.inl rfl) ?_ (fun _ _ _ _ => .inl rfl) (fun _ _ => .inl ⟨rfl, rfl⟩)
    (fun _ _ => .inl rfl) (fun _ _ _ _ => .inl rfl) (fun _ _ => .inl rfl)
  intro j _
  by_cases h : j = i
  · exact .inr (by simp [h])
  · exact .inl (State.predAt_setPred_other s h v)

theorem setQt_frame (t : Nat) (v : Vector Half 64) : FrameOutside [.table (.quant t)] s (s.setQt t v) := by
  refine frame_of_fields rfl rfl rfl rfl rfl rfl rfl rfl (.inl rfl) (.inl rfl) (.inl rfl) (.inl rfl) (.inl rfl)
    (.inl rfl) (.inl rfl) (.inl rfl) (.inl rfl) (fun _ _ => .inl rfl) (fun _ _ _ _ => .inl rfl) ?_
    (fun _ _ => .inl rfl) (fun _ _ _ _ => .inl rfl) (fun _ _ => .inl rfl)
  intro k _
  by_cases h : k = t
  · exact .inr (by simp [h])
  · exact .inl ⟨State.qt_setQt_other s h v, rfl⟩

theorem setFq_frame (t : Nat) (v : Vector F64 64) : FrameOutside [.table (.recip t)] s (s.setFq t v) := by
  refine frame_of_fields rfl rfl rfl rfl rfl rfl rfl rfl (.inl rfl) (.inl rfl) (.inl rfl) (.inl rfl) (.inl rfl)
    (.inl rfl) (.inl rfl) (.inl rfl) (.inl rfl) (fun _ _ => .inl rfl) (fun _ _ _ _ => .inl rfl)
    (fun _ _ => .inl ⟨rfl, rfl⟩) ?_ (fun _ _ _ _ => .inl rfl) (fun _ _ => .inl rfl)
  intro k _
  by_cases h : k = t
  · exact .inr (by simp [h])
  · exact .inl (State.fq_setFq_other s h v)

theorem setHt_frame {c k : Nat} (hk : k < 4) (v : HuffTable) :
    FrameOutside [.table (.huff c k)] s (s.setHt c k v) := by
  refine frame_of_fields rfl rfl rfl rfl rfl rfl rfl rfl (.inl rfl) (.inl rfl) (.inl rfl) (.inl rfl) (.inl rfl)
    (.inl rfl) (.inl rfl) (.inl rfl) (.inl rfl) (fun _ _ => .inl rfl) (fun _ _ _ _ => .inl rfl)
    (fun _ _ => .inl ⟨rfl, rfl⟩) (fun _ _ => .inl rfl) ?_ (fun _ _ => .inl rfl)
  intro c' _ k' hk'
  by_cases h : c' = c ∧ k' = k
  · exact .inr (by simp [h.1, h.2])
  · exact .inl (State.ht_setHt_other s (by omega) v)

theorem setValid_frame {r : TableRef} (hr : r.legal = true) (x : Bool) :
    FrameOutside [.valid r] s (s.setValid r x) := by
  refine frame_of_fields rfl rfl rfl rfl rfl rfl rfl rfl (.inl rfl) (.inl rfl) (.inl rfl) (.inl rfl) (.inl rfl)
    (.inl rfl) (.inl rfl) (.inl rfl) (.inl rfl) (fun _ _ => .inl rfl) (fun _ _ _ _ => .inl rfl)
    (fun _ _ => .inl ⟨rfl, rfl⟩) (fun _ _ => .inl rfl) (fun _ _ _ _ => .inl rfl) ?_
  intro q hq
  by_cases h : q = r
  · exact .inr (by simp [h])
  · exact .inl (State.valid_setValid_other s hq hr h x)

/-- An update of the plain registers that commands write, each listed by its location. -/
theorem registers_frame {ws : List Loc} (br : BitReader) (result : Word) (nobit mstop : Bool) (eobrun : Word)
    (ac : AcState) (tblptr : Word)
    (hbr : br = s.br ∨ (.brOffset ∈ ws ∧ .bdata ∈ ws ∧ .bcount ∈ ws)) (hresult : result = s.result ∨ .result ∈ ws)
    (hnobit : nobit = s.nobit ∨ .nobit ∈ ws) (hmstop : mstop = s.mstop ∨ .mstop ∈ ws)
    (heob : eobrun = s.eobrun ∨ .eobrun ∈ ws) (hac : ac = s.ac ∨ .acstate ∈ ws)
    (htbl : tblptr = s.tblptr ∨ .tblptr ∈ ws) :
    FrameOutside ws s { s with br, result, nobit, mstop, eobrun, ac, tblptr } :=
  frame_of_fields rfl rfl rfl rfl rfl rfl rfl rfl (hbr.imp (congrArg _) (·.1)) (hbr.imp (congrArg _) (·.2.1))
    (hbr.imp (congrArg _) (·.2.2)) hresult hnobit hmstop heob hac htbl (fun _ _ => .inl rfl)
    (fun _ _ _ _ => .inl rfl) (fun _ _ => .inl ⟨rfl, rfl⟩) (fun _ _ => .inl rfl) (fun _ _ _ _ => .inl rfl)
    (fun _ _ => .inl rfl)

end Updates

/-! ## Unspecified values -/

/-- Making one location unspecified changes that location only. -/
theorem havocLoc_frame (n : Nat) (s : State) {l : Loc} (hl : l.legal = true) :
    FrameOutside [l] s (havocLoc n s l) := by
  cases l with
  | buf b => exact setBuf_frame s b _
  | lane0 b => exact setLane0_frame s b _
  | pred i => exact setPred_frame s i _
  | valid r => exact setValid_frame s hl _
  | table r =>
    cases r with
    | recip t => exact setFq_frame s t _
    | huff c k =>
      simp only [Loc.legal, TableRef.legal, Bool.and_eq_true, decide_eq_true_eq] at hl
      exact setHt_frame s hl.2 _
    | quant t =>
      refine frame_of_fields rfl rfl rfl rfl rfl rfl rfl rfl (.inl rfl) (.inl rfl) (.inl rfl) (.inl rfl) (.inl rfl)
        (.inl rfl) (.inl rfl) (.inl rfl) (.inl rfl) (fun _ _ => .inl rfl) (fun _ _ _ _ => .inl rfl) ?_
        (fun _ _ => .inl rfl) (fun _ _ _ _ => .inl rfl) (fun _ _ => .inl rfl)
      intro k _
      by_cases h : k = t
      · exact .inr (by simp [h])
      · exact .inl ⟨State.qt_setQt_other s h _, nth_put_other _ _ h⟩
  | brOffset | bdata | bcount | result | nobit | mstop | eobrun | acstate | tblptr =>
    apply frame_of_fields <;> intros <;> first | rfl | exact .inl rfl | exact .inl ⟨rfl, rfl⟩ | exact .inr (by simp)

theorem havocFold_frame (n : Nat) (ws vs : List Loc) (hs : vs ⊆ ws) (hl : ∀ l ∈ vs, l.legal = true) (s : State) :
    FrameOutside ws s (vs.foldl (havocLoc n) s) := by
  induction vs generalizing s with
  | nil => exact .refl ws s
  | cons l vs ih =>
    exact ((havocLoc_frame n s (hl l (by simp))).mono (by simpa using hs (by simp))).trans
      (ih (fun x hx => hs (by simp [hx])) (fun x hx => hl x (by simp [hx])) _)

/-- Making a write set unspecified changes nothing outside it but the number of the next draw (R303 point 4). -/
theorem havoc_frame {ws : List Loc} (hl : ∀ l ∈ ws, l.legal = true) (s : State) :
    FrameOutside ws s (havoc ws s) :=
  (havocFold_frame s.draws ws ws (fun _ h => h) hl s).trans
    (frame_of_fields rfl rfl rfl rfl rfl rfl rfl rfl (.inl rfl) (.inl rfl) (.inl rfl) (.inl rfl) (.inl rfl)
      (.inl rfl) (.inl rfl) (.inl rfl) (.inl rfl) (fun _ _ => .inl rfl) (fun _ _ _ _ => .inl rfl)
      (fun _ _ => .inl ⟨rfl, rfl⟩) (fun _ _ => .inl rfl) (fun _ _ _ _ => .inl rfl) (fun _ _ => .inl rfl))

/-- Making locations unspecified leaves the error registers alone. -/
theorem havoc_errors (ws : List Loc) (s : State) :
    (havoc ws s).err = s.err ∧ (havoc ws s).errcode = s.errcode ∧ (havoc ws s).errinfo = s.errinfo ∧
      (havoc ws s).errcmd = s.errcmd := by
  have one : ∀ (n : Nat) (s : State) (l : Loc), (havocLoc n s l).err = s.err ∧
      (havocLoc n s l).errcode = s.errcode ∧ (havocLoc n s l).errinfo = s.errinfo ∧
      (havocLoc n s l).errcmd = s.errcmd := by
    intro n s l
    cases l with
    | table r => cases r <;> exact ⟨rfl, rfl, rfl, rfl⟩
    | _ => exact ⟨rfl, rfl, rfl, rfl⟩
  have all : ∀ (n : Nat) (s : State), (ws.foldl (havocLoc n) s).err = s.err ∧
      (ws.foldl (havocLoc n) s).errcode = s.errcode ∧ (ws.foldl (havocLoc n) s).errinfo = s.errinfo ∧
      (ws.foldl (havocLoc n) s).errcmd = s.errcmd := by
    intro n
    induction ws with
    | nil => exact fun s => ⟨rfl, rfl, rfl, rfl⟩
    | cons l ws ih =>
      intro s
      obtain ⟨a, b, c, d⟩ := ih (havocLoc n s l)
      obtain ⟨a', b', c', d'⟩ := one n s l
      exact ⟨a.trans a', b.trans b', c.trans c', d.trans d'⟩
  exact all s.draws s

@[simp] theorem havoc_draws (ws : List Loc) (s : State) : (havoc ws s).draws = s.draws + 1 := rfl

/-- A well-formed command's write set names slots of the block only. -/
theorem writeSet_legal {i : Instr} (hw : i.wellFormed = true) : ∀ l ∈ writeSet i, l.legal = true := by
  have load : ∀ r : Option TableRef, (∀ q ∈ r, q.legal = true) → ∀ l ∈ loadSet r, l.legal = true := by
    intro r hr l hl
    cases r with
    | none =>
      have := List.mem_singleton.1 hl
      subst this; rfl
    | some q =>
      simp only [loadSet, List.mem_cons, List.not_mem_nil, or_false] at hl
      rcases hl with rfl | rfl | rfl
      · exact hr q rfl
      · exact hr q rfl
      · rfl
  cases i with
  | htload spec =>
    refine load _ ?_
    intro q hq
    simp only [huffSpec] at hq
    split_ifs at hq with h
    · cases hq; simp [TableRef.legal]; omega
    · cases hq
  | qload spec =>
    refine load _ ?_
    intro q hq
    simp only [quantSpec] at hq
    split_ifs at hq with h
    · cases hq; simp [TableRef.legal]; omega
    · cases hq
  | eqload b t =>
    simp only [Instr.wellFormed, Bool.and_eq_true, decide_eq_true_eq] at hw
    intro l hl
    simp only [writeSet, List.mem_cons, List.not_mem_nil, or_false] at hl
    rcases hl with rfl | rfl <;> simp [Loc.legal, TableRef.legal] <;> omega
  | _ => simp [writeSet, brSet, Loc.legal]

/-- Everything that an error in execution does (R303): the frame, and the error registers. -/
theorem raiseInExecution_spec {i : Instr} (hw : i.wellFormed = true) (e : CmdError) (s : State) :
    FrameOutside (writeSet i) s (raiseInExecution i e s) ∧
      (s.err = false → FailsWith i e s (raiseInExecution i e s)) ∧
      (s.err = true → (raiseInExecution i e s).err = true ∧ (raiseInExecution i e s).errcode = s.errcode ∧
        (raiseInExecution i e s).errinfo = s.errinfo ∧ (raiseInExecution i e s).errcmd = s.errcmd) := by
  obtain ⟨h1, h2, h3, h4⟩ := havoc_errors (writeSet i) s
  have hf : FrameOutside (writeSet i) s (raiseInExecution i e s) :=
    (havoc_frame (writeSet_legal hw) s).trans (recordError_frame e (encode i) (writeSet i) _)
  refine ⟨hf, fun h => ?_, fun h => ?_⟩
  · have : raiseInExecution i e s = withError e (encode i) (havoc (writeSet i) s) :=
      recordError_of_no_error (h1.trans h) e _
    rw [this] at hf ⊢
    exact ⟨rfl, rfl, rfl, rfl, hf⟩
  · have : raiseInExecution i e s = havoc (writeSet i) s := recordError_of_error (h1.trans h) e _
    rw [this]
    exact ⟨h1.trans h, h2, h3, h4⟩

/-- A command whose decode checks pass, and whose own effect raises, fails with that error. -/
theorem runCommand_fails {i : Instr} {body : State → Except CmdError State} {s : State} {e : CmdError}
    (hw : i.wellFormed = true) (ht : ∀ r ∈ neededTables i, s.valid r = true) (he : s.err = false)
    (hb : body s = .error e) : ∃ t, runCommand i body s = .next t ∧ FailsWith i e s t :=
  ⟨_, runCommand_error hw ht hb, (raiseInExecution_spec hw e s).2.1 he⟩

/-- The valid bit of a failed load is 0 (R303 point 3). -/
theorem havoc_valid {ws : List Loc} {r : TableRef} (hm : .valid r ∈ ws) (hl : ∀ l ∈ ws, l.legal = true)
    (s : State) : (havoc ws s).valid r = false := by
  have hr : r.legal = true := hl _ hm
  have keep : ∀ (n : Nat) (s : State) (l : Loc), l.legal = true → s.valid r = false →
      (havocLoc n s l).valid r = false := by
    intro n s l hll h
    cases l with
    | valid q =>
      by_cases e : r = q
      · subst e; exact State.valid_setValid_same s hr false
      · exact (State.valid_setValid_other s hr hll e false).trans h
    | table q => cases q <;> exact h
    | _ => exact h
  have all : ∀ (n : Nat) (vs : List Loc) (s : State), (∀ l ∈ vs, l.legal = true) →
      (s.valid r = false ∨ .valid r ∈ vs) → (vs.foldl (havocLoc n) s).valid r = false := by
    intro n vs
    induction vs with
    | nil => intro s _ h; exact h.resolve_right (by simp)
    | cons l vs ih =>
      intro s hl h
      have hl' := fun x hx => hl x (List.mem_cons_of_mem l hx)
      rcases h with h | h
      · exact ih _ hl' (.inl (keep n s l (hl l (by simp)) h))
      · rcases List.mem_cons.1 h with h | h
        · subst h
          exact ih _ hl' (.inl (State.valid_setValid_same s hr false))
        · exact ih _ hl' (.inr h)
  exact all s.draws ws s hl (.inr hm)

@[simp] theorem recordError_valid (e : CmdError) (w : Word) (s : State) (r : TableRef) :
    (recordError e w s).valid r = s.valid r := by
  rcases recordError_cases e w s with ⟨-, h⟩ | ⟨-, h⟩ <;> rw [h]
  rfl

/-! ## A command that succeeds -/

theorem OnlyBuf.of_setBuf {s : State} {d : Nat} (blk : Block) : OnlyBuf d s (s.setBuf d blk) :=
  ⟨rfl, fun _ _ h => State.buf_setBuf_other s h blk⟩

/-- A command whose only effect is a new value of buffer `d`. -/
theorem runCommand_setBuf {i : Instr} {s : State} {d : Nat} {f : State → Block} (hd : d < 8)
    (hw : i.wellFormed = true) (ht : ∀ r ∈ neededTables i, s.valid r = true) :
    ∃ t, runCommand i (fun s => .ok (s.setBuf d (f s))) s = .next t ∧ OnlyBuf d s t ∧ t.buf d = f s :=
  ⟨_, runCommand_ok hw ht rfl, .of_setBuf _, State.buf_setBuf_same s hd _⟩

end Sys2Proof.Machine
end

