-- ==== Sys2Proof/Laws/BitReader.lean ====
section
/-!
SUPPORT. What the bit reader's and the Huffman decoder's shared operations answer, in terms of the relations of
Safety.lean.
-/

namespace Sys2Proof.Machine

variable {src : Source}

/-! ## Bits -/

theorem readBit_ok_iff {r r' : BitReader} {b : Bool} :
    readBit src r = .ok (b, r') ↔ fetchBit src r = .bit b r' := by
  simp only [readBit]
  split <;> simp_all

/-- A bit of a multi-bit read fails where the fetch raises, or at an RSTn (40_bitreader R126). -/
theorem readBit_error_iff {r : BitReader} {e : CmdError} :
    readBit src r = .error e ↔ BitFails src r e := by
  simp only [readBit, outOfBits, BitFails]
  split <;> simp_all [eq_comm]

theorem BitsRead.nil_iff {r r' : BitReader} : BitsRead src r [] r' ↔ r' = r :=
  ⟨fun h => by cases h; rfl, fun h => by subst h; exact .nil _⟩

theorem BitsRead.cons_iff {r r' : BitReader} {b : Bool} {bs : List Bool} :
    BitsRead src r (b :: bs) r' ↔ ∃ r1, fetchBit src r = .bit b r1 ∧ BitsRead src r1 bs r' :=
  ⟨fun h => by cases h with | cons f k => exact ⟨_, f, k⟩, fun ⟨_, f, k⟩ => .cons f k⟩

/-! ## Numbers -/

/-- A number with `v` in front of the bits `bs`. -/
theorem bitsValue_from (v : Nat) (bs : List Bool) :
    bs.foldl (fun v b => 2 * v + b.toNat) v = v * 2 ^ bs.length + bitsValue bs := by
  induction bs generalizing v with
  | nil => simp [bitsValue]
  | cons b bs ih =>
    simp only [bitsValue, List.foldl_cons, List.length_cons]
    rw [ih, ih (2 * 0 + b.toNat)]
    ring

theorem bitsValue_cons (b : Bool) (bs : List Bool) :
    bitsValue (b :: bs) = b.toNat * 2 ^ bs.length + bitsValue bs := by
  have := bitsValue_from (2 * 0 + b.toNat) bs
  simpa [bitsValue] using this

theorem bitsValue_lt (bs : List Bool) : bitsValue bs < 2 ^ bs.length := by
  induction bs with
  | nil => simp [bitsValue]
  | cons b bs ih =>
    rw [bitsValue_cons, List.length_cons, pow_succ]
    cases b <;> simp <;> omega

theorem recvFrom_ok_iff {n v w : Nat} {r r' : BitReader} :
    recvFrom src n v r = .ok (w, r') ↔
      ∃ bs, bs.length = n ∧ BitsRead src r bs r' ∧ w = v * 2 ^ n + bitsValue bs := by
  induction n generalizing v r with
  | zero =>
    simp only [recvFrom, Except.ok.injEq, Prod.mk.injEq, List.length_eq_zero_iff]
    constructor
    · rintro ⟨rfl, rfl⟩; exact ⟨[], rfl, .nil _, by simp [bitsValue]⟩
    · rintro ⟨bs, rfl, h, rfl⟩; cases h; simp [bitsValue]
  | succ n ih =>
    simp only [recvFrom]
    constructor
    · intro h
      split at h
      · cases h
      · rename_i b r1 hb
        obtain ⟨bs, hl, hr, hv⟩ := ih.1 h
        refine ⟨b :: bs, by simp [hl], .cons (readBit_ok_iff.1 hb) hr, ?_⟩
        rw [hv, bitsValue_cons, hl]; ring
    · rintro ⟨bs, hl, hr, hv⟩
      cases hr with
      | nil => simp at hl
      | cons f k =>
        rename_i r1 b bs
        rw [readBit_ok_iff.2 f]
        refine ih.2 ⟨bs, by simpa using hl, k, ?_⟩
        rw [hv, bitsValue_cons, show bs.length = n by simpa using hl]; ring

/-- `RECV(n)` answers exactly where `n` bits can be read (40_bitreader R122). -/
theorem recv_ok_iff {n v : Nat} {r r' : BitReader} :
    recv src n r = .ok (v, r') ↔ NumberRead src n r v r' := by
  simp only [recv, recvFrom_ok_iff, NumberRead, zero_mul, zero_add]

theorem recvFrom_error_iff {n v : Nat} {r : BitReader} {e : CmdError} :
    recvFrom src n v r = .error e ↔ BitsFail src n r e := by
  induction n generalizing v r with
  | zero => simp [recvFrom, BitsFail]
  | succ n ih =>
    simp only [recvFrom]
    constructor
    · intro h
      split at h
      · rename_i e' he
        cases h
        exact ⟨[], r, by simp, .nil r, readBit_error_iff.1 he⟩
      · rename_i b r1 hb
        obtain ⟨bs, r', hl, hr, hx⟩ := ih.1 h
        exact ⟨b :: bs, r', by simpa using hl, .cons (readBit_ok_iff.1 hb) hr, hx⟩
    · rintro ⟨bs, r', hl, hr, hx⟩
      cases hr with
      | nil => rw [readBit_error_iff.2 hx]
      | cons f k =>
        rw [readBit_ok_iff.2 f]
        exact ih.2 ⟨_, r', by simpa using hl, k, hx⟩

/-- `RECV(n)` raises exactly where fewer than `n` bits can be read (40_bitreader R122, R126). -/
theorem recv_error_iff {n : Nat} {r : BitReader} {e : CmdError} :
    recv src n r = .error e ↔ BitsFail src n r e := recvFrom_error_iff

/-- `Extend(n)` answers exactly where `n` bits can be read (40_bitreader R123). -/
theorem extend_ok_iff {n : Nat} {x : Int} {r r' : BitReader} :
    extend src n r = .ok (x, r') ↔ MagnitudeRead src n r x r' := by
  simp only [extend, MagnitudeRead]
  constructor
  · intro h
    split at h
    · cases h
    · rename_i v r1 hv
      cases h
      exact ⟨v, recv_ok_iff.1 hv, rfl⟩
  · rintro ⟨v, hv, rfl⟩
    rw [recv_ok_iff.2 hv]; rfl

theorem extend_error_iff {n : Nat} {r : BitReader} {e : CmdError} :
    extend src n r = .error e ↔ BitsFail src n r e := by
  rw [← recv_error_iff]
  simp only [extend]
  split <;> simp_all

/-! ## Codes -/

theorem mem_codesOfLength {len code : Nat} {vs : List Byte} {x : HuffCode} :
    x ∈ codesOfLength len code vs ↔ x.len = len ∧ ∃ m, x.code = code + m ∧ vs[m]? = some x.sym := by
  induction vs generalizing code with
  | nil => simp [codesOfLength]
  | cons v vs ih =>
    rw [codesOfLength, List.mem_cons, ih]
    constructor
    · rintro (rfl | ⟨h, m, hc, hs⟩)
      · exact ⟨rfl, 0, rfl, rfl⟩
      · exact ⟨h, m + 1, by omega, by simpa using hs⟩
    · rintro ⟨h, m, hc, hs⟩
      cases m with
      | zero => exact .inl (by cases x; simp_all)
      | succ m => exact .inr ⟨h, m, by omega, by simpa using hs⟩

theorem assignCodes_len {len code : Nat} {bs : List Nat} {vals : List Byte} {x : HuffCode}
    (h : x ∈ assignCodes len code bs vals) : len ≤ x.len := by
  induction bs generalizing len code vals with
  | nil => simp [assignCodes] at h
  | cons b bs ih =>
    rw [assignCodes, List.mem_append] at h
    rcases h with h | h
    · exact (mem_codesOfLength.1 h).1.ge
    · exact (Nat.le_succ len).trans (ih h)

/-- A code of a code map stands for one symbol. -/
theorem assignCodes_functional {len code : Nat} {bs : List Nat} {vals : List Byte} {x y : HuffCode}
    (hx : x ∈ assignCodes len code bs vals) (hy : y ∈ assignCodes len code bs vals) (hl : x.len = y.len)
    (hc : x.code = y.code) : x = y := by
  induction bs generalizing len code vals with
  | nil => simp [assignCodes] at hx
  | cons b bs ih =>
    rw [assignCodes, List.mem_append] at hx hy
    rcases hx with hx | hx <;> rcases hy with hy | hy
    · obtain ⟨-, m, hm, hs⟩ := mem_codesOfLength.1 hx
      obtain ⟨-, m', hm', hs'⟩ := mem_codesOfLength.1 hy
      have : m = m' := by omega
      subst this
      have : x.sym = y.sym := Option.some.inj (hs.symm.trans hs')
      cases x; cases y; simp_all
    · have := (mem_codesOfLength.1 hx).1
      have := assignCodes_len hy
      omega
    · have := (mem_codesOfLength.1 hy).1
      have := assignCodes_len hx
      omega
    · exact ih hx hy

theorem symbolOf_none_iff {map : List HuffCode} {len code : Nat} :
    symbolOf map len code = none ↔ ∀ v, ⟨len, code, v⟩ ∉ map := by
  simp only [symbolOf, Option.map_eq_none_iff, List.find?_eq_none]
  constructor
  · intro h v hv
    simpa using h _ hv
  · intro h x hx hk
    simp only [Bool.and_eq_true, beq_iff_eq] at hk
    exact h x.sym (by rw [← hk.1, ← hk.2]; exact hx)

theorem symbolOf_mem {map : List HuffCode} {len code : Nat} {v : Byte} (h : symbolOf map len code = some v) :
    ⟨len, code, v⟩ ∈ map := by
  simp only [symbolOf, Option.map_eq_some_iff] at h
  obtain ⟨x, hx, rfl⟩ := h
  have hk := List.find?_some hx
  simp only [Bool.and_eq_true, beq_iff_eq] at hk
  have := List.mem_of_find?_eq_some hx
  rw [← hk.1, ← hk.2]; exact this

/-- A code map in which a code stands for one symbol. -/
def Functional (map : List HuffCode) : Prop :=
  ∀ x ∈ map, ∀ y ∈ map, x.len = y.len → x.code = y.code → x = y

theorem codeMap_functional (s : State) (c k : Nat) : Functional (s.codeMap c k) :=
  fun _ hx _ hy hl hc => assignCodes_functional hx hy hl hc

theorem symbolOf_some_iff {map : List HuffCode} (hf : Functional map) {len code : Nat} {v : Byte} :
    symbolOf map len code = some v ↔ ⟨len, code, v⟩ ∈ map := by
  refine ⟨symbolOf_mem, fun h => ?_⟩
  cases hs : symbolOf map len code with
  | none => exact absurd h (symbolOf_none_iff.1 hs v)
  | some w =>
    have := hf _ (symbolOf_mem hs) _ h rfl rfl
    rw [HuffCode.mk.injEq] at this
    rw [this.2.2]

/-! ## Symbols -/

theorem huffWalk_ok_iff {map : List HuffCode} {n len code : Nat} {r r' : BitReader} {v : Byte} :
    huffWalk src map n len code r = .ok (v, r') ↔
      ∃ bs, 1 ≤ bs.length ∧ bs.length ≤ n ∧ BitsRead src r bs r' ∧
        symbolOf map (len + bs.length - 1) (code * 2 ^ bs.length + bitsValue bs) = some v ∧
        ∀ m, 1 ≤ m → m < bs.length →
          symbolOf map (len + m - 1) (code * 2 ^ m + bitsValue (bs.take m)) = none := by
  induction n generalizing len code r with
  | zero =>
    simp only [huffWalk]
    constructor
    · intro h; cases h
    · rintro ⟨bs, h1, h2, -⟩; omega
  | succ n ih =>
    simp only [huffWalk]
    have one : ∀ b : Bool, code * 2 ^ 1 + bitsValue [b] = 2 * code + b.toNat := by
      intro b; simp [bitsValue]; ring
    have more : ∀ (b : Bool) (l : List Bool) (m : Nat), l.length = m →
        (2 * code + b.toNat) * 2 ^ m + bitsValue l = code * 2 ^ (m + 1) + bitsValue (b :: l) := by
      intro b l m hm; subst hm; rw [bitsValue_cons]; ring
    constructor
    · intro h
      split at h
      · cases h
      · rename_i b r1 hb
        rw [readBit_ok_iff] at hb
        split at h
        · rename_i w hw
          cases h
          refine ⟨[b], by simp, by simp, .cons hb (.nil _), ?_, ?_⟩
          · rw [List.length_singleton, one]; exact hw
          · intro m h1 h2; simp at h2; omega
        · rename_i hw
          obtain ⟨bs, h1, h2, h3, h4, h5⟩ := ih.1 h
          refine ⟨b :: bs, by simp, by simpa using h2, .cons hb h3, ?_, ?_⟩
          · rw [List.length_cons, ← more b bs _ rfl, show len + (bs.length + 1) - 1 = len + 1 + bs.length - 1 by omega]
            exact h4
          · intro m hm1 hm2
            cases m with
            | zero => omega
            | succ m =>
              cases m with
              | zero => rw [show List.take (0 + 1) (b :: bs) = [b] by simp]; rw [one]; exact hw
              | succ m =>
                have := h5 (m + 1) (by omega) (by simpa using hm2)
                rw [List.take_succ_cons, ← more b _ (m + 1) (by simp at hm2 ⊢; omega),
                  show len + (m + 1 + 1) - 1 = len + 1 + (m + 1) - 1 by omega]
                exact this
    · rintro ⟨bs, h1, h2, h3, h4, h5⟩
      cases h3 with
      | nil => simp at h1
      | cons f k =>
        rename_i r1 b bs
        rw [readBit_ok_iff.2 f]
        cases bs with
        | nil =>
          cases k
          rw [List.length_singleton, one] at h4
          simp only [show len + 1 - 1 = len by omega] at h4
          simp only [h4]
        | cons b' bs =>
          have hn := h5 1 (by omega) (by simp)
          rw [show List.take 1 (b :: b' :: bs) = [b] by simp, one, show len + 1 - 1 = len by omega] at hn
          simp only [hn]
          refine ih.2 ⟨b' :: bs, by simp, by simpa using h2, k, ?_, ?_⟩
          · rw [List.length_cons, ← more b _ _ rfl] at h4
            rw [show len + 1 + (b' :: bs).length - 1 = len + ((b' :: bs).length + 1) - 1 by omega]
            exact h4
          · intro m hm1 hm2
            have := h5 (m + 1) (by omega) (by simpa using hm2)
            rw [List.take_succ_cons, ← more b _ m (by simp at hm2 ⊢; omega)] at this
            rw [show len + 1 + m - 1 = len + (m + 1) - 1 by omega]
            exact this

/-- `HuffDecode` answers exactly where a code stands in the stream (41_huffman R141). -/
theorem huffDecode_ok_iff {map : List HuffCode} (hf : Functional map) {r r' : BitReader} {v : Byte} :
    huffDecode src map r = .ok (v, r') ↔ SymbolRead src map r v r' := by
  simp only [huffDecode, huffWalk_ok_iff, SymbolRead, symbolOf_some_iff hf, symbolOf_none_iff, zero_mul, zero_add,
    Nat.add_sub_cancel_left]
  constructor
  · rintro ⟨bs, h1, h2, h3, h4, h5⟩
    exact ⟨bs, h1, h2, h3, h4, fun n v' hn hl => h5 n hn hl v'⟩
  · rintro ⟨bs, h1, h2, h3, h4, h5⟩
    exact ⟨bs, h1, h2, h3, h4, fun n hn hl v' => h5 n v' hn hl⟩

theorem huffWalk_error_iff {map : List HuffCode} {n len code : Nat} {r : BitReader} {e : CmdError} :
    huffWalk src map n len code r = .error e ↔
      ∃ bs r', bs.length ≤ n ∧ BitsRead src r bs r' ∧
        (∀ m, 1 ≤ m → m ≤ bs.length →
          symbolOf map (len + m - 1) (code * 2 ^ m + bitsValue (bs.take m)) = none) ∧
        if bs.length < n then BitFails src r' e else e = ⟨.invalidHuffmanSequence, r'.offset⟩ := by
  induction n generalizing len code r with
  | zero =>
    simp only [huffWalk, outOfBits, Except.error.injEq, Nat.le_zero, List.length_eq_zero_iff, Nat.not_lt_zero, if_false]
    constructor
    · rintro rfl
      exact ⟨[], r, rfl, .nil r, fun m h1 h2 => by simp at h2; omega, rfl⟩
    · rintro ⟨bs, r', rfl, h, -, rfl⟩
      cases h; rfl
  | succ n ih =>
    simp only [huffWalk]
    have one : ∀ b : Bool, code * 2 ^ 1 + bitsValue [b] = 2 * code + b.toNat := by
      intro b; simp [bitsValue]; ring
    have more : ∀ (b : Bool) (l : List Bool) (m : Nat), l.length = m →
        (2 * code + b.toNat) * 2 ^ m + bitsValue l = code * 2 ^ (m + 1) + bitsValue (b :: l) := by
      intro b l m hm; subst hm; rw [bitsValue_cons]; ring
    constructor
    · intro h
      split at h
      · rename_i e' he
        cases h
        exact ⟨[], r, by simp, .nil r, fun m h1 h2 => by simp at h2; omega,
          by rw [if_pos (by simp)]; exact readBit_error_iff.1 he⟩
      · rename_i b r1 hb
        split at h
        · cases h
        · rename_i hw
          obtain ⟨bs, r', h2, h3, h4, h5⟩ := ih.1 h
          refine ⟨b :: bs, r', by simpa using h2, .cons (readBit_ok_iff.1 hb) h3, ?_, by simpa using h5⟩
          intro m hm1 hm2
          cases m with
          | zero => omega
          | succ m =>
            cases m with
            | zero => rw [show List.take (0 + 1) (b :: bs) = [b] by simp]; rw [one]; exact hw
            | succ m =>
              have := h4 (m + 1) (by omega) (by simpa using hm2)
              rw [List.take_succ_cons, ← more b _ (m + 1) (by simp at hm2 ⊢; omega),
                show len + (m + 1 + 1) - 1 = len + 1 + (m + 1) - 1 by omega]
              exact this
    · rintro ⟨bs, r', h2, h3, h4, h5⟩
      cases h3 with
      | nil =>
        rw [if_pos (by simp)] at h5
        rw [readBit_error_iff.2 h5]
      | cons f k =>
        rename_i r1 b bs
        rw [readBit_ok_iff.2 f]
        have hn := h4 1 (by omega) (by simp)
        rw [show List.take 1 (b :: bs) = [b] by simp, one, show len + 1 - 1 = len by omega] at hn
        simp only [hn]
        refine ih.2 ⟨bs, r', by simpa using h2, k, ?_, by simpa using h5⟩
        intro m hm1 hm2
        have := h4 (m + 1) (by omega) (by simpa using hm2)
        rw [List.take_succ_cons, ← more b _ m (by simp at hm2 ⊢; omega)] at this
        rw [show len + 1 + m - 1 = len + (m + 1) - 1 by omega]
        exact this

/-- `HuffDecode` raises exactly where no code stands in the stream (41_huffman R141). -/
theorem huffDecode_error_iff {map : List HuffCode} {r : BitReader} {e : CmdError} :
    huffDecode src map r = .error e ↔ SymbolFails src map r e := by
  simp only [huffDecode, huffWalk_error_iff, SymbolFails, symbolOf_none_iff, zero_mul, zero_add,
    Nat.add_sub_cancel_left]
  constructor
  · rintro ⟨bs, r', h2, h3, h4, h5⟩
    exact ⟨bs, r', h2, h3, fun n v hn hl => h4 n hn hl v, h5⟩
  · rintro ⟨bs, r', h2, h3, h4, h5⟩
    exact ⟨bs, r', h2, h3, fun n hn hl v => h4 n v hn hl, h5⟩

end Sys2Proof.Machine
end

