-- ==== Sys2Proof/Laws/BlockDecode.lean ====
section
/-!
SUPPORT. What the block decoder's loops answer, in terms of the relations of Safety.lean (42_block_decode).
-/

namespace Sys2Proof.Machine

variable {src : Source} {map : List HuffCode}

theorem place_toWord (blk : Block) (k : Nat) (v : Int) :
    place blk k v = if k ≤ 63 then setLane blk (zz k) (toWord v) else blk := rfl

/-- The DC part of a block (R161, R162). -/
theorem decodeDc_ok (hf : Functional map) {r r' : BitReader} {x : Int} (h : DcRead src map r x r') :
    decodeDc src map r = .ok (x, r') := by
  obtain ⟨t, r1, hs, ht, hm⟩ := h
  simp only [decodeDc, (huffDecode_ok_iff hf).2 hs, show ¬ t.toNat > 16 by omega, if_false]
  exact extend_ok_iff.2 hm

/-- A DC part that fails (R161, R162). -/
theorem decodeDc_error (hf : Functional map) {r : BitReader} {e : CmdError} (h : DcFails src map r e) :
    decodeDc src map r = .error e := by
  rcases h with h | ⟨t, r1, hs, h⟩
  · simp only [decodeDc, huffDecode_error_iff.2 h]
  · simp only [decodeDc, (huffDecode_ok_iff hf).2 hs]
    split_ifs at h with ht
    · rw [if_neg (by omega)]
      exact extend_error_iff.2 h
    · rw [if_pos (by omega), h]
      rfl

/-- A DC category above 16 (R161). -/
theorem DcFails.above {r r' : BitReader} {t : Byte} (h : SymbolRead src map r t r') (ht : 16 < t.toNat) :
    DcFails src map r ⟨.invalidHuffmanSequence, r'.offset⟩ :=
  .inr ⟨t, r', h, by rw [if_neg (by omega)]⟩

/-- R161's loop. -/
theorem baseAc_run (hf : Functional map) {k : Nat} {blk : Block} {r : BitReader}
    {o : Except CmdError (Block × BitReader)} (h : BaseRun src map k blk r o) (fuel : Nat) (hk : 64 ≤ k + fuel) :
    baseAc src map fuel k blk r = o := by
  induction h generalizing fuel with
  | done past =>
    cases fuel with
    | zero => rfl
    | succ n => simp only [baseAc, show ¬ _ < 64 from not_lt.2 past, if_false]
  | eob inside sym hs hr =>
    obtain ⟨n, rfl⟩ : ∃ n, fuel = n + 1 := ⟨fuel - 1, by omega⟩
    simp only [baseAc, inside, if_true, (huffDecode_ok_iff hf).2 sym, hs, hr]
  | zrl inside sym hs hr rest ih =>
    obtain ⟨n, rfl⟩ : ∃ n, fuel = n + 1 := ⟨fuel - 1, by omega⟩
    simp only [baseAc, inside, if_true, (huffDecode_ok_iff hf).2 sym, hs, hr, if_false]
    exact ih n (by omega)
  | coef inside sym hs val rest ih =>
    obtain ⟨n, rfl⟩ : ∃ n, fuel = n + 1 := ⟨fuel - 1, by omega⟩
    simp only [baseAc, inside, if_true, (huffDecode_ok_iff hf).2 sym, hs, if_false, extend_ok_iff.2 val]
    exact ih n (by omega)
  | symFails inside sym =>
    obtain ⟨n, rfl⟩ : ∃ n, fuel = n + 1 := ⟨fuel - 1, by omega⟩
    simp only [baseAc, inside, if_true, huffDecode_error_iff.2 sym]
  | valFails inside sym hs val =>
    obtain ⟨n, rfl⟩ : ∃ n, fuel = n + 1 := ⟨fuel - 1, by omega⟩
    simp only [baseAc, inside, if_true, (huffDecode_ok_iff hf).2 sym, hs, if_false, extend_error_iff.2 val]

/-- R164's loop. -/
theorem firstAc_run (hf : Functional map) {al e k : Nat} {blk : Block} {eob : Word} {r : BitReader}
    {o : Except CmdError (Block × Word × BitReader)} (h : FirstRun src map al e k blk eob r o) (fuel : Nat)
    (hk : e + 1 ≤ k + fuel) : firstAc src map al e fuel k blk eob r = o := by
  induction h generalizing fuel with
  | done past =>
    cases fuel with
    | zero => rfl
    | succ n => simp only [firstAc, show ¬ _ ≤ e from not_le.2 past, if_false]
  | eobRun inside sym hs hr bits =>
    obtain ⟨n, rfl⟩ : ∃ n, fuel = n + 1 := ⟨fuel - 1, by omega⟩
    simp only [firstAc, inside, if_true, (huffDecode_ok_iff hf).2 sym, hs, hr, recv_ok_iff.2 bits]
  | zrl inside sym hs hr rest ih =>
    obtain ⟨n, rfl⟩ : ∃ n, fuel = n + 1 := ⟨fuel - 1, by omega⟩
    simp only [firstAc, inside, if_true, (huffDecode_ok_iff hf).2 sym, hs, hr, if_false]
    exact ih n (by omega)
  | coef inside sym hs val rest ih =>
    obtain ⟨n, rfl⟩ : ∃ n, fuel = n + 1 := ⟨fuel - 1, by omega⟩
    simp only [firstAc, inside, if_true, (huffDecode_ok_iff hf).2 sym, hs, if_false, extend_ok_iff.2 val]
    exact ih n (by omega)
  | symFails inside sym =>
    obtain ⟨n, rfl⟩ : ∃ n, fuel = n + 1 := ⟨fuel - 1, by omega⟩
    simp only [firstAc, inside, if_true, huffDecode_error_iff.2 sym]
  | runFails inside sym hs hr bits =>
    obtain ⟨n, rfl⟩ : ∃ n, fuel = n + 1 := ⟨fuel - 1, by omega⟩
    simp only [firstAc, inside, if_true, (huffDecode_ok_iff hf).2 sym, hs, hr, recv_error_iff.2 bits]
  | valFails inside sym hs val =>
    obtain ⟨n, rfl⟩ : ∃ n, fuel = n + 1 := ⟨fuel - 1, by omega⟩
    simp only [firstAc, inside, if_true, (huffDecode_ok_iff hf).2 sym, hs, if_false, extend_error_iff.2 val]

/-- A pass in state `INITIAL` reads a symbol and stays at its position (R165). -/
theorem acBand_symbol {al n k : Nat} {a b : AcRun} (ha : a.ac.mode = .initial) (hb : b.ac.mode ≠ .initial)
    (h : acSymbol src map a = .ok b) : acBand src map al (n + 1) k a = acBand src map al (n + 1) k b := by
  simp only [acBand, acPosition, ha, if_true, h, hb, if_false]

/-- A pass in another state visits its position (R165). -/
theorem acBand_visit {al n k : Nat} {a b : AcRun} (ha : a.ac.mode ≠ .initial)
    (h : acVisit src al (zz k) a = .ok b) :
    acBand src map al (n + 1) k a = acBand src map al n (k + 1) b := by
  simp only [acBand, acPosition, ha, if_false, h]

/-- A pass in state `INITIAL` whose symbol fails (R165). -/
theorem acBand_symbol_error {al n k : Nat} {a : AcRun} {e : CmdError} (ha : a.ac.mode = .initial)
    (h : acSymbol src map a = .error e) : acBand src map al (n + 1) k a = .error e := by
  simp only [acBand, acPosition, ha, if_true, h]

/-- A pass in another state whose visit fails (R165). -/
theorem acBand_visit_error {al n k : Nat} {a : AcRun} {e : CmdError} (ha : a.ac.mode ≠ .initial)
    (h : acVisit src al (zz k) a = .error e) : acBand src map al (n + 1) k a = .error e := by
  simp only [acBand, acPosition, ha, if_false, h]

theorem refine_error {al z : Nat} {a : AcRun} {e : CmdError} (h : BitFails src a.br e) :
    refine src al z a = .error e := by
  simp only [refine, readBit_error_iff.2 h]

theorem refine_ok {al z : Nat} {a : AcRun} {b : Bool} {r : BitReader} (h : fetchBit src a.br = .bit b r) :
    refine src al z a = .ok { a with
      blk := setLane a.blk z (toWord (wrap32 (signed (lane a.blk z) +
        (if signed (lane a.blk z) < 0 then -1 else 1) * b.toNat * 2 ^ al))), br := r } := by
  simp only [refine, readBit_ok_iff.2 h]

/-- R165's loop. -/
theorem acBand_run (hf : Functional map) {al e k : Nat} {a : AcRun} {o : Except CmdError AcRun}
    (h : SuccRun src map al e k a o) (n : Nat) (hn : n = e + 1 - k) : acBand src map al n k a = o := by
  induction h generalizing n with
  | done past =>
    have : n = 0 := by omega
    subst this; rfl
  | eobSym inside mode sym hs hr bits rest ih =>
    obtain ⟨m, rfl⟩ : ∃ m, n = m + 1 := ⟨n - 1, by omega⟩
    rw [← ih _ hn]
    refine acBand_symbol mode (by simp) ?_
    simp only [acSymbol, (huffDecode_ok_iff hf).2 sym, hs, hr, if_true, recv_ok_iff.2 bits]
  | zrlSym inside mode sym hs hr rest ih =>
    obtain ⟨m, rfl⟩ : ∃ m, n = m + 1 := ⟨n - 1, by omega⟩
    rw [← ih _ hn]
    refine acBand_symbol mode (by simp) ?_
    simp only [acSymbol, (huffDecode_ok_iff hf).2 sym, hs, hr, if_true, if_false]
  | valueSym inside mode sym hs bit rest ih =>
    obtain ⟨m, rfl⟩ : ∃ m, n = m + 1 := ⟨n - 1, by omega⟩
    rw [← ih _ hn]
    refine acBand_symbol mode (by dsimp only; split_ifs <;> simp) ?_
    simp only [acSymbol, (huffDecode_ok_iff hf).2 sym, hs, one_ne_zero, if_true, if_false, readBit_ok_iff.2 bit]
    rename_i b _ _
    cases b <;> rfl
  | refineLane inside mode nonzero bit rest ih =>
    obtain ⟨m, rfl⟩ : ∃ m, n = m + 1 := ⟨n - 1, by omega⟩
    rw [← ih m (by omega)]
    refine acBand_visit mode ?_
    rename_i a _ _ _
    simp only [acVisit, nonzero, ne_eq, not_false_eq_true, if_true]
    cases hm : a.ac.mode with
    | initial => exact absurd hm mode
    | _ => exact refine_ok bit
  | skipLane inside mode zero rest ih =>
    obtain ⟨m, rfl⟩ : ∃ m, n = m + 1 := ⟨n - 1, by omega⟩
    rw [← ih m (by omega)]
    rcases mode with mode | mode <;>
      refine acBand_visit (by simp [mode]) ?_ <;>
      simp [acVisit, zero, mode]
  | placeLane inside mode zero rest ih =>
    obtain ⟨m, rfl⟩ : ∃ m, n = m + 1 := ⟨n - 1, by omega⟩
    rw [← ih m (by omega)]
    refine acBand_visit (by simp [mode]) ?_
    simp [acVisit, zero, mode]
  | eobLane inside mode zero rest ih =>
    obtain ⟨m, rfl⟩ : ∃ m, n = m + 1 := ⟨n - 1, by omega⟩
    rw [← ih m (by omega)]
    refine acBand_visit (by simp [mode]) ?_
    simp [acVisit, zero, mode]
  | symFails inside mode sym =>
    obtain ⟨m, rfl⟩ : ∃ m, n = m + 1 := ⟨n - 1, by omega⟩
    exact acBand_symbol_error mode (by simp only [acSymbol, huffDecode_error_iff.2 sym])
  | runFails inside mode sym hs hr bits =>
    obtain ⟨m, rfl⟩ : ∃ m, n = m + 1 := ⟨n - 1, by omega⟩
    refine acBand_symbol_error mode ?_
    simp only [acSymbol, (huffDecode_ok_iff hf).2 sym, hs, hr, if_true, recv_error_iff.2 bits]
  | badSym inside mode sym hs =>
    obtain ⟨m, rfl⟩ : ∃ m, n = m + 1 := ⟨n - 1, by omega⟩
    refine acBand_symbol_error mode ?_
    simp only [acSymbol, (huffDecode_ok_iff hf).2 sym, hs.1, hs.2, if_false]
  | valueFails inside mode sym hs bit =>
    obtain ⟨m, rfl⟩ : ∃ m, n = m + 1 := ⟨n - 1, by omega⟩
    refine acBand_symbol_error mode ?_
    simp only [acSymbol, (huffDecode_ok_iff hf).2 sym, hs, one_ne_zero, if_true, if_false, readBit_error_iff.2 bit]
  | refineFails inside mode nonzero bit =>
    obtain ⟨m, rfl⟩ : ∃ m, n = m + 1 := ⟨n - 1, by omega⟩
    refine acBand_visit_error mode ?_
    rename_i a _
    simp only [acVisit, nonzero, ne_eq, not_false_eq_true, if_true]
    cases hm : a.ac.mode with
    | initial => exact absurd hm mode
    | _ => exact refine_error bit

end Sys2Proof.Machine
end

