-- ==== Sys2Proof/Laws/Decode.lean ====
section
/-!
SUPPORT. The fields of a packed word, and the rows of the opcode map.
-/

namespace Sys2Proof

/-! ## Fields -/

theorem extract_append_low {v w : Nat} (x : BitVec v) (y : BitVec w) {k n : Nat} (h : k + n ≤ w) :
    (x ++ y).extractLsb' k n = y.extractLsb' k n := by
  apply BitVec.eq_of_getLsbD_eq
  intro j hj
  simp only [BitVec.getLsbD_extractLsb', BitVec.getLsbD_append, show k + j < w by omega, if_true, hj]

theorem extract_append_high {v w : Nat} (x : BitVec v) (y : BitVec w) {k n : Nat} (h : w ≤ k) :
    (x ++ y).extractLsb' k n = x.extractLsb' (k - w) n := by
  apply BitVec.eq_of_getLsbD_eq
  intro j hj
  simp only [BitVec.getLsbD_extractLsb', BitVec.getLsbD_append, show ¬ k + j < w by omega, if_false, hj,
    show k + j - w = k - w + j by omega]

theorem extract_all {w : Nat} (x : BitVec w) : x.extractLsb' 0 w = x := by
  apply BitVec.eq_of_getLsbD_eq
  intro j hj
  simp [hj]

section Fields

variable (op : Byte) (d s t u : Nib) (i : Byte)

@[simp] theorem fieldI_packWord : fieldI (packWord op d s t u i) = i :=
  (extract_append_low (op ++ d ++ s ++ t ++ u) i (by decide)).trans (extract_all i)

@[simp] theorem fieldU_packWord : fieldU (packWord op d s t u i) = u :=
  (extract_append_high (op ++ d ++ s ++ t ++ u) i (by decide)).trans
    ((extract_append_low (op ++ d ++ s ++ t) u (by decide)).trans (extract_all u))

@[simp] theorem fieldT_packWord : fieldT (packWord op d s t u i) = t :=
  (extract_append_high (op ++ d ++ s ++ t ++ u) i (by decide)).trans
    ((extract_append_high (op ++ d ++ s ++ t) u (by decide)).trans
      ((extract_append_low (op ++ d ++ s) t (by decide)).trans (extract_all t)))

@[simp] theorem fieldS_packWord : fieldS (packWord op d s t u i) = s :=
  (extract_append_high (op ++ d ++ s ++ t ++ u) i (by decide)).trans
    ((extract_append_high (op ++ d ++ s ++ t) u (by decide)).trans
      ((extract_append_high (op ++ d ++ s) t (by decide)).trans
        ((extract_append_low (op ++ d) s (by decide)).trans (extract_all s))))

@[simp] theorem fieldD_packWord : fieldD (packWord op d s t u i) = d :=
  (extract_append_high (op ++ d ++ s ++ t ++ u) i (by decide)).trans
    ((extract_append_high (op ++ d ++ s ++ t) u (by decide)).trans
      ((extract_append_high (op ++ d ++ s) t (by decide)).trans
        ((extract_append_high (op ++ d) s (by decide)).trans
          ((extract_append_low op d (by decide)).trans (extract_all d)))))

@[simp] theorem fieldOP_packWord : fieldOP (packWord op d s t u i) = op :=
  (extract_append_high (op ++ d ++ s ++ t ++ u) i (by decide)).trans
    ((extract_append_high (op ++ d ++ s ++ t) u (by decide)).trans
      ((extract_append_high (op ++ d ++ s) t (by decide)).trans
        ((extract_append_high (op ++ d) s (by decide)).trans
          ((extract_append_high op d (by decide)).trans (extract_all op)))))

end Fields

/-- A word is what its fields pack to. -/
theorem packWord_fields (w : Word) :
    packWord (fieldOP w) (fieldD w) (fieldS w) (fieldT w) (fieldU w) (fieldI w) = w := by
  apply BitVec.eq_of_getLsbD_eq
  intro j hj
  simp only [packWord, fieldOP, fieldD, fieldS, fieldT, fieldU, fieldI, BitVec.getLsbD_append,
    BitVec.getLsbD_extractLsb']
  split_ifs <;> rw [decide_eq_true (by omega), Bool.true_and] <;> congr 1 <;> omega

@[simp] theorem hiNib_append (c k : Nib) : hiNib (c ++ k) = c :=
  (extract_append_high c k (by decide)).trans (extract_all c)

@[simp] theorem loNib_append (c k : Nib) : loNib (c ++ k) = k :=
  (extract_append_low c k (by decide)).trans (extract_all k)

theorem nibs_append (b : Byte) : hiNib b ++ loNib b = b := by
  apply BitVec.eq_of_getLsbD_eq
  intro j hj
  simp only [hiNib, loNib, BitVec.getLsbD_append, BitVec.getLsbD_extractLsb']
  split_ifs <;> rw [decide_eq_true (by omega), Bool.true_and] <;> congr 1 <;> omega

theorem append_toNat {m n : Nat} (x : BitVec m) (y : BitVec n) : (x ++ y).toNat = x.toNat * 2 ^ n + y.toNat := by
  rw [BitVec.toNat_append, Nat.shiftLeft_eq, Nat.mul_comm, ← Nat.two_pow_add_eq_or_of_lt y.isLt]

/-- The number of a packed word (R90). -/
theorem packWord_eq (op : Byte) (d s t u : Nib) (i : Byte) :
    packWord op d s t u i = BitVec.ofNat 32 (op.toNat * 2 ^ 24 + d.toNat * 2 ^ 20 + s.toNat * 2 ^ 16 +
      t.toNat * 2 ^ 12 + u.toNat * 2 ^ 8 + i.toNat) := by
  have h1 := op.isLt
  have h2 := d.isLt
  have h3 := s.isLt
  have h4 := t.isLt
  have h5 := u.isLt
  have h6 := i.isLt
  apply BitVec.eq_of_toNat_eq
  rw [BitVec.toNat_ofNat, Nat.mod_eq_of_lt (by omega)]
  simp only [packWord, append_toNat]
  omega

/-! ## The opcode map -/

/-- The opcode of an instruction (30_encoding R93). -/
def Instr.opcode : Instr → Byte
  | .nop => 0x00
  | .zero _ => 0x01
  | .copy _ _ => 0x02
  | .readbit => 0x10
  | .receive _ => 0x11
  | .receivex _ => 0x12
  | .align => 0x13
  | .scaninit => 0x14
  | .rstsync => 0x15
  | .htload _ => 0x20
  | .hdec _ _ => 0x21
  | .decbase _ _ _ _ => 0x30
  | .dcfirst _ _ _ => 0x31
  | .dcsucc _ => 0x32
  | .acfirst _ _ => 0x33
  | .acsucc _ _ => 0x34
  | .qload _ => 0x40
  | .dequant _ _ _ => 0x41
  | .idct _ _ => 0x42
  | .qscale _ _ _ => 0x50
  | .eqload _ _ => 0x51
  | .fdctq _ _ _ => 0x52
  | .zzfwd _ _ => 0x60
  | .zzinv _ _ => 0x61

/-- The row that an opcode finds stands in the table under that opcode. -/
theorem opRow_some {op : Byte} {row : OpRow} (h : opRow op = some row) : row ∈ opcodeTable ∧ row.op = op :=
  ⟨List.mem_of_find?_eq_some h, by simpa using List.find?_some h⟩

/-- No two rows of the opcode map share an opcode. -/
theorem opcodeTable_distinct : (opcodeTable.map OpRow.op).Pairwise (· ≠ ·) := by decide

end Sys2Proof
end

