-- ==== Sys2Proof/Laws/Exec.lean ====
section
/-!
SUPPORT. Each arm of the dispatch as the command frame around the command's own effect.
-/

namespace Sys2Proof.Machine

variable (s : State)

theorem exec_nop :
    exec .nop s = runCommand .nop
      (fun s => .ok s) s := rfl

theorem exec_zero (d : Nib) :
    exec (.zero d) s = runCommand (.zero d)
      (fun s => .ok (s.setBuf d.toNat zeroBlock)) s := rfl

theorem exec_copy (d b : Nib) :
    exec (.copy d b) s = runCommand (.copy d b)
      (fun s => .ok (s.setBuf d.toNat (s.buf b.toNat))) s := rfl

theorem exec_readbit :
    exec .readbit s = runCommand .readbit
      readbitBody s := rfl

theorem exec_receive (n : Byte) :
    exec (.receive n) s = runCommand (.receive n)
      (receiveBody n) s := rfl

theorem exec_receivex (n : Byte) :
    exec (.receivex n) s = runCommand (.receivex n)
      (receivexBody n) s := rfl

theorem exec_align :
    exec .align s = runCommand .align
      (fun s => .ok { s with br := s.br.aligned }) s := rfl

theorem exec_scaninit :
    exec .scaninit s = runCommand .scaninit
      (fun s => .ok (clearScan s)) s := rfl

theorem exec_rstsync :
    exec .rstsync s = runCommand .rstsync
      rstsyncBody s := rfl

theorem exec_htload (spec : Byte) :
    exec (.htload spec) s = runCommand (.htload spec)
      (htloadBody spec) s := rfl

theorem exec_hdec (c k : Nib) :
    exec (.hdec c k) s = runCommand (.hdec c k)
      (hdecBody c k) s := rfl

theorem exec_decbase (d t u : Nib) (p : Byte) :
    exec (.decbase d t u p) s = runCommand (.decbase d t u p)
      (decbaseBody d t u p) s := rfl

theorem exec_dcfirst (d t : Nib) (p : Byte) :
    exec (.dcfirst d t p) s = runCommand (.dcfirst d t p)
      (dcfirstBody d t p) s := rfl

theorem exec_dcsucc (d : Nib) :
    exec (.dcsucc d) s = runCommand (.dcsucc d)
      (dcsuccBody d) s := rfl

theorem exec_acfirst (d u : Nib) :
    exec (.acfirst d u) s = runCommand (.acfirst d u)
      (acfirstBody d u) s := rfl

theorem exec_acsucc (d u : Nib) :
    exec (.acsucc d u) s = runCommand (.acsucc d u)
      (acsuccBody d u) s := rfl

theorem exec_qload (spec : Byte) :
    exec (.qload spec) s = runCommand (.qload spec)
      (qloadBody spec) s := rfl

theorem exec_dequant (d b t : Nib) :
    exec (.dequant d b t) s = runCommand (.dequant d b t)
      (fun s => .ok (s.setBuf d.toNat (dequantized (s.buf b.toNat) (s.qt t.toNat)))) s := rfl

theorem exec_idct (d b : Nib) :
    exec (.idct d b) s = runCommand (.idct d b)
      (fun s => .ok (s.setBuf d.toNat (idctBlock (s.buf b.toNat)))) s := rfl

theorem exec_qscale (d b : Nib) (q : Byte) :
    exec (.qscale d b q) s = runCommand (.qscale d b q)
      (fun s => .ok (s.setBuf d.toNat (qscaled (s.buf b.toNat) q.toNat))) s := rfl

theorem exec_eqload (b t : Nib) :
    exec (.eqload b t) s = runCommand (.eqload b t)
      (eqloadBody b t) s := rfl

theorem exec_fdctq (d b t : Nib) :
    exec (.fdctq d b t) s = runCommand (.fdctq d b t)
      (fun s => .ok (s.setBuf d.toNat (fdctqBlock s.cfg.roundImpl (s.buf b.toNat) (s.fq t.toNat)))) s := rfl

theorem exec_zzfwd (d b : Nib) :
    exec (.zzfwd d b) s = runCommand (.zzfwd d b)
      (fun s => .ok (s.setBuf d.toNat (toZigzag (s.buf b.toNat)))) s := rfl

theorem exec_zzinv (d b : Nib) :
    exec (.zzinv d b) s = runCommand (.zzinv d b)
      (fun s => .ok (s.setBuf d.toNat (toNatural (s.buf b.toNat)))) s := rfl

end Sys2Proof.Machine
end

