-- ==== Sys2Proof/Laws/Float64.lean ====
section
/-!
SUPPORT. Packing and rounding of binary64 values (00_scope R9).
-/

namespace Sys2Proof.Machine

/-! ## Patterns -/

section Pattern

variable (neg : Bool) {ex fr : Nat}

theorem pattern_toNat (he : ex < 2048) (hf : fr < 2 ^ 52) :
    (pattern neg ex fr).toNat = neg.toNat * 2 ^ 63 + ex * 2 ^ 52 + fr := by
  have : neg.toNat ≤ 1 := Bool.toNat_le neg
  simp only [pattern, BitVec.toNat_ofNat]
  exact Nat.mod_eq_of_lt (by omega)

theorem pattern_sign (he : ex < 2048) (hf : fr < 2 ^ 52) : (pattern neg ex fr).getLsbD 63 = neg := by
  rw [BitVec.getLsbD, pattern_toNat neg he hf, Nat.testBit_eq_decide_div_mod_eq]
  cases neg <;> simp <;> omega

theorem pattern_low (he : ex < 2048) (hf : fr < 2 ^ 52) (h : fr % 2 = 0) :
    (pattern neg ex fr).getLsbD 0 = false := by
  rw [BitVec.getLsbD, pattern_toNat neg he hf, Nat.testBit_eq_decide_div_mod_eq]
  cases neg <;> simp <;> omega

theorem unpack_pattern (he : ex < 2048) (hf : fr < 2 ^ 52) :
    unpack (pattern neg ex fr) =
      if ex = 2047 then (if fr = 0 then .inf neg else .nan)
      else if ex = 0 then .fin neg fr (-1074) else .fin neg (2 ^ 52 + fr) ((ex : Int) - 1075) := by
  have h1 : (pattern neg ex fr).toNat / 2 ^ 52 % 2048 = ex := by
    rw [pattern_toNat neg he hf]; cases neg <;> simp <;> omega
  have h2 : (pattern neg ex fr).toNat % 2 ^ 52 = fr := by
    rw [pattern_toNat neg he hf]; cases neg <;> simp <;> omega
  simp only [unpack, h1, h2, pattern_sign neg he hf]

end Pattern

/-! ## Values -/

/-- A finite value is a signed significand of 53 bits times a power of two no lower than `2^-1074`. -/
theorem f64Value_some {y : F64} {z : ℚ} (h : f64Value y = some z) :
    ∃ (neg : Bool) (k : Nat) (f : Int), z = (if neg then -(k : ℚ) else k) * 2 ^ f ∧ k < 2 ^ 53 ∧ -1074 ≤ f := by
  simp only [f64Value, unpack] at h
  have hk : y.toNat % 2 ^ 52 < 2 ^ 52 := Nat.mod_lt _ (by norm_num)
  split_ifs at h with h1 h2 h3
  · cases h; exact ⟨_, _, _, rfl, by omega, le_refl _⟩
  · cases h; exact ⟨_, _, _, rfl, by omega, by omega⟩

theorem f64Value_pattern_zero (neg : Bool) : f64Value (pattern neg 0 0) = some 0 := by
  rw [f64Value, unpack_pattern neg (by norm_num) (by norm_num)]
  simp only [show ¬ (0 = 2047) by norm_num, if_false, if_true, Nat.cast_zero, neg_zero, ite_self, zero_mul]

/-- What packing a significand makes of it. -/
theorem packExact_value {neg : Bool} {q : Nat} {e : Int} (hq : q ≤ 2 ^ 53) (he : -1074 ≤ e)
    (hs : q < 2 ^ 52 → e = -1074) {x : ℚ} (h : f64Value (packExact neg q e) = some x) :
    x = (if neg then -(q : ℚ) else q) * 2 ^ e := by
  simp only [packExact] at h
  split_ifs at h with h1 h2 h3 h4
  · rw [f64Value, unpack_pattern neg (by norm_num) h1] at h
    simp only [show ¬ (0 = 2047) by norm_num, if_false, if_true, Option.some.injEq] at h
    rw [← h, hs h1]
  · rw [f64Value, f64Inf, unpack_pattern neg (by norm_num) (by norm_num)] at h
    simp at h
  · subst h2
    obtain ⟨n, hn⟩ : ∃ n : Nat, e + 1 + 1075 = n := ⟨(e + 1 + 1075).toNat, by omega⟩
    rw [hn] at h h3
    rw [f64Value, unpack_pattern neg (by omega) (by norm_num)] at h
    simp only [Int.toNat_natCast, show ¬ n = 2047 by omega, show ¬ n = 0 by omega, if_false, Option.some.injEq] at h
    rw [← h, show (n : Int) - 1075 = e + 1 by omega, zpow_add_one₀ (by norm_num)]
    cases neg <;> norm_num <;> ring
  · rw [f64Value, f64Inf, unpack_pattern neg (by norm_num) (by norm_num)] at h
    simp at h
  · obtain ⟨n, hn⟩ : ∃ n : Nat, e + 1075 = n := ⟨(e + 1075).toNat, by omega⟩
    rw [hn] at h h4
    have hf : q - 2 ^ 52 < 2 ^ 52 := by omega
    rw [f64Value, unpack_pattern neg (by omega) hf] at h
    simp only [Int.toNat_natCast, show ¬ n = 2047 by omega, show ¬ n = 0 by omega, if_false, Option.some.injEq] at h
    rw [← h, show (n : Int) - 1075 = e by omega, show 2 ^ 52 + (q - 2 ^ 52) = q by omega]

/-- An even significand packs to a pattern with bit 0 clear. -/
theorem packExact_even {neg : Bool} {q : Nat} {e : Int} (hq : q ≤ 2 ^ 53) (hev : q % 2 = 0) :
    (packExact neg q e).getLsbD 0 = false := by
  simp only [packExact]
  split_ifs with h1 h2 h3 h4
  · exact pattern_low neg (by norm_num) h1 hev
  · exact pattern_low neg (by norm_num) (by norm_num) rfl
  · exact pattern_low neg (by omega) (by norm_num) rfl
  · exact pattern_low neg (by norm_num) (by norm_num) rfl
  · exact pattern_low neg (by omega) (by omega) (by omega)

/-! ## Rounding -/

/-- `n` is an integer nearest to `x`, and an even one if two are. -/
def NearestInt (x : ℚ) (n : Nat) : Prop := |(n : ℚ) - x| ≤ 1 / 2 ∧ (|(n : ℚ) - x| = 1 / 2 → n % 2 = 0)

theorem NearestInt.of_eq {x : ℚ} {n : Nat} (h : x = n) : NearestInt x n := by
  subst h; constructor <;> norm_num

/-- No integer is nearer, and another as near leaves `n` even. -/
theorem NearestInt.best {x : ℚ} {n : Nat} (h : NearestInt x n) (k : Int) :
    |(n : ℚ) - x| ≤ |(k : ℚ) - x| ∧ (|(n : ℚ) - x| = |(k : ℚ) - x| → (k : ℚ) = n ∨ n % 2 = 0) := by
  by_cases hk : k = n
  · subst hk; simp
  · have h1 : (1 : ℚ) ≤ |(k : ℚ) - n| := by
      have : (1 : Int) ≤ |k - n| := Int.one_le_abs (sub_ne_zero.2 hk)
      exact_mod_cast this
    have h2 : |(k : ℚ) - n| ≤ |(k : ℚ) - x| + |(n : ℚ) - x| := by
      rw [abs_sub_comm (n : ℚ) x]; exact abs_sub_le _ _ _
    refine ⟨by linarith [h.1], fun e => .inr (h.2 ?_)⟩
    linarith [h.1]

/-- Rounding away the low `k` bits of `m` is rounding `m / 2^k` to an integer, ties to even. -/
theorem roundShift_nearest (m k : Nat) : NearestInt (m / 2 ^ k) (roundShift m k) := by
  have hp : (0 : ℚ) < 2 ^ k := by positivity
  have hd : m = 2 ^ k * (m / 2 ^ k) + m % 2 ^ k := (Nat.div_add_mod m _).symm
  have hr : m % 2 ^ k < 2 ^ k := Nat.mod_lt _ (by positivity)
  simp only [roundShift]
  generalize m / 2 ^ k = q, m % 2 ^ k = r at hd hr ⊢
  have hx : (m : ℚ) / 2 ^ k = q + r / 2 ^ k := by
    rw [hd]; push_cast; field_simp
  have h0 : (0 : ℚ) ≤ r / 2 ^ k := by positivity
  have h1 : (r : ℚ) / 2 ^ k < 1 := by rw [div_lt_one hp]; exact_mod_cast hr
  have hlt : 2 * r < 2 ^ k ↔ (r : ℚ) / 2 ^ k < 1 / 2 := by
    rw [div_lt_div_iff₀ hp (by norm_num)]; constructor <;> intro h
    · have : ((2 * r : ℕ) : ℚ) < ((2 ^ k : ℕ) : ℚ) := by exact_mod_cast h
      push_cast at this; linarith
    · have : ((2 * r : ℕ) : ℚ) < ((2 ^ k : ℕ) : ℚ) := by push_cast; linarith
      exact_mod_cast this
  have heq : 2 * r = 2 ^ k ↔ (r : ℚ) / 2 ^ k = 1 / 2 := by
    rw [div_eq_div_iff hp.ne' (by norm_num)]; constructor <;> intro h
    · have : ((2 * r : ℕ) : ℚ) = ((2 ^ k : ℕ) : ℚ) := by exact_mod_cast h
      push_cast at this; linarith
    · have : ((2 * r : ℕ) : ℚ) = ((2 ^ k : ℕ) : ℚ) := by push_cast; linarith
      exact_mod_cast this
  rw [hx]
  split_ifs with h
  · have h2 : (1 : ℚ) / 2 ≤ r / 2 ^ k := by
      rcases h with h | h
      · exact not_lt.1 fun x => absurd (hlt.2 x) (by omega)
      · exact (heq.1 h.1).ge
    have e : ((q + 1 : ℕ) : ℚ) - (q + r / 2 ^ k) = 1 - r / 2 ^ k := by push_cast; ring
    rw [NearestInt, e, abs_of_nonneg (by linarith)]
    refine ⟨by linarith, fun h3 => ?_⟩
    have := heq.2 (by linarith)
    omega
  · have h2 : (r : ℚ) / 2 ^ k ≤ 1 / 2 := by
      by_contra x
      have a1 : ¬ 2 * r < 2 ^ k := fun y => x (hlt.1 y).le
      have a2 : ¬ 2 * r = 2 ^ k := fun y => x (heq.1 y).le
      omega
    have e : (q : ℚ) - (q + r / 2 ^ k) = -(r / 2 ^ k) := by ring
    rw [NearestInt, e, abs_neg, abs_of_nonneg h0]
    refine ⟨h2, fun h3 => ?_⟩
    have := heq.2 h3
    omega

/-- A significand nearest to `x · 2^-e` packs to a value nearest to `x`: the precision of binary64 is used to the
full, and where it is not (`x · 2^-e < 2^52`), `e` is the lowest exponent. -/
theorem packExact_nearest {neg : Bool} {q : Nat} {e : Int} {x : ℚ} (hq : q ≤ 2 ^ 53) (he : -1074 ≤ e)
    (hs : q < 2 ^ 52 → e = -1074) (hx : 2 ^ 52 ≤ x ∨ e = -1074) (hn : NearestInt x q) :
    NearestEven ((if neg then -1 else 1) * (x * 2 ^ e)) (packExact neg q e) := by
  intro v hv y z hz
  have hv' := packExact_value hq he hs hv
  obtain ⟨sy, k, f, hzv, hk, hf⟩ := f64Value_some hz
  have hpe : (0 : ℚ) < 2 ^ e := by positivity
  -- the sign of `neg` taken out
  obtain ⟨w, hw⟩ : ∃ w : ℚ, z = (if neg then -1 else 1) * (w * 2 ^ e) := by
    refine ⟨(if neg then -1 else 1) * z / 2 ^ e, ?_⟩
    cases neg <;> simp [hpe.ne']
  have key : |(q : ℚ) - x| ≤ |w - x| ∧ (|(q : ℚ) - x| = |w - x| → w = q ∨ q % 2 = 0) := by
    by_cases hfe : e ≤ f
    · -- `z` is a multiple of `2^e`
      obtain ⟨d, hd⟩ : ∃ d : Nat, f = e + d := ⟨(f - e).toNat, by omega⟩
      obtain ⟨c, hc⟩ : ∃ c : Int, w = c := by
        refine ⟨(if neg then -1 else 1) * (if sy then -(k : Int) else k) * 2 ^ d, ?_⟩
        have h1 : (if neg then (-1 : ℚ) else 1) * (w * 2 ^ e) = (if sy then -(k : ℚ) else k) * (2 ^ e * 2 ^ d) := by
          rw [← hw, hzv, hd, zpow_add₀ (by norm_num), zpow_natCast]
        have h2 : (if neg then (-1 : ℚ) else 1) * (if neg then (-1 : ℚ) else 1) = 1 := by cases neg <;> norm_num
        have h3 : w * 2 ^ e = ((if neg then -1 else 1) * (if sy then -(k : ℚ) else k) * 2 ^ d) * 2 ^ e := by
          calc w * 2 ^ e = (if neg then (-1 : ℚ) else 1) * ((if neg then (-1 : ℚ) else 1) * (w * 2 ^ e)) := by
                rw [← mul_assoc, h2, one_mul]
            _ = _ := by rw [h1]; ring
        rw [mul_right_cancel₀ hpe.ne' h3]
        cases neg <;> cases sy <;> push_cast <;> ring
      rw [hc]
      exact hn.best c
    · -- `z` is too small
      have hx' : (2 : ℚ) ^ 52 ≤ x := hx.resolve_right (by omega)
      have hw' : |w| < 2 ^ 52 := by
        have h1 : |z| = |w| * 2 ^ e := by
          rw [hw, abs_mul, abs_mul, abs_of_pos hpe]
          cases neg <;> simp
        have h2 : |z| = k * 2 ^ f := by
          rw [hzv, abs_mul, abs_of_pos (show (0 : ℚ) < 2 ^ f by positivity)]
          cases sy <;> simp
        have h3 : (2 : ℚ) ^ f ≤ 2 ^ (e - 1) := zpow_le_zpow_right₀ (by norm_num) (by omega)
        have h4 : (k : ℚ) < 2 ^ 53 := by exact_mod_cast hk
        have h5 : (2 : ℚ) ^ (e - 1) = 2 ^ e / 2 := by rw [zpow_sub_one₀ (by norm_num)]; ring
        have h6 : (k : ℚ) * 2 ^ f < 2 ^ 52 * 2 ^ e := by
          have : (0 : ℚ) < 2 ^ f := by positivity
          nlinarith
        rw [← h2, h1] at h6
        exact lt_of_mul_lt_mul_right h6 hpe.le
      have h7 := (hn.best (2 ^ 52)).1
      have h8 : |w - x| > |((2 ^ 52 : Int) : ℚ) - x| := by
        rw [show ((2 ^ 52 : Int) : ℚ) = 2 ^ 52 by norm_num]
        rw [abs_of_nonpos (by linarith : (2 : ℚ) ^ 52 - x ≤ 0)]
        rw [abs_lt] at hw'
        rw [abs_of_nonpos (by linarith : w - x ≤ 0)]
        linarith
      exact ⟨h7.trans h8.le, fun h => absurd h (by linarith)⟩
  have scale : ∀ a : ℚ, |(if neg then -1 else 1) * (a * 2 ^ e) - (if neg then -1 else 1) * (x * 2 ^ e)| = |a - x| * 2 ^ e := by
    intro a
    rw [← mul_sub, ← sub_mul, abs_mul, abs_mul, abs_of_pos hpe]
    cases neg <;> simp
  have hvs : v = (if neg then -1 else 1) * ((q : ℚ) * 2 ^ e) := by rw [hv']; cases neg <;> simp
  rw [hvs, hw, scale, scale]
  refine ⟨mul_le_mul_of_nonneg_right key.1 hpe.le, fun h => ?_⟩
  rcases key.2 (mul_right_cancel₀ hpe.ne' h) with h | h
  · exact .inl (by rw [h])
  · exact .inr (packExact_even hq h)

/-- `roundTo` rounds to nearest, ties to even. -/
theorem roundTo_nearest (neg : Bool) (m : Nat) (e : Int) :
    NearestEven ((if neg then -1 else 1) * ((m : ℚ) * 2 ^ e)) (roundTo neg m e) := by
  by_cases h0 : m = 0
  · subst h0
    rw [roundTo, if_pos rfl]
    intro v hv y z hz
    rw [f64Value_pattern_zero] at hv
    cases hv
    have : (pattern neg 0 0).getLsbD 0 = false := pattern_low neg (by norm_num) (by norm_num) rfl
    exact ⟨by simp, fun _ => .inr this⟩
  have hlo : 2 ^ m.log2 ≤ m := Nat.log2_self_le h0
  have hhi : m < 2 ^ (m.log2 + 1) := Nat.lt_log2_self
  rw [roundTo, if_neg h0]
  generalize m.log2 = l at hlo hhi ⊢
  dsimp only
  generalize he' : max (e + l - 52) (-1074) = e'
  by_cases h1 : e' ≤ e
  · rw [if_pos h1]
    obtain ⟨d, hd⟩ : ∃ d : Nat, e = e' + d := ⟨(e - e').toNat, by omega⟩
    have hd2 : (e - e').toNat = d := by omega
    have hld : l + d ≤ 52 := by omega
    have hx : (m : ℚ) * 2 ^ e = ((m * 2 ^ d : ℕ) : ℚ) * 2 ^ e' := by
      rw [hd, zpow_add₀ (by norm_num), zpow_natCast]; push_cast; ring
    rw [hx, hd2]
    have hup : m * 2 ^ d < 2 ^ 53 := by
      calc m * 2 ^ d < 2 ^ (l + 1) * 2 ^ d := Nat.mul_lt_mul_of_pos_right hhi (by positivity)
        _ = 2 ^ (l + 1 + d) := (pow_add _ _ _).symm
        _ ≤ 2 ^ 53 := Nat.pow_le_pow_right (by norm_num) (by omega)
    have hdn : e' ≠ -1074 → 2 ^ 52 ≤ m * 2 ^ d := by
      intro h
      have : l + d = 52 := by omega
      calc 2 ^ 52 = 2 ^ l * 2 ^ d := by rw [← pow_add, this]
        _ ≤ m * 2 ^ d := Nat.mul_le_mul_right _ hlo
    refine packExact_nearest hup.le (by omega) (fun h => ?_) ?_ (.of_eq rfl)
    · by_contra c; exact absurd (hdn c) (by omega)
    · by_cases c : e' = -1074
      · exact .inr c
      · exact .inl (by exact_mod_cast hdn c)
  · rw [if_neg h1]
    obtain ⟨d, hd⟩ : ∃ d : Nat, e' = e + d := ⟨(e' - e).toNat, by omega⟩
    have hd2 : (e' - e).toNat = d := by omega
    have hld : l ≤ 52 + d := by omega
    have hp : (0 : ℚ) < 2 ^ d := by positivity
    have hx : (m : ℚ) * 2 ^ e = (m / 2 ^ d) * 2 ^ e' := by
      rw [hd, zpow_add₀ (by norm_num), zpow_natCast]; field_simp
    rw [hx, hd2]
    have hup : m / 2 ^ d < 2 ^ 53 := by
      rw [Nat.div_lt_iff_lt_mul (by positivity), ← pow_add]
      exact hhi.trans_le (Nat.pow_le_pow_right (by norm_num) (by omega))
    have hdn : e' ≠ -1074 → 2 ^ 52 * 2 ^ d ≤ m := by
      intro h
      have : l = 52 + d := by omega
      rw [← pow_add, ← this]; exact hlo
    have hrs : m / 2 ^ d ≤ roundShift m d ∧ roundShift m d ≤ m / 2 ^ d + 1 := by
      simp only [roundShift]; split_ifs <;> omega
    refine packExact_nearest (by omega) (by omega) (fun h => ?_) ?_ (roundShift_nearest m d)
    · by_contra c
      have := (Nat.le_div_iff_mul_le (by positivity)).2 (hdn c)
      omega
    · by_cases c : e' = -1074
      · exact .inr c
      · refine .inl ((le_div_iff₀ hp).2 ?_)
        exact_mod_cast hdn c

/-! ## Finite results -/

/-- Packing a significand at an exponent that is not too high gives a finite value. -/
theorem packExact_fin {neg : Bool} {q : Nat} {e : Int} (hq : q ≤ 2 ^ 53) (he : -1074 ≤ e)
    (hm : e ≤ 970 ∨ e ≤ 971 ∧ q < 2 ^ 53) : ∃ k f, unpack (packExact neg q e) = .fin neg k f := by
  simp only [packExact]
  split_ifs with h1 h2 h3 h4
  · rw [unpack_pattern neg (by norm_num) h1]; exact ⟨q, -1074, by simp⟩
  · omega
  · rw [unpack_pattern neg (by omega) (by norm_num)]
    exact ⟨_, _, by rw [if_neg (by omega), if_neg (by omega)]⟩
  · omega
  · rw [unpack_pattern neg (by omega) (by omega)]
    exact ⟨_, _, by rw [if_neg (by omega), if_neg (by omega)]⟩

theorem f64Max_bounds : (2 : ℚ) ^ (1023 : Int) ≤ f64Max ∧ f64Max < (2 : ℚ) ^ (1024 : Int) := by
  have h1 : (2 : ℚ) ^ (1023 : Int) = 2 ^ 52 * 2 ^ 971 := by
    rw [← pow_add]; exact zpow_natCast 2 1023
  have h2 : (2 : ℚ) ^ (1024 : Int) = 2 ^ 53 * 2 ^ 971 := by
    rw [← pow_add]; exact zpow_natCast 2 1024
  rw [h1, h2, f64Max]
  have hp : (0 : ℚ) < 2 ^ 971 := by positivity
  exact ⟨mul_le_mul_of_nonneg_right (by norm_num) hp.le, mul_lt_mul_of_pos_right (by norm_num) hp⟩

/-- A value in the finite range rounds to a finite one. -/
theorem roundTo_fin (neg : Bool) {m : Nat} {e : Int} (h : (m : ℚ) * 2 ^ e ≤ f64Max) :
    ∃ k f, unpack (roundTo neg m e) = .fin neg k f := by
  by_cases h0 : m = 0
  · rw [roundTo, if_pos h0, unpack_pattern neg (by norm_num) (by norm_num)]
    exact ⟨0, -1074, by simp⟩
  have hlo : 2 ^ m.log2 ≤ m := Nat.log2_self_le h0
  have hhi : m < 2 ^ (m.log2 + 1) := Nat.lt_log2_self
  have hl : e + m.log2 ≤ 1023 := by
    have h1 : (2 : ℚ) ^ (e + m.log2) ≤ m * 2 ^ e := by
      rw [zpow_add₀ (by norm_num), zpow_natCast, mul_comm]
      refine mul_le_mul_of_nonneg_right ?_ (by positivity)
      exact_mod_cast hlo
    have := (zpow_lt_zpow_iff_right₀ (by norm_num : (1 : ℚ) < 2)).1 ((h1.trans h).trans_lt f64Max_bounds.2)
    omega
  rw [roundTo, if_neg h0]
  generalize m.log2 = l at hl hlo hhi ⊢
  dsimp only
  generalize he' : max (e + l - 52) (-1074) = e'
  split_ifs with h1
  · have : m * 2 ^ (e - e').toNat < 2 ^ 53 := by
      calc m * 2 ^ (e - e').toNat < 2 ^ (l + 1) * 2 ^ (e - e').toNat := Nat.mul_lt_mul_of_pos_right hhi (by positivity)
        _ = 2 ^ (l + 1 + (e - e').toNat) := (pow_add _ _ _).symm
        _ ≤ 2 ^ 53 := Nat.pow_le_pow_right (by norm_num) (by omega)
    exact packExact_fin this.le (by omega) (.inr ⟨by omega, this⟩)
  · obtain ⟨d, hd⟩ : ∃ d : Nat, e' = e + d := ⟨(e' - e).toNat, by omega⟩
    rw [show (e' - e).toNat = d by omega]
    have hq : m / 2 ^ d < 2 ^ 53 := by
      rw [Nat.div_lt_iff_lt_mul (by positivity), ← pow_add]
      exact hhi.trans_le (Nat.pow_le_pow_right (by norm_num) (by omega))
    have hr : roundShift m d ≤ 2 ^ 53 := by
      simp only [roundShift]
      split_ifs <;> omega
    by_cases c : e' ≤ 970
    · exact packExact_fin hr (by omega) (.inl c)
    · -- at the highest exponent the significand is at most `2^53 - 1`, and so is its rounding
      have e971 : e' = 971 := by omega
      refine packExact_fin hr (by omega) (.inr ⟨by omega, ?_⟩)
      have hm : m ≤ (2 ^ 53 - 1) * 2 ^ d := by
        have : (m : ℚ) * 2 ^ e ≤ ((2 ^ 53 - 1) * 2 ^ d) * 2 ^ e := by
          refine h.trans_eq ?_
          rw [f64Max, ← zpow_natCast (2 : ℚ) 971, show ((971 : ℕ) : Int) = e + d by omega, zpow_add₀ (by norm_num),
            zpow_natCast]
          ring
        have h3 := le_of_mul_le_mul_right this (by positivity)
        have h4 : (m : ℚ) ≤ (((2 ^ 53 - 1) * 2 ^ d : ℕ) : ℚ) := by
          rw [Nat.cast_mul, Nat.cast_pow, Nat.cast_sub (by norm_num)]
          push_cast
          exact h3
        exact_mod_cast h4
      rcases hm.lt_or_eq with hm | hm
      · have : m / 2 ^ d < 2 ^ 53 - 1 := (Nat.div_lt_iff_lt_mul (by positivity)).2 hm
        simp only [roundShift]
        split_ifs <;> omega
      · subst hm
        have hp : 0 < 2 ^ d := by positivity
        simp only [roundShift, Nat.mul_mod_left, Nat.mul_div_cancel _ hp, mul_zero]
        rw [if_neg (by omega)]
        norm_num

theorem f64Value_roundTo (neg : Bool) {m : Nat} {e : Int} (h : (m : ℚ) * 2 ^ e ≤ f64Max) :
    ∃ x, f64Value (roundTo neg m e) = some x := by
  obtain ⟨k, f, hu⟩ := roundTo_fin neg h
  exact ⟨_, by simp only [f64Value, hu]; rfl⟩

/-- `roundTo` is rounding to binary64. -/
theorem roundTo_rounded (neg : Bool) (m : Nat) (e : Int) :
    Rounded ((if neg then -1 else 1) * ((m : ℚ) * 2 ^ e)) (roundTo neg m e) := by
  refine ⟨fun h => f64Value_roundTo neg ?_, roundTo_nearest neg m e⟩
  have : (0 : ℚ) ≤ m * 2 ^ e := by positivity
  cases neg <;> simpa [abs_of_nonneg this] using h

/-! ## A quotient with a sticky bit -/

/-- Rounding away `d ≥ 2` low bits sees of `x` only between which two even integers it lies. -/
theorem roundShift_sticky {m d : Nat} {x : ℚ} (hm : m % 2 = 1) (hd : 2 ≤ d) (h1 : (m : ℚ) - 1 < x) (h2 : x < m + 1) :
    NearestInt (x / 2 ^ d) (roundShift m d) := by
  obtain ⟨c, rfl⟩ : ∃ c, d = c + 2 := ⟨d - 2, by omega⟩
  have hp : (0 : ℚ) < 2 ^ (c + 2) := by positivity
  have hdm : m = 2 ^ (c + 2) * (m / 2 ^ (c + 2)) + m % 2 ^ (c + 2) := (Nat.div_add_mod m _).symm
  have hr : m % 2 ^ (c + 2) < 2 ^ (c + 2) := Nat.mod_lt _ (by positivity)
  have h4 : 2 ^ (c + 2) = 4 * 2 ^ c := by ring
  simp only [roundShift]
  generalize m / 2 ^ (c + 2) = q, m % 2 ^ (c + 2) = r at hdm hr ⊢
  -- the remainder of `x`
  obtain ⟨y, hy⟩ : ∃ y : ℚ, x = 2 ^ (c + 2) * q + y := ⟨x - 2 ^ (c + 2) * q, by ring⟩
  have hmq : (m : ℚ) = 2 ^ (c + 2) * q + r := by rw [hdm]; push_cast; ring
  have hro : r % 2 = 1 := by
    have : (2 ^ (c + 2) * q) % 2 = 0 := by rw [h4]; rw [show 4 * 2 ^ c * q = 2 * (2 * 2 ^ c * q) by ring]; omega
    omega
  have y1 : (r : ℚ) - 1 < y := by linarith
  have y2 : y < r + 1 := by linarith
  have hx : x / 2 ^ (c + 2) = q + y / 2 ^ (c + 2) := by rw [hy]; field_simp
  rw [hx]
  have hlt : 2 * r ≠ 2 ^ (c + 2) := by rw [h4]; omega
  split_ifs with h
  · have hr2 : 2 ^ (c + 2) / 2 + 1 ≤ r := by omega
    have hy' : (2 : ℚ) ^ (c + 2) / 2 < y := by
      have : ((2 ^ (c + 2) / 2 + 1 : ℕ) : ℚ) ≤ r := by exact_mod_cast hr2
      have e : ((2 ^ (c + 2) / 2 : ℕ) : ℚ) = 2 ^ (c + 2) / 2 := by
        rw [h4, show 4 * 2 ^ c / 2 = 2 * 2 ^ c by omega]; push_cast; ring
      push_cast [e] at this
      linarith
    have hy2 : y < 2 ^ (c + 2) := by
      have : ((r + 1 : ℕ) : ℚ) ≤ ((2 ^ (c + 2) : ℕ) : ℚ) := by exact_mod_cast hr
      push_cast at this
      linarith
    have l1 : 1 / 2 < y / 2 ^ (c + 2) := by rw [lt_div_iff₀ hp]; linarith
    have l2 : y / 2 ^ (c + 2) < 1 := by rw [div_lt_one hp]; exact hy2
    have e : ((q + 1 : ℕ) : ℚ) - (q + y / 2 ^ (c + 2)) = 1 - y / 2 ^ (c + 2) := by push_cast; ring
    rw [NearestInt, e, abs_of_nonneg (by linarith)]
    exact ⟨by linarith, fun h => by linarith⟩
  · have hr2 : 2 * (r + 1) ≤ 2 ^ (c + 2) := by omega
    have hy' : y < (2 : ℚ) ^ (c + 2) / 2 := by
      have : ((2 * (r + 1) : ℕ) : ℚ) ≤ ((2 ^ (c + 2) : ℕ) : ℚ) := by exact_mod_cast hr2
      push_cast at this
      linarith
    have hy0 : 0 < y := by
      have : ((1 : ℕ) : ℚ) ≤ r := by exact_mod_cast (show 1 ≤ r by omega)
      push_cast at this
      linarith
    have l1 : y / 2 ^ (c + 2) < 1 / 2 := by rw [div_lt_iff₀ hp]; linarith
    have l0 : 0 < y / 2 ^ (c + 2) := by positivity
    have e : (q : ℚ) - (q + y / 2 ^ (c + 2)) = -(y / 2 ^ (c + 2)) := by ring
    rw [NearestInt, e, abs_neg, abs_of_pos l0]
    exact ⟨l1.le, fun h => by linarith⟩

/-- `roundTo` of an odd significand of at least 60 bits rounds every value between its two even neighbours. -/
theorem roundTo_sticky (neg : Bool) {m : Nat} {e : Int} {x : ℚ} (hm : m % 2 = 1) (hb : 2 ^ 60 ≤ m)
    (h1 : (m : ℚ) - 1 < x) (h2 : x < m + 1) :
    Rounded ((if neg then -1 else 1) * (x * 2 ^ e)) (roundTo neg m e) := by
  have h0 : m ≠ 0 := by omega
  have hlo : 2 ^ m.log2 ≤ m := Nat.log2_self_le h0
  have hhi : m < 2 ^ (m.log2 + 1) := Nat.lt_log2_self
  have hl : 60 ≤ m.log2 := (Nat.le_log2 h0).2 hb
  have hx0 : 0 < x := by
    have : ((2 ^ 60 : ℕ) : ℚ) ≤ m := by exact_mod_cast hb
    push_cast at this
    linarith
  -- the exponent that `roundTo` packs at drops at least 8 bits
  generalize hL : m.log2 = l at hlo hhi hl
  obtain ⟨d, hd, hd8⟩ : ∃ d : Nat, max (e + l - 52) (-1074) = e + d ∧ 8 ≤ d :=
    ⟨(max (e + l - 52) (-1074) - e).toNat, by omega, by omega⟩
  have hdl : l ≤ 52 + d := by omega
  have hr : roundTo neg m e = packExact neg (roundShift m d) (e + d) := by
    rw [roundTo, if_neg h0, hL]
    simp only [hd]
    rw [if_neg (by omega), show (e + d - e).toNat = d by omega]
  have hev : (2 : Nat) ^ (52 + d) % 2 = 0 := by
    rw [show 52 + d = 51 + d + 1 by omega, pow_succ]; omega
  have hxv : x * 2 ^ e = (x / 2 ^ d) * 2 ^ (e + d) := by
    rw [zpow_add₀ (by norm_num), zpow_natCast]; field_simp
  have hdn : e + d ≠ -1074 → 2 ^ (52 + d) ≤ m := by
    intro h
    rw [← show l = 52 + d by omega]; exact hlo
  have hup : m / 2 ^ d < 2 ^ 53 := by
    rw [Nat.div_lt_iff_lt_mul (by positivity), ← pow_add]
    exact hhi.trans_le (Nat.pow_le_pow_right (by norm_num) (by omega))
  have hrs : m / 2 ^ d ≤ roundShift m d ∧ roundShift m d ≤ m / 2 ^ d + 1 := by
    simp only [roundShift]; split_ifs <;> omega
  constructor
  · -- the finite range is a multiple of 2 in units of `m`
    intro hq
    have hq' : x * 2 ^ e ≤ f64Max := by
      have : (0 : ℚ) < x * 2 ^ e := by positivity
      cases neg <;> simpa [abs_of_pos this] using hq
    refine f64Value_roundTo neg ?_
    by_contra c
    rw [not_le] at c
    have hpe : (0 : ℚ) < 2 ^ e := by positivity
    have hbm : (2 : ℚ) ^ 60 ≤ m := by exact_mod_cast hb
    by_cases he : e ≤ 970
    · obtain ⟨n, hn⟩ : ∃ n : Nat, (971 : Int) = e + (n + 1 : ℕ) := ⟨(970 - e).toNat, by omega⟩
      have hM : f64Max = ((2 * ((2 ^ 53 - 1) * 2 ^ n) : ℕ) : ℚ) * 2 ^ e := by
        rw [f64Max, ← zpow_natCast (2 : ℚ) 971, show ((971 : ℕ) : Int) = e + (n + 1 : ℕ) from hn,
          zpow_add₀ (by norm_num), zpow_natCast, Nat.cast_mul, Nat.cast_mul, Nat.cast_sub (by norm_num)]
        push_cast
        ring
      rw [hM] at hq' c
      have c1 := lt_of_mul_lt_mul_right c hpe.le
      have c2 := le_of_mul_le_mul_right hq' hpe
      have c3 : 2 * ((2 ^ 53 - 1) * 2 ^ n) < m := by exact_mod_cast c1
      have c4 : 2 * ((2 ^ 53 - 1) * 2 ^ n) + 1 ≤ m := c3
      have c5 : ((2 * ((2 ^ 53 - 1) * 2 ^ n) + 1 : ℕ) : ℚ) ≤ m := by exact_mod_cast c4
      rw [Nat.cast_add, Nat.cast_one] at c5
      linarith
    · have h3 : (2 : ℚ) ^ (971 : Int) ≤ 2 ^ e := zpow_le_zpow_right₀ (by norm_num) (by omega)
      have h4 : (2 : ℚ) ^ 59 * 2 ^ (971 : Int) ≤ x * 2 ^ e :=
        mul_le_mul (by linarith) h3 (by positivity) hx0.le
      have h5 : (2 : ℚ) ^ 59 * 2 ^ (971 : Int) = 2 ^ (1030 : Int) := by
        rw [← zpow_natCast, ← zpow_add₀ (by norm_num)]; norm_num
      have h6 : (2 : ℚ) ^ (1024 : Int) ≤ 2 ^ (1030 : Int) := zpow_le_zpow_right₀ (by norm_num) (by norm_num)
      exact absurd (f64Max_bounds.2.trans_le (h6.trans (h5.symm.le.trans h4))) (not_lt.2 hq')
  · rw [hxv, hr]
    refine packExact_nearest (by omega) (by omega) (fun h => ?_) ?_ (roundShift_sticky hm (by omega) h1 h2)
    · by_contra c
      have h3 := hdn c
      rw [pow_add] at h3
      have := (Nat.le_div_iff_mul_le (by positivity)).2 h3
      omega
    · by_cases c : e + (d : Int) = -1074
      · exact .inr c
      · refine .inl ((le_div_iff₀ (by positivity)).2 ?_)
        have h3 : 2 ^ (52 + d) + 1 ≤ m := by have := hdn c; omega
        have h4 : ((2 ^ (52 + d) + 1 : ℕ) : ℚ) ≤ m := by exact_mod_cast h3
        push_cast at h4
        rw [← pow_add]
        linarith

end Sys2Proof.Machine
end

