-- ==== Sys2Proof/Laws/Frames.lean ====
section
/-!
SUPPORT. What each command's own effect leaves alone when it succeeds: everything outside its write set, the error
registers and the number of the next draw.
-/

namespace Sys2Proof.Machine

/-- A body that keeps `CleanOutside`. -/
def Keeps (i : Instr) (body : State → Except CmdError State) : Prop :=
  ∀ s t, body s = .ok t → CleanOutside (writeSet i) s t

section Bodies

theorem CleanOutside.refl (ws : List Loc) (s : State) : CleanOutside ws s s :=
  ⟨.refl ws s, rfl, rfl, rfl, rfl, rfl⟩

theorem CleanOutside.trans {ws : List Loc} {s t u : State} (h : CleanOutside ws s t) (k : CleanOutside ws t u) :
    CleanOutside ws s u :=
  ⟨h.1.trans k.1, k.2.1.trans h.2.1, k.2.2.1.trans h.2.2.1, k.2.2.2.1.trans h.2.2.2.1,
    k.2.2.2.2.1.trans h.2.2.2.2.1, k.2.2.2.2.2.trans h.2.2.2.2.2⟩

theorem setBuf_clean (s : State) (b : Nat) (blk : Block) {ws : List Loc} (h : .buf b ∈ ws) :
    CleanOutside ws s (s.setBuf b blk) :=
  ⟨(setBuf_frame s b blk).mono (by simpa using h), rfl, rfl, rfl, rfl, rfl⟩

theorem setLane0_clean (s : State) (b : Nat) (v : Word) {ws : List Loc} (h : .lane0 b ∈ ws) :
    CleanOutside ws s (s.setBuf b (setLane (s.buf b) 0 v)) :=
  ⟨(setLane0_frame s b v).mono (by simpa using h), rfl, rfl, rfl, rfl, rfl⟩

theorem setPred_clean (s : State) (i : Nat) (v : Word) {ws : List Loc} (h : .pred i ∈ ws) :
    CleanOutside ws s (s.setPred i v) :=
  ⟨(setPred_frame s i v).mono (by simpa using h), rfl, rfl, rfl, rfl, rfl⟩

theorem setValid_clean (s : State) {r : TableRef} (hr : r.legal = true) (x : Bool) {ws : List Loc}
    (h : .valid r ∈ ws) : CleanOutside ws s (s.setValid r x) :=
  ⟨(setValid_frame s hr x).mono (by simpa using h), rfl, rfl, rfl, rfl, rfl⟩

theorem registers_clean (s : State) {ws : List Loc} (br : BitReader) (result : Word) (nobit mstop : Bool)
    (eobrun : Word) (ac : AcState) (tblptr : Word)
    (hbr : br = s.br ∨ (.brOffset ∈ ws ∧ .bdata ∈ ws ∧ .bcount ∈ ws)) (hresult : result = s.result ∨ .result ∈ ws)
    (hnobit : nobit = s.nobit ∨ .nobit ∈ ws) (hmstop : mstop = s.mstop ∨ .mstop ∈ ws)
    (heob : eobrun = s.eobrun ∨ .eobrun ∈ ws) (hac : ac = s.ac ∨ .acstate ∈ ws)
    (htbl : tblptr = s.tblptr ∨ .tblptr ∈ ws) :
    CleanOutside ws s { s with br, result, nobit, mstop, eobrun, ac, tblptr } :=
  ⟨registers_frame s br result nobit mstop eobrun ac tblptr hbr hresult hnobit hmstop heob hac htbl,
    rfl, rfl, rfl, rfl, rfl⟩

theorem readbit_keeps : Keeps .readbit readbitBody := by
  intro s t h
  simp only [readbitBody] at h
  split at h
  · cases h
    exact registers_clean s _ _ _ s.mstop s.eobrun s.ac s.tblptr (.inr (by simp [writeSet, brSet]))
      (.inr (by simp [writeSet])) (.inr (by simp [writeSet])) (.inl rfl) (.inl rfl) (.inl rfl) (.inl rfl)
  · cases h
    exact registers_clean s s.br _ _ s.mstop s.eobrun s.ac s.tblptr (.inl rfl)
      (.inr (by simp [writeSet])) (.inr (by simp [writeSet])) (.inl rfl) (.inl rfl) (.inl rfl) (.inl rfl)
  · cases h

theorem receive_keeps (n : Byte) : Keeps (.receive n) (receiveBody n) := by
  intro s t h
  simp only [receiveBody] at h
  split at h
  · cases h
  · cases h
    exact registers_clean s _ _ s.nobit s.mstop s.eobrun s.ac s.tblptr (.inr (by simp [writeSet, brSet]))
      (.inr (by simp [writeSet])) (.inl rfl) (.inl rfl) (.inl rfl) (.inl rfl) (.inl rfl)

theorem receivex_keeps (n : Byte) : Keeps (.receivex n) (receivexBody n) := by
  intro s t h
  simp only [receivexBody] at h
  split at h
  · cases h
  · cases h
    exact registers_clean s _ _ s.nobit s.mstop s.eobrun s.ac s.tblptr (.inr (by simp [writeSet, brSet]))
      (.inr (by simp [writeSet])) (.inl rfl) (.inl rfl) (.inl rfl) (.inl rfl) (.inl rfl)

theorem hdec_keeps (c k : Nib) : Keeps (.hdec c k) (hdecBody c k) := by
  intro s t h
  simp only [hdecBody] at h
  split at h
  · cases h
  · cases h
    exact registers_clean s _ _ s.nobit s.mstop s.eobrun s.ac s.tblptr (.inr (by simp [writeSet, brSet]))
      (.inr (by simp [writeSet])) (.inl rfl) (.inl rfl) (.inl rfl) (.inl rfl) (.inl rfl)

theorem aligned_keeps (s : State) {ws : List Loc} (h : .bcount ∈ ws) :
    CleanOutside ws s { s with br := s.br.aligned } := by
  refine ⟨frame_of_fields rfl rfl rfl rfl rfl rfl rfl rfl (.inl rfl) (.inl rfl) (.inr h) (.inl rfl) (.inl rfl)
    (.inl rfl) (.inl rfl) (.inl rfl) (.inl rfl) (fun _ _ => .inl rfl) (fun _ _ _ _ => .inl rfl)
    (fun _ _ => .inl ⟨rfl, rfl⟩) (fun _ _ => .inl rfl) (fun _ _ _ _ => .inl rfl) (fun _ _ => .inl rfl),
    rfl, rfl, rfl, rfl, rfl⟩

theorem align_keeps : Keeps .align (fun s => .ok { s with br := s.br.aligned }) := by
  intro s t h
  cases h
  exact aligned_keeps s (by simp [writeSet])

theorem clearScan_keeps (s : State) {ws : List Loc} (hc : .bcount ∈ ws) (hp : ∀ i < 4, .pred i ∈ ws)
    (he : .eobrun ∈ ws) (ha : .acstate ∈ ws) : CleanOutside ws s (clearScan s) := by
  refine ⟨frame_of_fields rfl rfl rfl rfl rfl rfl rfl rfl (.inl rfl) (.inl rfl) (.inr hc) (.inl rfl) (.inl rfl)
    (.inl rfl) (.inr he) (.inr ha) (.inl rfl) (fun i hi => .inr (hp i hi)) (fun _ _ _ _ => .inl rfl)
    (fun _ _ => .inl ⟨rfl, rfl⟩) (fun _ _ => .inl rfl) (fun _ _ _ _ => .inl rfl) (fun _ _ => .inl rfl),
    rfl, rfl, rfl, rfl, rfl⟩

theorem pred_mem_of_all {ws : List Loc} (h : [.pred 0, .pred 1, .pred 2, .pred 3] ⊆ ws) :
    ∀ i < 4, Loc.pred i ∈ ws := by
  intro i hi
  apply h
  interval_cases i <;> simp

theorem scaninit_keeps : Keeps .scaninit (fun s => .ok (clearScan s)) := by
  intro s t h
  cases h
  exact clearScan_keeps s (by simp [writeSet]) (pred_mem_of_all (by simp [writeSet])) (by simp [writeSet])
    (by simp [writeSet])

theorem rstsync_keeps : Keeps .rstsync rstsyncBody := by
  intro s t h
  have hc : CleanOutside (writeSet .rstsync) s (clearScan s) :=
    clearScan_keeps s (by simp [writeSet]) (pred_mem_of_all (by simp [writeSet])) (by simp [writeSet])
      (by simp [writeSet])
  simp only [rstsyncBody] at h
  split at h
  · cases h
  · split_ifs at h
    · cases h
      refine hc.trans ⟨frame_of_fields rfl rfl rfl rfl rfl rfl rfl rfl (.inr (by simp [writeSet])) (.inl rfl)
        (.inl rfl) (.inr (by simp [writeSet])) (.inl rfl) (.inr (by simp [writeSet])) (.inl rfl) (.inl rfl)
        (.inl rfl) (fun _ _ => .inl rfl) (fun _ _ _ _ => .inl rfl) (fun _ _ => .inl ⟨rfl, rfl⟩)
        (fun _ _ => .inl rfl) (fun _ _ _ _ => .inl rfl) (fun _ _ => .inl rfl), rfl, rfl, rfl, rfl, rfl⟩
    · cases h
      refine hc.trans ⟨frame_of_fields rfl rfl rfl rfl rfl rfl rfl rfl (.inl rfl) (.inl rfl)
        (.inl rfl) (.inr (by simp [writeSet])) (.inl rfl) (.inr (by simp [writeSet])) (.inl rfl) (.inl rfl)
        (.inl rfl) (fun _ _ => .inl rfl) (fun _ _ _ _ => .inl rfl) (fun _ _ => .inl ⟨rfl, rfl⟩)
        (fun _ _ => .inl rfl) (fun _ _ _ _ => .inl rfl) (fun _ _ => .inl rfl), rfl, rfl, rfl, rfl, rfl⟩

/-- An update of the bit reader, `EOBRUN`, `ACSTATE` and `TBLPTR` alone. -/
theorem counters_clean (s : State) {ws : List Loc} (br : BitReader) (eobrun : Word) (ac : AcState) (tblptr : Word)
    (hbr : br = s.br ∨ (.brOffset ∈ ws ∧ .bdata ∈ ws ∧ .bcount ∈ ws))
    (heob : eobrun = s.eobrun ∨ .eobrun ∈ ws) (hac : ac = s.ac ∨ .acstate ∈ ws)
    (htbl : tblptr = s.tblptr ∨ .tblptr ∈ ws) : CleanOutside ws s { s with br, eobrun, ac, tblptr } :=
  registers_clean s br s.result s.nobit s.mstop eobrun ac tblptr hbr (.inl rfl) (.inl rfl) (.inl rfl) heob hac htbl

theorem decbase_keeps (d t u : Nib) (p : Byte) : Keeps (.decbase d t u p) (decbaseBody d t u p) := by
  intro s x h
  simp only [decbaseBody] at h
  split at h
  · cases h
  · split at h
    · cases h
    · cases h
      exact ((setPred_clean s p.toNat _ (by simp [writeSet])).trans (setBuf_clean _ d.toNat _ (by simp [writeSet]))).trans
        (counters_clean _ _ s.eobrun s.ac s.tblptr (.inr (by simp [writeSet, brSet])) (.inl rfl) (.inl rfl)
          (.inl rfl))

theorem dcfirst_keeps (d t : Nib) (p : Byte) : Keeps (.dcfirst d t p) (dcfirstBody d t p) := by
  intro s x h
  simp only [dcfirstBody] at h
  split at h
  · cases h
  · cases h
    exact ((setPred_clean s p.toNat _ (by simp [writeSet])).trans
      (setLane0_clean _ d.toNat _ (by simp [writeSet]))).trans
      (counters_clean _ _ s.eobrun s.ac s.tblptr (.inr (by simp [writeSet, brSet])) (.inl rfl) (.inl rfl) (.inl rfl))

theorem dcsucc_keeps (d : Nib) : Keeps (.dcsucc d) (dcsuccBody d) := by
  intro s x h
  simp only [dcsuccBody] at h
  split at h
  · cases h
  · cases h
    exact (setLane0_clean s d.toNat _ (by simp [writeSet])).trans
      (counters_clean _ _ s.eobrun s.ac s.tblptr (.inr (by simp [writeSet, brSet])) (.inl rfl) (.inl rfl) (.inl rfl))

theorem acfirst_keeps (d u : Nib) : Keeps (.acfirst d u) (acfirstBody d u) := by
  intro s x h
  simp only [acfirstBody] at h
  split_ifs at h
  · cases h
    exact counters_clean s s.br _ s.ac s.tblptr (.inl rfl) (.inr (by simp [writeSet])) (.inl rfl) (.inl rfl)
  · split at h
    · cases h
    · cases h
      exact (setBuf_clean s d.toNat _ (by simp [writeSet])).trans
        (counters_clean _ _ _ s.ac s.tblptr (.inr (by simp [writeSet, brSet])) (.inr (by simp [writeSet])) (.inl rfl)
          (.inl rfl))

theorem acsucc_keeps (d u : Nib) : Keeps (.acsucc d u) (acsuccBody d u) := by
  intro s x h
  simp only [acsuccBody] at h
  split at h
  · cases h
  · cases h
    exact (setBuf_clean s d.toNat _ (by simp [writeSet])).trans
      (counters_clean _ _ _ _ s.tblptr (.inr (by simp [writeSet, brSet])) (.inr (by simp [writeSet]))
        (.inr (by simp [writeSet])) (.inl rfl))

/-- A body whose only effect is a new value of a buffer. -/
theorem setBuf_keeps {i : Instr} {d : Nat} {f : State → Block} (h : .buf d ∈ writeSet i) :
    Keeps i (fun s => .ok (s.setBuf d (f s))) := by
  intro s t e
  cases e
  exact setBuf_clean s d _ h

theorem nop_keeps : Keeps .nop (fun s => .ok s) := by
  intro s t h
  cases h
  exact .refl _ s

theorem huffSpec_some {spec : Byte} {r : TableRef} (h : huffSpec spec = some r) :
    (hiNib spec).toNat ≤ 1 ∧ (loNib spec).toNat ≤ 3 ∧ r = .huff (hiNib spec).toNat (loNib spec).toNat := by
  simp only [huffSpec] at h
  split_ifs at h with hl
  · exact ⟨hl.1, hl.2, (Option.some.inj h).symm⟩

theorem quantSpec_some {spec : Byte} {r : TableRef} (h : quantSpec spec = some r) :
    (loNib spec).toNat ≤ 3 ∧ r = .quant (loNib spec).toNat := by
  simp only [quantSpec] at h
  split_ifs at h with hl
  · exact ⟨hl, (Option.some.inj h).symm⟩

theorem htload_keeps (spec : Byte) : Keeps (.htload spec) (htloadBody spec) := by
  intro s t h
  simp only [htloadBody] at h
  split at h
  · cases h
  · rename_i r hr
    obtain ⟨h1, h2, rfl⟩ := huffSpec_some hr
    split at h
    · cases h
    · cases h
      have hw : writeSet (.htload spec) = [.table (.huff (hiNib spec).toNat (loNib spec).toNat),
          .valid (.huff (hiNib spec).toNat (loNib spec).toNat), .tblptr] := by simp [writeSet, loadSet, hr]
      rw [hw]
      exact (CleanOutside.trans ⟨(setHt_frame s (by omega) _).mono (by simp), rfl, rfl, rfl, rfl, rfl⟩
        (setValid_clean _ (by simp [TableRef.legal]; omega) true (by simp))).trans
        (counters_clean _ s.br s.eobrun s.ac _ (.inl rfl) (.inl rfl) (.inl rfl) (.inr (by simp)))

theorem qload_keeps (spec : Byte) : Keeps (.qload spec) (qloadBody spec) := by
  intro s t h
  simp only [qloadBody] at h
  split at h
  · cases h
  · rename_i r hr
    obtain ⟨h2, rfl⟩ := quantSpec_some hr
    split_ifs at h
    split at h
    · cases h
    · cases h
      have hw : writeSet (.qload spec) = [.table (.quant (loNib spec).toNat), .valid (.quant (loNib spec).toNat),
          .tblptr] := by simp [writeSet, loadSet, hr]
      rw [hw]
      exact (CleanOutside.trans ⟨(setQt_frame s _ _).mono (by simp), rfl, rfl, rfl, rfl, rfl⟩
        (setValid_clean _ (by simp [TableRef.legal]; omega) true (by simp))).trans
        (counters_clean _ s.br s.eobrun s.ac _ (.inl rfl) (.inl rfl) (.inl rfl) (.inr (by simp)))

theorem eqload_keeps {b t : Nib} (ht : t.toNat ≤ 3) : Keeps (.eqload b t) (eqloadBody b t) := by
  intro s x h
  simp only [eqloadBody] at h
  split at h
  · cases h
  · cases h
    exact CleanOutside.trans ⟨(setFq_frame s t.toNat _).mono (by simp [writeSet]), rfl, rfl, rfl, rfl, rfl⟩
      (setValid_clean _ (by simp [TableRef.legal]; omega) true (by simp [writeSet]))

end Bodies

/-- A command whose effect keeps `CleanOutside` keeps the frame however it ends (R303 point 4, R304). -/
theorem runCommand_frame {i : Instr} {body : State → Except CmdError State} (hb : i.wellFormed = true → Keeps i body)
    {s t : State} (h : runCommand i body s = .next t) : FrameOutside (writeSet i) s t := by
  rcases runCommand_cases h with ⟨e, -, rfl⟩ | ⟨hw, -, hs | ⟨e, -, rfl⟩⟩
  · exact recordError_frame e _ _ s
  · exact (hb hw s t hs).1
  · exact (raiseInExecution_spec hw e s).1

/-- Every command is its frame around an effect that keeps `CleanOutside`. -/
theorem exec_keeps (i : Instr) : ∃ body, (∀ s, exec i s = runCommand i body s) ∧ (i.wellFormed = true → Keeps i body) := by
  cases i with
  | nop => exact ⟨_, exec_nop, fun _ => nop_keeps⟩
  | zero d => exact ⟨_, (exec_zero · d), fun _ => setBuf_keeps (f := fun _ => zeroBlock) (by simp [writeSet])⟩
  | copy d b => exact ⟨_, (exec_copy · d b), fun _ => setBuf_keeps (f := fun s => s.buf b.toNat) (by simp [writeSet])⟩
  | readbit => exact ⟨_, exec_readbit, fun _ => readbit_keeps⟩
  | receive n => exact ⟨_, (exec_receive · n), fun _ => receive_keeps n⟩
  | receivex n => exact ⟨_, (exec_receivex · n), fun _ => receivex_keeps n⟩
  | align => exact ⟨_, exec_align, fun _ => align_keeps⟩
  | scaninit => exact ⟨_, exec_scaninit, fun _ => scaninit_keeps⟩
  | rstsync => exact ⟨_, exec_rstsync, fun _ => rstsync_keeps⟩
  | htload spec => exact ⟨_, (exec_htload · spec), fun _ => htload_keeps spec⟩
  | hdec c k => exact ⟨_, (exec_hdec · c k), fun _ => hdec_keeps c k⟩
  | decbase d t u p => exact ⟨_, (exec_decbase · d t u p), fun _ => decbase_keeps d t u p⟩
  | dcfirst d t p => exact ⟨_, (exec_dcfirst · d t p), fun _ => dcfirst_keeps d t p⟩
  | dcsucc d => exact ⟨_, (exec_dcsucc · d), fun _ => dcsucc_keeps d⟩
  | acfirst d u => exact ⟨_, (exec_acfirst · d u), fun _ => acfirst_keeps d u⟩
  | acsucc d u => exact ⟨_, (exec_acsucc · d u), fun _ => acsucc_keeps d u⟩
  | qload spec => exact ⟨_, (exec_qload · spec), fun _ => qload_keeps spec⟩
  | dequant d b t =>
    exact ⟨_, (exec_dequant · d b t),
      fun _ => setBuf_keeps (f := fun s => dequantized (s.buf b.toNat) (s.qt t.toNat)) (by simp [writeSet])⟩
  | idct d b =>
    exact ⟨_, (exec_idct · d b), fun _ => setBuf_keeps (f := fun s => idctBlock (s.buf b.toNat)) (by simp [writeSet])⟩
  | qscale d b q =>
    exact ⟨_, (exec_qscale · d b q),
      fun _ => setBuf_keeps (f := fun s => qscaled (s.buf b.toNat) q.toNat) (by simp [writeSet])⟩
  | eqload b t =>
    refine ⟨_, (exec_eqload · b t), fun h => eqload_keeps ?_⟩
    simp only [Instr.wellFormed, Bool.and_eq_true, decide_eq_true_eq] at h
    exact h.2
  | fdctq d b t =>
    exact ⟨_, (exec_fdctq · d b t),
      fun _ => setBuf_keeps (f := fun s => fdctqBlock s.cfg.roundImpl (s.buf b.toNat) (s.fq t.toNat))
        (by simp [writeSet])⟩
  | zzfwd d b =>
    exact ⟨_, (exec_zzfwd · d b), fun _ => setBuf_keeps (f := fun s => toZigzag (s.buf b.toNat)) (by simp [writeSet])⟩
  | zzinv d b =>
    exact ⟨_, (exec_zzinv · d b), fun _ => setBuf_keeps (f := fun s => toNatural (s.buf b.toNat)) (by simp [writeSet])⟩

end Sys2Proof.Machine
end

