-- ==== Sys2Proof/Laws/Grid.lean ====
section
/-!
SUPPORT. The passes over rows and columns, entry by entry, and the machine's one-dimensional passes as the line by
line forms of Safety.lean.
-/

namespace Sys2Proof.Machine

variable {α : Type} [Inhabited α] (pass : Oct α → Oct α) (v : Vector α 64)

theorem mapRows_nth {r c : Nat} (hr : r < 8) (hc : c < 8) :
    nth (mapRows pass v) (8 * r + c) = (pass (octOf v (8 * r) 1)).at c := by
  simp only [mapRows]
  rw [nth_tab _ (by omega), show (8 * r + c) / 8 = r by omega, show (8 * r + c) % 8 = c by omega]
  simp [List.getD_eq_getElem?_getD, hr]

theorem mapCols_nth {r c : Nat} (hr : r < 8) (hc : c < 8) :
    nth (mapCols pass v) (8 * r + c) = (pass (octOf v c 8)).at r := by
  simp only [mapCols]
  rw [nth_tab _ (by omega), show (8 * r + c) / 8 = r by omega, show (8 * r + c) % 8 = c by omega]
  simp [List.getD_eq_getElem?_getD, hc]

/-- Row `r` of a tabulated block. -/
theorem octOf_tab_row (f : Nat → α) {r : Nat} (hr : r < 8) :
    octOf (tab f : Vector α 64) (8 * r) 1 =
      ⟨f (8 * r), f (8 * r + 1), f (8 * r + 2), f (8 * r + 3), f (8 * r + 4), f (8 * r + 5), f (8 * r + 6),
       f (8 * r + 7)⟩ := by
  simp only [octOf, Nat.mul_one]
  rw [nth_tab _ (by omega), nth_tab _ (by omega), nth_tab _ (by omega), nth_tab _ (by omega), nth_tab _ (by omega),
    nth_tab _ (by omega), nth_tab _ (by omega), nth_tab _ (by omega)]

/-- Column `c` after the row passes: one value of each row. -/
theorem octOf_mapRows {c : Nat} (hc : c < 8) :
    octOf (mapRows pass v) c 8 =
      ⟨(pass (octOf v (8 * 0) 1)).at c, (pass (octOf v (8 * 1) 1)).at c, (pass (octOf v (8 * 2) 1)).at c,
       (pass (octOf v (8 * 3) 1)).at c, (pass (octOf v (8 * 4) 1)).at c, (pass (octOf v (8 * 5) 1)).at c,
       (pass (octOf v (8 * 6) 1)).at c, (pass (octOf v (8 * 7) 1)).at c⟩ := by
  have h := fun r (hr : r < 8) => (mapRows_nth pass v hr hc).symm
  rw [h 0 (by omega), h 1 (by omega), h 2 (by omega), h 3 (by omega), h 4 (by omega), h 5 (by omega),
    h 6 (by omega), h 7 (by omega)]
  simp only [octOf]
  congr 2 <;> omega

/-- The machine's pass of the IDCT is pseudocode R194 (43_dequant_idct). -/
theorem idctPass_eq_rule (k : PassParams) (p : Oct Int) :
    idctPass k p = idctRule p k.rnd4 k.s4 k.sh k.fr k.fs := by
  simp only [idctPass, idctRule, wsra, c1, s1, c3, s3, c6, s6, sq2, sq1d2, mul_comm]

/-- The machine's pass of the FDCT is pseudocode R224 (44_fdct_quant). -/
theorem fdctPass_eq_rule (d : Oct F64) : fdctPass d = fdctRule d := rfl

end Sys2Proof.Machine
end

