-- ==== Sys2Proof/Laws/PerInstr.lean ====
section
/-!
SUPPORT. One lemma per instruction: the word that the encoder writes has the opcode of 30_encoding R93, and 0 in
every field the command does not use (R92).
-/

namespace Sys2Proof.Laws.OpcodeField

/-- The encoder's word of `i` carries the opcode of `i`, and its unused fields are 0 (R92, R93). -/
def Statement (i : Instr) : Prop :=
  fieldOP (encode i) = i.opcode ∧
    ∃ row, opRow i.opcode = some row ∧ unusedZero row.uses (encode i) = true

theorem nop : Statement (.nop) := by
  exact ⟨by simp [encode, Instr.opcode], _, rfl, by simp [encode, unusedZero]⟩

theorem zero (d : Nib) : Statement (.zero d) := by
  exact ⟨by simp [encode, Instr.opcode], _, rfl, by simp [encode, unusedZero]⟩

theorem copy (d s : Nib) : Statement (.copy d s) := by
  exact ⟨by simp [encode, Instr.opcode], _, rfl, by simp [encode, unusedZero]⟩

theorem readbit : Statement (.readbit) := by
  exact ⟨by simp [encode, Instr.opcode], _, rfl, by simp [encode, unusedZero]⟩

theorem receive (n : Byte) : Statement (.receive n) := by
  exact ⟨by simp [encode, Instr.opcode], _, rfl, by simp [encode, unusedZero]⟩

theorem receivex (n : Byte) : Statement (.receivex n) := by
  exact ⟨by simp [encode, Instr.opcode], _, rfl, by simp [encode, unusedZero]⟩

theorem align : Statement (.align) := by
  exact ⟨by simp [encode, Instr.opcode], _, rfl, by simp [encode, unusedZero]⟩

theorem scaninit : Statement (.scaninit) := by
  exact ⟨by simp [encode, Instr.opcode], _, rfl, by simp [encode, unusedZero]⟩

theorem rstsync : Statement (.rstsync) := by
  exact ⟨by simp [encode, Instr.opcode], _, rfl, by simp [encode, unusedZero]⟩

theorem htload (spec : Byte) : Statement (.htload spec) := by
  exact ⟨by simp [encode, Instr.opcode], _, rfl, by simp [encode, unusedZero]⟩

theorem hdec (cls slot : Nib) : Statement (.hdec cls slot) := by
  exact ⟨by simp [encode, Instr.opcode], _, rfl, by simp [encode, unusedZero]⟩

theorem decbase (d t u : Nib) (p : Byte) : Statement (.decbase d t u p) := by
  exact ⟨by simp [encode, Instr.opcode], _, rfl, by simp [encode, unusedZero]⟩

theorem dcfirst (d t : Nib) (p : Byte) : Statement (.dcfirst d t p) := by
  exact ⟨by simp [encode, Instr.opcode], _, rfl, by simp [encode, unusedZero]⟩

theorem dcsucc (d : Nib) : Statement (.dcsucc d) := by
  exact ⟨by simp [encode, Instr.opcode], _, rfl, by simp [encode, unusedZero]⟩

theorem acfirst (d u : Nib) : Statement (.acfirst d u) := by
  exact ⟨by simp [encode, Instr.opcode], _, rfl, by simp [encode, unusedZero]⟩

theorem acsucc (d u : Nib) : Statement (.acsucc d u) := by
  exact ⟨by simp [encode, Instr.opcode], _, rfl, by simp [encode, unusedZero]⟩

theorem qload (spec : Byte) : Statement (.qload spec) := by
  exact ⟨by simp [encode, Instr.opcode], _, rfl, by simp [encode, unusedZero]⟩

theorem dequant (d s t : Nib) : Statement (.dequant d s t) := by
  exact ⟨by simp [encode, Instr.opcode], _, rfl, by simp [encode, unusedZero]⟩

theorem idct (d s : Nib) : Statement (.idct d s) := by
  exact ⟨by simp [encode, Instr.opcode], _, rfl, by simp [encode, unusedZero]⟩

theorem qscale (d s : Nib) (quality : Byte) : Statement (.qscale d s quality) := by
  exact ⟨by simp [encode, Instr.opcode], _, rfl, by simp [encode, unusedZero]⟩

theorem eqload (s t : Nib) : Statement (.eqload s t) := by
  exact ⟨by simp [encode, Instr.opcode], _, rfl, by simp [encode, unusedZero]⟩

theorem fdctq (d s t : Nib) : Statement (.fdctq d s t) := by
  exact ⟨by simp [encode, Instr.opcode], _, rfl, by simp [encode, unusedZero]⟩

theorem zzfwd (d s : Nib) : Statement (.zzfwd d s) := by
  exact ⟨by simp [encode, Instr.opcode], _, rfl, by simp [encode, unusedZero]⟩

theorem zzinv (d s : Nib) : Statement (.zzinv d s) := by
  exact ⟨by simp [encode, Instr.opcode], _, rfl, by simp [encode, unusedZero]⟩

end Sys2Proof.Laws.OpcodeField
end

