-- ==== Sys2Proof/Laws/Reciprocals.lean ====
section
/-!
SUPPORT. Bounds on binary64 results, and that every entry of an encoder table is finite and positive
(44_fdct_quant R221).
-/

namespace Sys2Proof.Machine

/-! ## Bounds -/

/-- `x` is a finite positive value in `2^a .. 2^b`. -/
def Between (a b : Int) (x : F64) : Prop :=
  ∃ (k : Nat) (f : Int), unpack x = .fin false k f ∧ (2 : ℚ) ^ a ≤ k * 2 ^ f ∧ (k : ℚ) * 2 ^ f ≤ 2 ^ b

/-- A power of two in range is a binary64 value. -/
theorem f64Value_pow {a : Int} (h : -1022 ≤ a) (h' : a ≤ 1023) :
    f64Value (pattern false (a + 1023).toNat 0) = some (2 ^ a) := by
  obtain ⟨n, hn⟩ : ∃ n : Nat, a + 1023 = n := ⟨(a + 1023).toNat, by omega⟩
  rw [hn, f64Value, Int.toNat_natCast, unpack_pattern false (by omega) (by norm_num)]
  simp only [show ¬ n = 2047 by omega, show ¬ n = 0 by omega, if_false, Bool.false_eq_true]
  rw [show (n : Int) - 1075 = a - 52 by omega, zpow_sub₀ (by norm_num)]
  push_cast
  field_simp

/-- Rounding a value in `2^a .. 2^b` stays there. -/
theorem roundTo_between {m : Nat} {e a b : Int} (ha : -1022 ≤ a) (hb : b ≤ 1000) (h : (2 : ℚ) ^ a ≤ m * 2 ^ e)
    (h' : (m : ℚ) * 2 ^ e ≤ 2 ^ b) : Between a b (roundTo false m e) := by
  have hab : a ≤ b := (zpow_le_zpow_iff_right₀ (by norm_num : (1 : ℚ) < 2)).1 (h.trans h')
  have hm0 : m ≠ 0 := by
    rintro rfl
    have : (0 : ℚ) < 2 ^ a := by positivity
    rw [Nat.cast_zero, zero_mul] at h
    linarith
  have hl : (m : ℚ) * 2 ^ e ≤ f64Max := by
    exact h'.trans ((zpow_le_zpow_right₀ (by norm_num) (by omega)).trans f64Max_bounds.1)
  obtain ⟨k, f, hu⟩ := roundTo_fin false hl
  have hv : f64Value (roundTo false m e) = some ((k : ℚ) * 2 ^ f) := by simp [f64Value, hu]
  have near := roundTo_nearest false m e _ hv
  simp only [Bool.false_eq_true, if_false, one_mul] at near
  refine ⟨k, f, hu, ?_, ?_⟩
  · have := (near _ _ (f64Value_pow ha (by omega))).1
    by_contra c
    rw [not_le] at c
    rw [abs_of_neg (by linarith), abs_of_nonpos (by linarith)] at this
    linarith
  · have := (near _ _ (f64Value_pow (a := b) (by omega) (by omega))).1
    by_contra c
    rw [not_le] at c
    rw [abs_of_pos (by linarith), abs_of_nonneg (by linarith)] at this
    linarith

theorem f64Mul_between {a b c d : Int} {x y : F64} (hx : Between a b x) (hy : Between c d y)
    (h : -1022 ≤ a + c) (h' : b + d ≤ 1000) : Between (a + c) (b + d) (f64Mul x y) := by
  obtain ⟨k, f, hu, h1, h2⟩ := hx
  obtain ⟨l, g, hw, h3, h4⟩ := hy
  simp only [f64Mul, hu, hw, bne_self_eq_false]
  have e : ((k * l : ℕ) : ℚ) * 2 ^ (f + g) = (k * 2 ^ f) * (l * 2 ^ g) := by
    rw [zpow_add₀ (by norm_num)]; push_cast; ring
  have p1 : (0 : ℚ) < 2 ^ a := by positivity
  have p2 : (0 : ℚ) < 2 ^ c := by positivity
  refine roundTo_between h h' ?_ ?_
  · rw [e, zpow_add₀ (by norm_num)]
    exact mul_le_mul h1 h3 p2.le (p1.le.trans h1)
  · rw [e, zpow_add₀ (by norm_num)]
    exact mul_le_mul h2 h4 (p2.le.trans h3) ((p1.le.trans h1).trans h2)

theorem f64OfInt_between {v : Int} {a b : Nat} (h : 2 ^ a ≤ v) (h' : v ≤ 2 ^ b) (hb : b ≤ 1000) :
    Between a b (f64OfInt v) := by
  have hp : (0 : Int) < 2 ^ a := by positivity
  obtain ⟨n, rfl⟩ : ∃ n : Nat, v = n := ⟨v.toNat, by omega⟩
  rw [f64OfInt, show decide ((n : Int) < 0) = false by simp, Int.natAbs_natCast]
  refine roundTo_between (by omega) (by omega) ?_ ?_
  · rw [zpow_natCast, zpow_zero, mul_one]; exact_mod_cast h
  · rw [zpow_natCast, zpow_zero, mul_one]; exact_mod_cast h'

theorem unpack_fin_lt {x : F64} {neg : Bool} {m : Nat} {e : Int} (h : unpack x = .fin neg m e) : m < 2 ^ 53 := by
  have hk : x.toNat % 2 ^ 52 < 2 ^ 52 := Nat.mod_lt _ (by norm_num)
  simp only [unpack] at h
  split_ifs at h <;> cases h <;> omega

theorem Between.mono {a b c d : Int} {x : F64} (h : Between a b x) (h1 : c ≤ a) (h2 : b ≤ d) : Between c d x := by
  obtain ⟨k, f, hu, l, u⟩ := h
  exact ⟨k, f, hu, (zpow_le_zpow_right₀ (by norm_num) h1).trans l, u.trans (zpow_le_zpow_right₀ (by norm_num) h2)⟩

/-- The approximate quotient that `f64Div` rounds is within a factor of 2 of the exact one. -/
theorem stickyQuotient_bounds {m n : Nat} (hm : 0 < m) (hn : 0 < n) (hl : n < 2 ^ 53) :
    (m : ℚ) / n / 2 ≤ stickyQuotient m n * 2 ^ (-121 : Int) ∧
      stickyQuotient m n * 2 ^ (-121 : Int) ≤ (m : ℚ) / n * 2 := by
  have hn' : (0 : ℚ) < n := by exact_mod_cast hn
  have t1 : n ≤ m * 2 ^ 120 := by
    have : 1 * 2 ^ 120 ≤ m * 2 ^ 120 := Nat.mul_le_mul_right _ hm
    omega
  have d := Nat.div_add_mod (m * 2 ^ 120) n
  have r := Nat.mod_lt (m * 2 ^ 120) hn
  have q1 : 1 ≤ m * 2 ^ 120 / n := (Nat.one_le_div_iff hn).2 t1
  have q2 : n ≤ n * (m * 2 ^ 120 / n) := Nat.le_mul_of_pos_right n q1
  have s : stickyQuotient m n = 2 * (m * 2 ^ 120 / n) + (if m * 2 ^ 120 % n = 0 then 0 else 1) := rfl
  generalize m * 2 ^ 120 / n = t at *
  have e0 : n * (2 * t + 0) = 2 * (n * t) := by ring
  have e1 : n * (2 * t + 1) = 2 * (n * t) + n := by ring
  have s1 : m * 2 ^ 120 ≤ n * stickyQuotient m n := by
    rw [s]
    split_ifs <;> omega
  have s2 : n * stickyQuotient m n ≤ 4 * (m * 2 ^ 120) := by
    rw [s]
    split_ifs <;> omega
  have s1' : (m : ℚ) * 2 ^ 120 ≤ n * stickyQuotient m n := by exact_mod_cast s1
  have s2' : (n : ℚ) * stickyQuotient m n ≤ 4 * (m * 2 ^ 120) := by exact_mod_cast s2
  have e : (2 : ℚ) ^ (-121 : Int) = 1 / 2 ^ 121 := by norm_num
  rw [e]
  constructor
  · rw [div_div, div_le_iff₀ (by positivity)]
    field_simp
    nlinarith
  · rw [← div_eq_mul_one_div, div_le_iff₀ (by positivity), div_mul_eq_mul_div, div_mul_eq_mul_div, le_div_iff₀ hn']
    nlinarith

theorem f64Div_between {a b c d : Int} {x y : F64} (hx : Between a b x) (hy : Between c d y)
    (h : -1021 ≤ a - d) (h' : b - c ≤ 999) : Between (a - d - 1) (b - c + 1) (f64Div x y) := by
  obtain ⟨k, f, hu, h1, h2⟩ := hx
  obtain ⟨l, g, hw, h3, h4⟩ := hy
  have p1 : (0 : ℚ) < 2 ^ a := by positivity
  have p2 : (0 : ℚ) < 2 ^ c := by positivity
  have pf : (0 : ℚ) < 2 ^ f := by positivity
  have pg : (0 : ℚ) < 2 ^ g := by positivity
  have hk : 0 < k := by
    refine Nat.pos_of_ne_zero fun z => ?_
    rw [z, Nat.cast_zero, zero_mul] at h1
    linarith
  have hl : 0 < l := by
    refine Nat.pos_of_ne_zero fun z => ?_
    rw [z, Nat.cast_zero, zero_mul] at h3
    linarith
  have hl' : (0 : ℚ) < l := by exact_mod_cast hl
  simp only [f64Div, hu, hw, bne_self_eq_false, show ¬ l = 0 by omega, if_false]
  obtain ⟨s1, s2⟩ := stickyQuotient_bounds hk hl (unpack_fin_lt hw)
  have e : (stickyQuotient k l : ℚ) * 2 ^ (f - g - 121) = stickyQuotient k l * 2 ^ (-121 : Int) * (2 ^ f / 2 ^ g) := by
    rw [show f - g - 121 = -121 + (f - g) by ring, zpow_add₀ (by norm_num), zpow_sub₀ (by norm_num), mul_assoc]
  have er : (k : ℚ) / l * (2 ^ f / 2 ^ g) = (k * 2 ^ f) / (l * 2 ^ g) := by field_simp
  have pr : (0 : ℚ) < 2 ^ f / 2 ^ g := by positivity
  refine roundTo_between (by omega) (by omega) ?_ ?_
  · rw [e]
    refine le_trans ?_ (mul_le_mul_of_nonneg_right s1 pr.le)
    rw [div_mul_eq_mul_div, er, zpow_sub_one₀ (by norm_num), zpow_sub₀ (by norm_num), ← div_eq_mul_inv]
    refine div_le_div_of_nonneg_right ?_ (by norm_num)
    exact div_le_div₀ (by positivity) h1 (by positivity) h4
  · rw [e]
    refine le_trans (mul_le_mul_of_nonneg_right s2 pr.le) ?_
    rw [mul_right_comm, er, zpow_add_one₀ (by norm_num), zpow_sub₀ (by norm_num)]
    refine mul_le_mul_of_nonneg_right ?_ (by norm_num)
    exact div_le_div₀ (by positivity) h2 (by positivity) h3

/-- The scale factors (44_fdct_quant R223). -/
theorem aasf_between {k : Nat} (hk : k < 8) : Between (-3) 3 (aasf k) := by
  have e : ∀ k < 8, 2 ^ 28 ≤ aasfTable.getD k 0 ∧ aasfTable.getD k 0 ≤ 2 ^ 31 := by decide
  obtain ⟨e1, e2⟩ := e k hk
  have n := f64OfInt_between (v := (aasfTable.getD k 0 : Nat)) (a := 28) (b := 31) (by exact_mod_cast e1)
    (by exact_mod_cast e2) (by norm_num)
  have d := f64OfInt_between (v := 1000000000) (a := 29) (b := 30) (by norm_num) (by norm_num) (by norm_num)
  exact f64Div_between n d (by norm_num) (by norm_num)

/-- "every `FQ` entry is a finite positive binary64 value" (44_fdct_quant R221). -/
theorem reciprocal_posFinite {v : Int} (h : 1 ≤ v) (h' : v ≤ 255) {k : Nat} (hk : k < 64) :
    posFinite (reciprocal v k) = true := by
  have hv : Between 0 8 (f64OfInt v) := f64OfInt_between (a := 0) (b := 8) (by simpa using h) (by norm_num; omega) (by norm_num)
  have h8 : Between 3 3 (f64OfInt 8) := f64OfInt_between (a := 3) (b := 3) (by norm_num) (by norm_num) (by norm_num)
  have h1 : Between 0 0 (f64OfInt 1) := f64OfInt_between (a := 0) (b := 0) (by norm_num) (by norm_num) (by norm_num)
  have p := f64Mul_between (f64Mul_between (f64Mul_between hv (aasf_between (k := k / 8) (by omega)) (by norm_num)
    (by norm_num)) (aasf_between (k := k % 8) (by omega)) (by norm_num) (by norm_num)) h8 (by norm_num) (by norm_num)
  obtain ⟨m, f, hu, hl, -⟩ := f64Div_between h1 p (by norm_num) (by norm_num)
  have hm : m ≠ 0 := by
    rintro rfl
    simp only [Nat.cast_zero, zero_mul] at hl
    exact absurd hl (not_le.2 (by positivity))
  simp [posFinite, reciprocal, hu, hm]

end Sys2Proof.Machine
end

