-- ==== Sys2Proof/Laws/Step.lean ====
section
/-!
SUPPORT. One step for each kind of host statement, and what stands where in the window.
-/

namespace Sys2Proof.Machine

variable {s : State} {rest : List HostStmt}

/-! ## Steps -/

/-- A step takes the host's next statement. -/
theorem step_cons {h : HostStmt} (hh : s.host = h :: rest) : step s = runStmt h { s with host := rest } := by
  simp only [step, advance, hh]

theorem whenIdle_idle (hr : s.running = none) (t : State) : whenIdle s t = .next t := by
  simp [whenIdle, State.busy, hr]

theorem whenIdle_busy (hr : s.running ≠ none) (t : State) : whenIdle s t = .fault .hostAccessWhileBusy := by
  obtain ⟨i, hi⟩ := Option.ne_none_iff_exists'.1 hr
  simp [whenIdle, State.busy, hi]

/-- A write of `CMD` issues its word (30_encoding R95). -/
theorem step_cmd {w : Word} (hh : s.host = .write32 cmdOffset w :: rest) :
    step s = issue w { s with host := rest } := by
  rw [step_cons hh]; rfl

/-- A write of `CTRL` acts at once (10_state R23). -/
theorem step_ctrl {v : Word} (hh : s.host = .write32 ctrlOffset v :: rest) :
    step s = .next (writeCtrl v { s with host := rest }) := by
  rw [step_cons hh]; rfl

theorem step_write32 {off : Offset} {v : Word} (hh : s.host = .write32 off v :: rest) (hr : s.running = none)
    (hc : off ≠ cmdOffset) : step s = .next (write32 { s with host := rest } off.toNat v) := by
  rw [step_cons hh]
  simp only [runStmt, hc, if_false]
  split_ifs
  · rfl
  · exact whenIdle_idle hr _

theorem step_read32 {off : Offset} (hh : s.host = .read32 off :: rest) (hr : s.running = none) :
    step s = .next (reply (read32 { s with host := rest } off.toNat) { s with host := rest }) := by
  rw [step_cons hh]
  simp only [runStmt]
  split_ifs
  · rfl
  · exact whenIdle_idle hr _

theorem step_write8 {off : Offset} {v : Byte} (hh : s.host = .write8 off v :: rest) (hr : s.running = none) :
    step s = .next (write8 { s with host := rest } off.toNat v) := by
  rw [step_cons hh]; exact whenIdle_idle hr _

theorem step_read8 {off : Offset} (hh : s.host = .read8 off :: rest) (hr : s.running = none) :
    step s = .next (reply ((read8 { s with host := rest } off.toNat).setWidth 32) { s with host := rest }) := by
  rw [step_cons hh]; exact whenIdle_idle hr _

/-- With no command in execution a word that decodes runs (30_encoding R95 step 5). -/
theorem issue_decoded {w : Word} {i : Instr} (he : s.err = false) (hr : s.running = none)
    (hd : decode w = .ok i) : issue w s = exec i s := by
  simp [issue, he, State.busy, hr, hd]

/-- Everything that a write of `CMD` can do. -/
theorem issue_cases (w : Word) (s : State) :
    (s.err = true ∧ issue w s = .next s) ∨
    (s.err = false ∧ s.running ≠ none ∧ issue w s = .next (withError ⟨.commandOverrun, 0⟩ w s)) ∨
    (s.err = false ∧ s.running = none ∧
      ((∃ i, decode w = .ok i ∧ issue w s = exec i s) ∨
        ((∀ i, decode w ≠ .ok i) ∧ issue w s = .next (withError ⟨.badCommand, 0⟩ w s)))) := by
  cases he : s.err
  · refine .inr ?_
    cases hr : s.running with
    | some i =>
      exact .inl ⟨rfl, by simp, by simp [issue, he, State.busy, hr, raiseAtDecode, recordError, withError]⟩
    | none =>
      refine .inr ⟨rfl, rfl, ?_⟩
      cases hd : decode w with
      | ok i => exact .inl ⟨i, rfl, issue_decoded he hr hd⟩
      | error e =>
        exact .inr ⟨by simp, by simp [issue, he, State.busy, hr, hd, raiseAtDecode, recordError, withError]⟩
  · exact .inl ⟨rfl, by simp [issue, he]⟩

/-! ## `STATUS` (10_state R24) -/

theorem flagBit_bit {n j : Nat} (b : Bool) (hn : n < 32) : (flagBit b n).getLsbD j = (b && decide (j = n)) := by
  cases b
  · simp [flagBit]
  · simp [flagBit, BitVec.getLsbD_twoPow, eq_comm]
    omega

/-- The bits of `STATUS`. -/
theorem status_bits (s : State) :
    s.status.getLsbD 0 = s.busy ∧ s.status.getLsbD 1 = s.err ∧ s.status.getLsbD 2 = s.nobit ∧
      s.status.getLsbD 3 = s.mstop ∧ ∀ j, 4 ≤ j → s.status.getLsbD j = false := by
  simp only [State.status, BitVec.getLsbD_or, flagBit_bit _ (show 0 < 32 by norm_num),
    flagBit_bit _ (show 1 < 32 by norm_num), flagBit_bit _ (show 2 < 32 by norm_num),
    flagBit_bit _ (show 3 < 32 by norm_num)]
  refine ⟨by simp, by simp, by simp, by simp, fun j hj => ?_⟩
  simp [show j ≠ 0 by omega, show j ≠ 1 by omega, show j ≠ 2 by omega, show j ≠ 3 by omega]

/-! ## The window (20_memory R64 to R66, R68) -/

theorem placeAt_reg {cap off : Nat} {r : Reg} (h : regMap.lookup off = some r) (ho : off < 0x800) :
    placeAt cap off = .reg r := by
  simp only [placeAt, ho, if_true, h]

/-- Beyond `TVALID` no register stands below the `BUF` window. -/
theorem placeAt_low_reserved {cap off : Nat} (h1 : 0x054 ≤ off) (h2 : off < 0x800) :
    placeAt cap off = .reserved := by
  have : regMap.lookup off = none := by
    rw [List.lookup_eq_none_iff]
    simp [regMap]
    omega
  simp only [placeAt, h2, if_true, this]

theorem placeAt_lane {cap b i : Nat} (hb : b < 8) (hi : i < 64) :
    placeAt cap (0x800 + 0x100 * b + 4 * i) = .lane b i := by
  have h1 : ¬ 0x800 + 0x100 * b + 4 * i < 0x800 := by omega
  have h2 : 0x800 + 0x100 * b + 4 * i < 0x1000 := by omega
  simp only [placeAt, h1, if_false, h2, if_true, Place.lane.injEq]
  omega

theorem placeAt_quant {cap t i : Nat} (ht : t < 4) (hi : i < 64) :
    placeAt cap (0x1000 + 0x100 * t + 4 * i) = .quant t i := by
  have h1 : ¬ 0x1000 + 0x100 * t + 4 * i < 0x800 := by omega
  have h2 : ¬ 0x1000 + 0x100 * t + 4 * i < 0x1000 := by omega
  have h3 : 0x1000 + 0x100 * t + 4 * i < 0x1400 := by omega
  simp only [placeAt, h1, h2, if_false, h3, if_true, Place.quant.injEq]
  omega

theorem placeAt_stream {cap o : Nat} (h : o < cap) : placeAt cap (0x100000 + o) = .stream o := by
  have h1 : ¬ 0x100000 + o < 0x800 := by omega
  have h2 : ¬ 0x100000 + o < 0x1000 := by omega
  have h3 : ¬ 0x100000 + o < 0x1400 := by omega
  have h4 : 0x100000 ≤ 0x100000 + o ∧ 0x100000 + o < 0x100000 + cap := by omega
  simp only [placeAt, h1, h2, h3, if_false, h4, and_self, if_true, Place.stream.injEq]
  omega

theorem placeAt_high_reserved {cap off : Nat} (h : 0x1400 ≤ off ∧ off < 0x100000 ∨ 0x100000 + cap ≤ off) :
    placeAt cap off = .reserved := by
  have h1 : ¬ off < 0x800 := by omega
  have h2 : ¬ off < 0x1000 := by omega
  have h3 : ¬ off < 0x1400 := by omega
  have h4 : ¬ (0x100000 ≤ off ∧ off < 0x100000 + cap) := by omega
  simp only [placeAt, h1, h2, h3, h4, if_false]

/-- Only an offset of the aperture below the capacity is a place of stream memory. -/
theorem placeAt_stream_bound {cap off o : Nat} (h : placeAt cap off = .stream o) : o < cap := by
  simp only [placeAt] at h
  split_ifs at h with h1 h2 h3 h4
  · split at h <;> cases h
  · have := Place.stream.inj h
    omega

theorem write32_place {off : Nat} (v : Word) (h4 : off % 4 = 0) :
    write32 s off v = match placeAt s.cfg.streamCap off with
      | .reg r => r.write v s
      | .lane b i => s.setBuf b (setLane (s.buf b) i v)
      | .quant _ _ => s
      | .stream o => writeStream32 s o v
      | .reserved => s :=
  if_neg (not_not.2 h4)

theorem read32_place {off : Nat} (h4 : off % 4 = 0) :
    read32 s off = match placeAt s.cfg.streamCap off with
      | .reg r => r.read s
      | .lane b i => lane (s.buf b) i
      | .quant t i => readQuant s t i
      | .stream o => readStream32 s o
      | .reserved => 0 :=
  if_neg (not_not.2 h4)

theorem write32_reg {off : Nat} {r : Reg} (v : Word) (h4 : off % 4 = 0) (h : regMap.lookup off = some r)
    (ho : off < 0x800) : write32 s off v = r.write v s := by
  rw [write32_place v h4, placeAt_reg h ho]

theorem read32_reg {off : Nat} {r : Reg} (h4 : off % 4 = 0) (h : regMap.lookup off = some r)
    (ho : off < 0x800) : read32 s off = r.read s := by
  rw [read32_place h4, placeAt_reg h ho]

/-! ## The aperture -/

/-- A host write of stream bytes keeps every other field, the canonical form and the bound. -/
theorem setHostByte_stream (o : Nat) (v : Byte) :
    { setHostByte s o v with stream := s.stream } = s ∧
      (Memory.wf s.stream = true → Memory.wf (setHostByte s o v).stream = true) ∧
      ((∀ c ∈ s.stream, c.1 < s.cfg.streamCap) → ∀ c ∈ (setHostByte s o v).stream, c.1 < s.cfg.streamCap) := by
  simp only [setHostByte]
  split_ifs with h
  · refine ⟨rfl, Memory.set_wf o v, ?_⟩
    intro hb c hc
    rcases Memory.mem_set hc with rfl | hc
    · exact h
    · exact hb c hc
  · exact ⟨rfl, id, id⟩

theorem byteAt_setHostByte {o : Nat} (h : o < s.cfg.streamCap) (v : Byte) (a : Nat) :
    (setHostByte s o v).byteAt a = if a = o then v else s.byteAt a := by
  simp only [setHostByte, h, if_true]
  split_ifs with e
  · subst e; simp
  · exact State.byteAt_setByte_other s v e

@[simp] theorem setHostByte_cfg (o : Nat) (v : Byte) : (setHostByte s o v).cfg = s.cfg := by
  simp only [setHostByte]; split_ifs <;> rfl

theorem writeStream32_stream (o : Nat) (w : Word) :
    { writeStream32 s o w with stream := s.stream } = s ∧
      (Memory.wf s.stream = true → Memory.wf (writeStream32 s o w).stream = true) ∧
      ((∀ c ∈ s.stream, c.1 < s.cfg.streamCap) → ∀ c ∈ (writeStream32 s o w).stream, c.1 < s.cfg.streamCap) := by
  have step : ∀ (t : State), ({ t with stream := s.stream } = s ∧
      (Memory.wf s.stream = true → Memory.wf t.stream = true) ∧
      ((∀ c ∈ s.stream, c.1 < s.cfg.streamCap) → ∀ c ∈ t.stream, c.1 < s.cfg.streamCap)) →
      ∀ (o : Nat) (v : Byte), { setHostByte t o v with stream := s.stream } = s ∧
      (Memory.wf s.stream = true → Memory.wf (setHostByte t o v).stream = true) ∧
      ((∀ c ∈ s.stream, c.1 < s.cfg.streamCap) → ∀ c ∈ (setHostByte t o v).stream, c.1 < s.cfg.streamCap) := by
    intro t ⟨h1, h2, h3⟩ o v
    obtain ⟨k1, k2, k3⟩ := setHostByte_stream (s := t) o v
    have hc : ({ t with stream := s.stream } : State).cfg = s.cfg := congrArg State.cfg h1
    replace hc : t.cfg = s.cfg := hc
    refine ⟨?_, fun h => k2 (h2 h), fun h => ?_⟩
    · have := congrArg (fun x : State => { x with stream := s.stream }) k1
      exact this.trans h1
    · rw [hc] at k3; exact k3 (h3 h)
  exact step _ (step _ (step _ (setHostByte_stream o _) _ _) _ _) _ _

/-! ## Everything a step can do -/

/-- Everything that a step can do: run a command, reset, or one host access. -/
inductive StepTo (s : State) : State → Prop where
  | command (i : Instr) {h : List HostStmt} {t : State} (running : s.running = none ∨ s.running = some i)
      (ran : exec i { s with host := h, running := none } = .next t) : StepTo s t
  | soft {h : List HostStmt} : StepTo s (softReset { s with host := h })
  | hard {h : List HostStmt} : StepTo s (hardwareReset { s with host := h })
  | clear {h : List HostStmt} : StepTo s (clearError { s with host := h })
  | decodeError (e : CmdError) (w : Word) {h : List HostStmt} (none : s.err = false) :
      StepTo s (withError e w { s with host := h })
  | write32 (off : Nat) (v : Word) {h : List HostStmt} (idle : s.running = none) (other : off ≠ 0x008) :
      StepTo s (Machine.write32 { s with host := h } off v)
  | write8 (off : Nat) (v : Byte) {h : List HostStmt} (idle : s.running = none) :
      StepTo s (Machine.write8 { s with host := h } off v)
  | host {h : List HostStmt} {r : List Word} : StepTo s { s with host := h, replies := r }

theorem set_running {s : State} {h : List HostStmt} (hr : s.running = none) :
    ({ s with host := h, running := none } : State) = { s with host := h } := by
  cases s; simp_all

theorem issue_to {s t : State} {w : Word} {h : List HostStmt} (k : issue w { s with host := h } = .next t) :
    StepTo s t := by
  rcases issue_cases w { s with host := h } with ⟨-, e⟩ | ⟨a, -, e⟩ | ⟨a, b, ⟨i, -, e⟩ | ⟨-, e⟩⟩ <;> rw [e] at k
  · cases k; exact .host
  · cases k; exact .decodeError _ _ a
  · exact .command i (.inl b) (by rw [set_running b]; exact k)
  · cases k; exact .decodeError _ _ a

theorem complete_to {s t : State} {h : List HostStmt} (k : complete { s with host := h } = .next t) : StepTo s t := by
  simp only [complete] at k
  split at k
  · rename_i i hi; exact .command i (.inr hi) k
  · cases k; exact .host

theorem whenIdle_next {s u t : State} (k : whenIdle s u = .next t) : s.running = none ∧ t = u := by
  by_cases hr : s.running = none
  · rw [whenIdle_idle hr] at k; cases k; exact ⟨hr, rfl⟩
  · rw [whenIdle_busy hr] at k; cases k

theorem step_to {s t : State} (k : step s = .next t) : StepTo s t := by
  simp only [step, advance] at k
  split at k
  · rename_i e
    have : ({ s with host := s.host } : State) = s := rfl
    rw [← this] at k
    exact complete_to k
  · rename_i h rest e
    cases h with
    | write32 off v =>
      simp only [runStmt] at k
      split_ifs at k with h1 h2
      · exact issue_to k
      · cases k
        subst h2
        show StepTo s (writeCtrl v _)
        simp only [writeCtrl]
        split_ifs
        · exact .soft
        · exact .clear
        · exact .host
      · obtain ⟨hr, rfl⟩ := whenIdle_next k
        exact .write32 _ _ hr (fun x => h2 (BitVec.eq_of_toNat_eq x))
    | write8 off v =>
      obtain ⟨hr, rfl⟩ := whenIdle_next k
      exact .write8 _ _ hr
    | writeOther w off => obtain ⟨hr, rfl⟩ := whenIdle_next k; exact .host
    | read32 off =>
      simp only [runStmt] at k
      split_ifs at k
      · cases k; exact .host
      · obtain ⟨hr, rfl⟩ := whenIdle_next k; exact .host
    | read8 off => obtain ⟨hr, rfl⟩ := whenIdle_next k; exact .host
    | readOther w off => obtain ⟨hr, rfl⟩ := whenIdle_next k; exact .host
    | wait => exact complete_to k
    | resetInput => cases k; exact .hard
end Sys2Proof.Machine
end

