-- ==== Sys2Proof/Tests/Slice0.lean ====
section
/-!
SUPPORT. Tests. The words are written out from 30_encoding R90 and R93; the expected results are the worked
examples of the rules and the vectors of 95_test_vectors, but where a comment says otherwise.
-/

namespace Sys2Proof.Tests

open Sys2Proof.Machine

/-! ## Small states -/

/-- The cells of consecutive bytes. -/
def cells : Nat → List Nat → List Host.Cell
  | _, [] => []
  | a, b :: bs => (a, BitVec.ofNat 8 b) :: cells (a + 1) bs

/-- After reset, with the given stream bytes and buffers of zeros. -/
def start (bytes : List Nat) : State :=
  { State.reset with
    stream := cells 0 bytes, streamLen := BitVec.ofNat 32 bytes.length, bufs := tab fun _ => zeroBlock }

/-- A block that is zero but for the listed lanes. -/
def blockOf (l : List (Nat × Int)) : Block := tab fun i => toWord ((l.lookup i).getD 0)

/-- A Huffman table, and the tables `DCA`, `ACA`, `ACZ`, `ACE` of 95_test_vectors. -/
def huffOf (bits vals : List Nat) : HuffTable :=
  ⟨tab fun l => BitVec.ofNat 8 (bits.getD l 0), vals.map (BitVec.ofNat 8)⟩
def dca : HuffTable := huffOf [0, 2] [0, 3]
def aca : HuffTable := huffOf [0, 3] [0, 1, 0x11]
def acz : HuffTable := huffOf [1, 2] [0xF0, 1, 0]
def ace : HuffTable := huffOf [1, 1] [0x20, 1]

/-- Every table valid; DC tables `dc` and AC tables `ac`. -/
def tables (dc ac : HuffTable) (s : State) : State :=
  { s with hts := tab fun k => if k < 4 then dc else ac, tvalid := 0xFFFF }

/-- The answer is a next state of which `p` holds. -/
def holds (o : Host.Outcome State Fault Refusal) (p : State → Bool) : Bool :=
  match o with
  | .next s => p s
  | .fault _ => false
  | .refused _ => false

/-- The nonzero lanes of a block. -/
def shown (blk : Block) : List (Nat × Int) :=
  ((List.range 64).map fun i => (i, signed (lane blk i))).filter fun x => x.2 ≠ 0

/-- Error `code` with detail `info` is recorded for command `w`. -/
def failed (s : State) (code : Byte) (info w : Word) : Bool :=
  s.err && s.errcode == code && s.errinfo == info && s.errcmd == w

/-! ## Well-formedness: one ill-formed term for each check -/

theorem test_wf_zero_buffer : (Instr.zero 8).wellFormed = false := by decide
theorem test_wf_copy_source : (Instr.copy 0 8).wellFormed = false := by decide
theorem test_wf_copy_destination : (Instr.copy 8 0).wellFormed = false := by decide
theorem test_wf_receive_count : (Instr.receive 17).wellFormed = false := by decide
theorem test_wf_receivex_count : (Instr.receivex 17).wellFormed = false := by decide
theorem test_wf_hdec_class : (Instr.hdec 2 0).wellFormed = false := by decide
theorem test_wf_hdec_slot : (Instr.hdec 0 4).wellFormed = false := by decide
theorem test_wf_decbase : (Instr.decbase 8 0 0 0).wellFormed = false ∧ (Instr.decbase 0 4 0 0).wellFormed = false ∧
    (Instr.decbase 0 0 4 0).wellFormed = false ∧ (Instr.decbase 0 0 0 4).wellFormed = false := by decide
theorem test_wf_dcfirst : (Instr.dcfirst 8 0 0).wellFormed = false ∧ (Instr.dcfirst 0 4 0).wellFormed = false ∧
    (Instr.dcfirst 0 0 4).wellFormed = false := by decide
theorem test_wf_dcsucc : (Instr.dcsucc 8).wellFormed = false := by decide
theorem test_wf_acfirst : (Instr.acfirst 8 0).wellFormed = false ∧ (Instr.acfirst 0 4).wellFormed = false := by decide
theorem test_wf_acsucc : (Instr.acsucc 8 0).wellFormed = false ∧ (Instr.acsucc 0 4).wellFormed = false := by decide
theorem test_wf_dequant : (Instr.dequant 8 0 0).wellFormed = false ∧ (Instr.dequant 0 8 0).wellFormed = false ∧
    (Instr.dequant 0 0 4).wellFormed = false := by decide
theorem test_wf_idct : (Instr.idct 8 0).wellFormed = false ∧ (Instr.idct 0 8).wellFormed = false := by decide
theorem test_wf_qscale : (Instr.qscale 8 0 50).wellFormed = false ∧ (Instr.qscale 0 8 50).wellFormed = false := by
  decide
theorem test_wf_eqload : (Instr.eqload 8 0).wellFormed = false ∧ (Instr.eqload 0 4).wellFormed = false := by decide
theorem test_wf_fdctq : (Instr.fdctq 8 0 0).wellFormed = false ∧ (Instr.fdctq 0 8 0).wellFormed = false ∧
    (Instr.fdctq 0 0 4).wellFormed = false := by decide
theorem test_wf_zzfwd : (Instr.zzfwd 8 0).wellFormed = false ∧ (Instr.zzfwd 0 8).wellFormed = false := by decide
theorem test_wf_zzinv : (Instr.zzinv 8 0).wellFormed = false ∧ (Instr.zzinv 0 8).wellFormed = false := by decide

/-! ## Decoding: words written field by field, `OP D S T U I` (R90, R93) -/

theorem test_decode_nop : decodeTableWord 32 0b00000000_0000_0000_0000_0000_00000000 = some .nop := by decide
theorem test_decode_zero : decodeTableWord 32 0b00000001_0011_0000_0000_0000_00000000 = some (.zero 3) := by decide
theorem test_decode_copy : decodeTableWord 32 0b00000010_0001_0111_0000_0000_00000000 = some (.copy 1 7) := by decide
theorem test_decode_readbit : decodeTableWord 32 0b00010000_0000_0000_0000_0000_00000000 = some .readbit := by decide
theorem test_decode_receive : decodeTableWord 32 0b00010001_0000_0000_0000_0000_00010000 = some (.receive 16) := by
  decide
theorem test_decode_receivex : decodeTableWord 32 0b00010010_0000_0000_0000_0000_00000011 = some (.receivex 3) := by
  decide
theorem test_decode_align : decodeTableWord 32 0b00010011_0000_0000_0000_0000_00000000 = some .align := by decide
theorem test_decode_scaninit : decodeTableWord 32 0b00010100_0000_0000_0000_0000_00000000 = some .scaninit := by decide
theorem test_decode_rstsync : decodeTableWord 32 0b00010101_0000_0000_0000_0000_00000000 = some .rstsync := by decide
theorem test_decode_htload : decodeTableWord 32 0b00100000_0000_0000_0000_0000_00010010 = some (.htload 0x12) := by
  decide
theorem test_decode_hdec : decodeTableWord 32 0b00100001_0000_0000_0000_0000_00010011 = some (.hdec 1 3) := by decide
theorem test_decode_decbase :
    decodeTableWord 32 0b00110000_0111_0000_0001_0010_00000011 = some (.decbase 7 1 2 3) := by decide
theorem test_decode_dcfirst : decodeTableWord 32 0b00110001_0110_0000_0011_0000_00000010 = some (.dcfirst 6 3 2) := by
  decide
theorem test_decode_dcsucc : decodeTableWord 32 0b00110010_0101_0000_0000_0000_00000000 = some (.dcsucc 5) := by decide
theorem test_decode_acfirst : decodeTableWord 32 0b00110011_0100_0000_0000_0011_00000000 = some (.acfirst 4 3) := by
  decide
theorem test_decode_acsucc : decodeTableWord 32 0b00110100_0100_0000_0000_0010_00000000 = some (.acsucc 4 2) := by
  decide
theorem test_decode_qload : decodeTableWord 32 0b01000000_0000_0000_0000_0000_00010010 = some (.qload 0x12) := by
  decide
theorem test_decode_dequant : decodeTableWord 32 0b01000001_0001_0010_0011_0000_00000000 = some (.dequant 1 2 3) := by
  decide
theorem test_decode_idct : decodeTableWord 32 0b01000010_0001_0010_0000_0000_00000000 = some (.idct 1 2) := by decide
theorem test_decode_qscale : decodeTableWord 32 0b01010000_0001_0010_0000_0000_00110010 = some (.qscale 1 2 50) := by
  decide
theorem test_decode_eqload : decodeTableWord 32 0b01010001_0000_0001_0010_0000_00000000 = some (.eqload 1 2) := by
  decide
theorem test_decode_fdctq : decodeTableWord 32 0b01010010_0001_0010_0011_0000_00000000 = some (.fdctq 1 2 3) := by
  decide
theorem test_decode_zzfwd : decodeTableWord 32 0b01100000_0100_0011_0000_0000_00000000 = some (.zzfwd 4 3) := by decide
theorem test_decode_zzinv : decodeTableWord 32 0b01100001_0100_0011_0000_0000_00000000 = some (.zzinv 4 3) := by decide

/-- 95_test_vectors 3.1: the words that are no command. -/
theorem test_decode_rejects :
    [0x00000001, 0x01800000, 0x01010000, 0x03000000, 0xFF000000, 0x11000011, 0x21000004, 0x21000020, 0x30000004,
      0x30004000, 0x32001000].all (fun w => (decodeTableWord 32 w).isNone) = true := by decide

/-- The match words and masks of spec/opcode_table.json, row by row. -/
theorem test_table_masks :
    opcodeTable.map (fun r => (r.op.toNat, r.uses.mask.toNat)) =
      [(0x00, 0xFFFFFFFF), (0x01, 0xFF0FFFFF), (0x02, 0xFF00FFFF), (0x10, 0xFFFFFFFF), (0x11, 0xFFFFFF00),
       (0x12, 0xFFFFFF00), (0x13, 0xFFFFFFFF), (0x14, 0xFFFFFFFF), (0x15, 0xFFFFFFFF), (0x20, 0xFFFFFF00),
       (0x21, 0xFFFFFF00), (0x30, 0xFF0F0000)] ++
      [(0x31, 0xFF0F0F00), (0x32, 0xFF0FFFFF), (0x33, 0xFF0FF0FF), (0x34, 0xFF0FF0FF), (0x40, 0xFFFFFF00),
       (0x41, 0xFF000FFF), (0x42, 0xFF00FFFF), (0x50, 0xFF00FF00), (0x51, 0xFFF00FFF), (0x52, 0xFF000FFF),
       (0x60, 0xFF00FFFF), (0x61, 0xFF00FFFF)] := by decide

/-! ## One command each (2 and 3 of 95_test_vectors) -/

theorem test_nop : step ((start []).withFetchWord 32 0) = .next (start []) := rfl

/-- The first command after reset, as the next step takes it. -/
theorem test_first_command :
    holds (step (State.reset.withFetchWord 32 0x01300000)) (fun t => shown (t.buf 3) = [] && !t.err && t.host = []) = true ∧
      holds (step (State.reset.withFetchWord 32 0x41100000)) (fun t => failed t 8 0x100 0x41100000) = true := by
  decide

/-- Lane 7 of buffer 3 was 5; buffer 2 keeps it. -/
theorem test_zero :
    holds (exec (.zero 3) { start [] with bufs := tab fun _ => blockOf [(7, 5)] })
      (fun t => shown (t.buf 3) = [] && shown (t.buf 2) = [(7, 5)]) = true := by decide

theorem test_copy :
    holds (exec (.copy 1 0) ((start []).setBuf 0 (blockOf [(0, -1), (63, 9)])))
      (fun t => shown (t.buf 1) = [(0, -1), (63, 9)] && shown (t.buf 0) = [(0, -1), (63, 9)]) = true := by
  decide

theorem test_readbit :
    holds (exec .readbit (start [0xA5]))
      (fun t => t.result = 1 && t.br = ⟨1, 0xA5, 7⟩ && !t.nobit && !t.err) = true := by decide

theorem test_readbit_marker :
    holds (exec .readbit (start [0xFF, 0xD0])) (fun t => t.result = 0x8000FFD0 && t.nobit && t.br = ⟨0, 0, 0⟩) = true ∧
      holds (exec .readbit (start [0xFF, 0x12])) (fun t => failed t 6 0xFF12 0x10000000) = true ∧
      holds (exec .readbit (start [0xFF])) (fun t => failed t 4 0 0x10000000) = true := by decide

theorem test_receive :
    holds (exec (.receive 4) (start [0xB0])) (fun t => t.result = 11 && t.br.bcount = 4) = true ∧
      holds (exec (.receive 9) (start [0xF0])) (fun t => failed t 4 1 0x11000009) = true := by decide

theorem test_receivex :
    holds (exec (.receivex 3) (start [0x40])) (fun t => t.result = 0xFFFFFFFB) = true ∧
      holds (exec (.receivex 3) (start [0xA0])) (fun t => t.result = 5) = true ∧
      holds (exec (.receivex 16) (start [0, 0])) (fun t => t.result = 0xFFFF0001) = true := by decide

theorem test_receivex_stuffed :
    holds (exec (.receivex 16) (start [0xFF, 0, 0xFF, 0])) (fun t => t.result = 65535 && t.br = ⟨4, 0xFF, 0⟩) = true := by
  decide

theorem test_align :
    holds (exec .align { start [] with br := ⟨9, 0xFF, 5⟩ }) (fun t => t.br = ⟨9, 0xFF, 0⟩) = true := by decide

theorem test_scaninit :
    holds (exec .scaninit ({ start [] with br := ⟨9, 0xFF, 5⟩, eobrun := 4, ac := ⟨.eob, true⟩ }.setPred 1 37))
      (fun t => t.predAt 1 = 0 && t.eobrun = 0 && t.ac = ⟨.initial, false⟩ && t.br = ⟨9, 0xFF, 0⟩) = true := by
  decide

theorem test_rstsync :
    holds (exec .rstsync (start [0xFF, 0xD7])) (fun t => t.result = 0xFFD7 && t.br.offset = 2 && !t.mstop) = true ∧
      holds (exec .rstsync (start [0xFF, 0])) (fun t => t.result = 0xFF00 && t.br.offset = 0 && t.mstop) = true ∧
      holds (exec .rstsync (start [0x12, 0x34])) (fun t => failed t 7 0 0x15000000) = true := by decide

/-- The table body of 41_huffman R140's example. -/
theorem test_htload :
    holds (exec (.htload 0) (start ([0, 2] ++ List.replicate 14 0 ++ [0, 3])))
      (fun t => t.codeMap 0 0 = [⟨2, 0, 0⟩, ⟨2, 1, 3⟩] && t.valid (.huff 0 0) && t.tblptr = 18) = true := by
  decide

theorem test_htload_errors :
    holds (exec (.htload 0) (start ([3] ++ List.replicate 15 0 ++ [1, 2, 3]))) (fun t => failed t 3 0 0x20000000) = true ∧
      holds (exec (.htload 0x20) (start [])) (fun t => failed t 3 0x20 0x20000020) = true ∧
      holds (exec (.htload 0) (start ([0, 2] ++ List.replicate 14 0 ++ [0])))
        (fun t => failed t 11 0 0x20000000 && !t.valid (.huff 0 0)) = true := by decide

theorem test_hdec :
    holds (exec (.hdec 0 0) (tables dca aca (start [0x40]))) (fun t => t.result = 3 && t.br.bcount = 6) = true ∧
      holds (exec (.hdec 0 0) (tables dca aca (start [0xFF, 0, 0xFF, 0]))) (fun t => t.err && t.errcode = 4) = true := by
  decide

theorem test_decbase :
    holds (exec (.decbase 0 0 0 0) (tables dca aca (start [0x6A, 0xA7])))
      (fun t => shown (t.buf 0) = [(0, 5), (1, -1), (16, 1)] && t.predAt 0 = 5 && t.br.offset = 2 &&
        t.br.bcount = 3) = true := by decide

theorem test_decbase_zrl_and_wrap :
    holds (exec (.decbase 0 0 0 0) (tables dca acz (start [0x05, 0x7F]))) (fun t => shown (t.buf 0) = [(59, 1)]) = true ∧
      holds (exec (.decbase 0 0 0 0) ((tables dca aca (start [0x69])).setPred 0 0x7FFFFFFF))
        (fun t => signed (t.predAt 0) = -2147483644) = true := by decide

/-- Bits `01 101`, `AL` = 1. -/
theorem test_dcfirst :
    holds (exec (.dcfirst 0 0 0) { tables dca aca (start [0x68]) with scan := ⟨0, 0, 1⟩ })
      (fun t => shown (t.buf 0) = [(0, 10)] && t.predAt 0 = 10) = true := by decide

theorem test_dcsucc :
    holds (exec (.dcsucc 0) { (start [0x80]).setBuf 0 (blockOf [(0, -8)]) with scan := ⟨0, 0, 2⟩ })
      (fun t => shown (t.buf 0) = [(0, -4)]) = true := by decide

theorem test_acfirst :
    holds (exec (.acfirst 0 0) { tables dca aca (start [0x47]) with scan := ⟨1, 63, 2⟩ })
      (fun t => shown (t.buf 0) = [(1, -4)] && t.eobrun = 0) = true ∧
      holds (exec (.acfirst 0 0) { tables dca aca (start [0xA3]) with scan := ⟨1, 5, 0⟩, eobrun := 3 })
        (fun t => t.eobrun = 2 && t.br.offset = 0) = true := by decide

theorem test_acfirst_eob_run :
    holds (exec (.acfirst 0 0) { tables dca ace (start [0x5F]) with scan := ⟨1, 63, 0⟩ })
      (fun t => t.eobrun = 5 && t.br.bcount = 5) = true := by decide

/-- A ZRL in a refinement scan: no coefficient is placed where its skip ends (90_conflicts C4). -/
theorem test_acsucc_zrl :
    holds (exec (.acsucc 0 0) { (tables dca acz (start [0x5F, 0xFF, 0])).setBuf 0 (blockOf [(16, 5)]) with
        scan := ⟨1, 63, 0⟩ })
      (fun t => shown (t.buf 0) = [(16, 6)] && t.eobrun = 0 && t.ac = ⟨.initial, false⟩ && t.br.bcount = 3) = true := by
  decide

theorem test_acsucc :
    holds (exec (.acsucc 0 0) { (tables dca aca (start [0xBF])).setBuf 0 (blockOf [(1, 2)]) with scan := ⟨1, 3, 0⟩ })
      (fun t => shown (t.buf 0) = [(1, 3), (16, 1)] && t.br.bcount = 4) = true ∧
      holds (exec (.acsucc 0 0) { (tables dca ace (start [0x17])).setBuf 0 (blockOf [(1, 2), (16, -2)]) with
          scan := ⟨1, 3, 1⟩ })
        (fun t => shown (t.buf 0) = [(1, 4), (16, -2)] && t.eobrun = 3 && t.ac.mode = .eob) = true := by decide

/-- Entry `j` of the body is the big-endian pair `01`, `j`. -/
theorem test_qload :
    holds (exec (.qload 0x12) (start ((List.range 64).flatMap fun j => [1, j])))
      (fun t => nth (t.qt 2) 1 = 257 && nth (t.qt 2) 8 = 258 && nth (t.qt 2) 63 = 319 && t.valid (.quant 2) &&
        t.tblptr = 128) = true := by decide +kernel

theorem test_qload_errors :
    holds (exec (.qload 0x20) { start [] with tvalid := 0xFFFF })
      (fun t => failed t 2 0x20 0x40000020 && !t.valid (.quant 0) && t.valid (.quant 1)) = true ∧
      holds (exec (.qload 0) (start (List.replicate 63 1))) (fun t => failed t 11 0 0x40000000) = true := by
  decide

theorem test_dequant :
    holds (exec (.dequant 1 0 0) { (start []).setBuf 0 (blockOf [(0, 40000), (1, -3)]) with
        tvalid := 1, qts := tab fun _ => tab fun i => if i = 0 then 65535 else 7 })
      (fun t => shown (t.buf 1) = [(0, -1673567296), (1, -21)]) = true ∧
      holds (exec (.dequant 1 0 0) (start [])) (fun t => failed t 8 0x100 0x41100000) = true := by decide

/-- The last block of 95_test_vectors 3.6, rows 0 and 7. -/
theorem test_idct :
    holds (exec (.idct 1 0) ((start []).setBuf 0 (blockOf [(0, -400), (1, 200), (9, -150), (63, 30)])))
      (fun t => (t.buf 1).toList.take 8 = [77, 76, 79, 76, 80, 78, 80, 79] &&
        (t.buf 1).toList.drop 56 = [148, 139, 117, 94, 63, 39, 17, 8]) = true := by decide

/-- 90_conflicts C2, and the clamp. -/
theorem test_idct_columns :
    holds (exec (.idct 1 0) ((start []).setBuf 0 (blockOf [(0, 80), (8, 40)])))
      (fun t => ((List.range 8).map fun r => lane (t.buf 1) (8 * r)) = [145, 144, 142, 139, 137, 134, 132, 131]) = true ∧
      holds (exec (.idct 1 0) ((start []).setBuf 0 (blockOf [(0, 2000)])))
        (fun t => (t.buf 1).toList = List.replicate 64 255) = true := by decide

/-- Base entries 16, 11, 12 at natural indexes 0, 1, 8, as in 95_test_vectors 3.7. -/
theorem test_qscale :
    holds (exec (.qscale 1 0 75) ((start []).setBuf 0 (blockOf [(0, 16), (1, 11), (8, 12), (63, 99)])))
      (fun t => (t.buf 1).toList.take 4 = [8, 6, 6, 1] && lane (t.buf 1) 63 = 50) = true ∧
      holds (exec (.qscale 1 0 50) ((start []).setBuf 0 (blockOf [(0, 0x10010), (1, -1)])))
        (fun t => (t.buf 1).toList.take 3 = [16, 255, 1]) = true := by decide

/-- Lanes 0 and 1 of `FQ` for table entries 16 and 11 (95_test_vectors 3.7); the patterns are those of its decimal
values. -/
theorem test_eqload :
    holds (exec (.eqload 1 0) ((start []).setBuf 1 (tab fun i => if i = 0 then 16 else 11)))
      (fun t => nth (t.fq 0) 0 = 0x3F80000000000000 && nth (t.fq 0) 1 = 0x3F80C758F82DD2F2 && t.valid (.recip 0)) = true := by
  decide

theorem test_eqload_error :
    holds (exec (.eqload 1 0) { (start []).setBuf 1 (tab fun i => if i = 5 then 256 else 1) with tvalid := 0xFFFF })
      (fun t => failed t 9 0x100 0x51010000 && !t.valid (.recip 0) && t.valid (.recip 1)) = true := by decide

/-- All lanes 127, and all -128, with `FQ` lane 0 = 1/128: 63.5 rounds to 64, and -64 stays. -/
theorem test_fdctq :
    holds (exec (.fdctq 3 2 0) { (start []).setBuf 2 (tab fun _ => 127) with
        tvalid := 0x10, fqs := tab fun _ => tab fun _ => 0x3F80000000000000 })
      (fun t => shown (t.buf 3) = [(0, 64)]) = true := by decide +kernel

/-- The ramp of 95_test_vectors 3.7, unquantized: with a reciprocal of 1 its outputs are rounded to integers. -/
theorem test_fdctq_ramp :
    holds (exec (.fdctq 3 2 0) { (start []).setBuf 2 (tab fun i => toWord (8 * ((i : Int) % 8) - 28)) with
        tvalid := 0x10, fqs := tab fun _ => tab fun _ => 0x3FF0000000000000 })
      (fun t => shown (t.buf 3) = [(1, -1618), (3, -143), (5, -29), (7, -3)]) = true := by decide +kernel

/-- The five values of 95_test_vectors 3.7, `Quant` alone. -/
theorem test_quant :
    [0x404FC00000000000, 0x4004000000000000, 0xC004000000000000, 0x3FDFFFFFFFFFFFFF, 0xBFDFFFFFFFFFFFFF].map
        (fun x => (quant .exact x, quant .addHalfB64 x)) = [(64, 64), (3, 3), (-3, -3), (0, 1), (0, -1)] := by
  decide

theorem test_zzfwd :
    holds (exec (.zzfwd 0 0) ((start []).setBuf 0 (blockOf [(1, -13), (3, -1)])))
      (fun t => shown (t.buf 0) = [(1, -13), (6, -1)]) = true := by decide

theorem test_zzinv :
    holds (exec (.zzinv 1 0) ((start []).setBuf 0 (tab fun i => BitVec.ofNat 32 i)))
      (fun t => (t.buf 1).toList.take 16 = [0, 1, 5, 6, 14, 15, 27, 28, 2, 4, 7, 13, 16, 26, 29, 42]) = true := by
  decide

/-! ## Errors and reset (95_test_vectors 3.9) -/

theorem test_dropped_while_err :
    holds (step ({ start [] with err := true, errcode := 4 }.withFetchWord 32 0x01000000))
      (fun t => t.err && t.errcode = 4 && t.errcmd = 0) = true := by decide

theorem test_error_clear :
    holds (step { start [] with err := true, errcode := 4, errinfo := 9, errcmd := 8, host := [.write32 0x008 2] })
      (fun t => !t.err && t.errcode = 0 && t.errinfo = 0 && t.errcmd = 0) = true := by decide

theorem test_soft_reset :
    holds (step { (start [0xA5]).setBuf 0 (blockOf [(0, 5)]) with tvalid := 0xFFFF, host := [.write32 0x008 1] })
      (fun t => t.tvalid = 0 && t.streamLen = 0 && t.byteAt 0 = 0xA5 && shown (t.buf 0) = [(0, 5)]) = true := by
  decide

/-! ## Witnesses: for each statement with hypotheses, states and operands that meet them -/

/-- The block of `start bytes`, idle, with one host statement to come. -/
def hosted (h : HostStmt) (bytes : List Nat := []) : State := { start bytes with host := [h] }

/-- `hosted`, with a stream memory of 16 bytes. -/
def small (h : HostStmt) : State := { hosted h [1, 2, 3, 4] with cfg := ⟨16, .exact⟩ }

theorem witness_EncodeThenDecode :
    (Instr.zero 7).wellFormed = true ∧ (Instr.receive 16).wellFormed = true ∧ (Instr.htload 255).wellFormed = true ∧
      (Instr.hdec 1 3).wellFormed = true ∧ (Instr.decbase 7 3 3 3).wellFormed = true ∧
      (Instr.dequant 7 7 3).wellFormed = true ∧ (Instr.qscale 7 7 255).wellFormed = true ∧
      (Instr.eqload 7 3).wellFormed = true := by decide

theorem witness_DecodeThenEncode : decode 0x30703303 = .ok (.decbase 7 3 3 3) := rfl

theorem witness_StepRunsDecodedCommand :
    ∃ s : State, s.host = [.write32 0x010 0x01300000] ∧ s.err = false ∧ s.running = none ∧
      decode 0x01300000 = .ok (.zero 3) := ⟨hosted (.write32 0x010 0x01300000), rfl, rfl, rfl, rfl⟩

theorem witness_CommandDroppedWhileErrorOrBusy :
    (∃ s : State, s.host = [.write32 0x010 0] ∧ s.err = true) ∧
      ∃ s : State, s.host = [.write32 0x010 0] ∧ s.err = false ∧ s.running ≠ none :=
  ⟨⟨{ hosted (.write32 0x010 0) with err := true }, rfl, rfl⟩,
    ⟨{ hosted (.write32 0x010 0) with running := some .nop }, rfl, rfl, by decide⟩⟩

theorem witness_OtherWordsAreBadCommands :
    (∃ s : State, s.host = [.write32 0x010 0x03000000] ∧ s.err = false ∧ s.running = none) ∧
      ¬ ∃ i : Instr, i.wellFormed = true ∧ encode i = 0x03000000 := by
  refine ⟨⟨hosted (.write32 0x010 0x03000000), rfl, rfl, rfl⟩, ?_⟩
  rintro ⟨i, -, h⟩
  have h' : fieldOP (encode i) = 3 := by rw [h]; rfl
  cases i <;> simp [encode] at h'

theorem witness_MissingTableReported :
    (start []).err = false ∧ (start []).valid (.huff 1 3) = false ∧ (start []).valid (.huff 0 0) = false ∧
      (start []).valid (.quant 3) = false ∧ (start []).valid (.recip 3) = false ∧
      ({ start [] with tvalid := 0x0800 } : State).valid (.huff 0 3) = true ∧
      ({ start [] with tvalid := 0x0800 } : State).valid (.huff 1 3) = false := by decide

theorem witness_CommandsKeepStateOutsideWriteSet :
    (∃ t, exec (.zero 7) (start []) = .next t) ∧ ∃ t, exec .readbit (start []) = .next t ∧ t.err = true :=
  ⟨⟨_, rfl⟩, ⟨_, rfl, rfl⟩⟩

/-- A bit is read; a byte beyond `STREAM_LEN` differs. -/
theorem witness_CommandsDoNotSeeBeyondStreamLength :
    (∀ o < (start [0xA5]).streamLen.toNat,
      ({ start [0xA5] with stream := cells 0 [0xA5, 7] } : State).byteAt o = (start [0xA5]).byteAt o) ∧
      (start [0xA5]).stream ≠ cells 0 [0xA5, 7] ∧
      ∃ t, exec .readbit (start [0xA5]) = .next t ∧ t.result = 1 :=
  ⟨by decide, by decide, ⟨_, rfl, rfl⟩⟩

theorem witness_ErrorClearClearsErrorOnly :
    (∃ s : State, s.host = [.write32 0x008 2] ∧ s.err = true) ∧ (2 : Word).getLsbD 0 = false ∧
      (2 : Word).getLsbD 1 = true ∧ (∃ s : State, s.host = [.write32 0x008 3] ∧ s.err = true) ∧
      (3 : Word).getLsbD 0 = true :=
  ⟨⟨{ hosted (.write32 0x008 2) with err := true }, rfl, rfl⟩, by decide, by decide,
    ⟨{ hosted (.write32 0x008 3) with err := true }, rfl, rfl⟩, by decide⟩

theorem witness_SoftResetKeepsMemories :
    (1 : Word).getLsbD 0 = true ∧ (∃ s : State, s.host = [.write32 0x008 1] ∧ s.running = none) ∧
      (∃ s : State, s.host = [.write32 0x008 1] ∧ s.running = some (.dcsucc 7)) ∧
      Loc.buf 7 ∉ writeSet (.dcsucc 7) ∧ Loc.lane0 7 ∈ writeSet (.dcsucc 7) ∧ Loc.lane0 6 ∉ writeSet (.dcsucc 7) ∧
      Loc.table (.quant 3) ∉ writeSet (.dcsucc 7) :=
  ⟨by decide, ⟨hosted (.write32 0x008 1), rfl, rfl⟩,
    ⟨{ hosted (.write32 0x008 1) with running := some (.dcsucc 7) }, rfl, rfl⟩, by decide, by decide, by decide,
    by decide⟩

theorem witness_HardwareResetSetsRegisters : ∃ s : State, s.host = [.resetInput] ∧ s.err = true :=
  ⟨{ hosted .resetInput with err := true }, rfl, rfl⟩

/-- A host write of the last byte of a stream memory of 16 bytes. -/
theorem witness_StepKeepsStreamInv :
    (small (.write8 0x10000F 9)).StreamInv ∧
      ∃ t, step (small (.write8 0x10000F 9)) = .next t ∧ t.byteAt 15 = 9 ∧ t.byteAt 3 = 4 :=
  ⟨⟨by decide, by decide, by decide, by decide⟩, ⟨_, rfl, by decide, by decide⟩⟩

theorem witness_StepKeepsErrorInv :
    (hosted (.write32 0x010 0x10000000)).ErrorInv ∧
      ∃ t, step (hosted (.write32 0x010 0x10000000)) = .next t ∧ t.err = true :=
  ⟨⟨by decide, by decide⟩, ⟨_, rfl, rfl⟩⟩

theorem witness_StepKeepsHuffInv :
    (tables dca aca (hosted (.write32 0x010 0x20000000) ([0, 2] ++ List.replicate 14 0 ++ [0, 3]))).HuffInv ∧
      ∃ t, step (tables dca aca (hosted (.write32 0x010 0x20000000) ([0, 2] ++ List.replicate 14 0 ++ [0, 3])))
        = .next t ∧ t.tblptr = 18 :=
  ⟨by unfold State.HuffInv; decide, ⟨_, rfl, by decide⟩⟩

/-- Encoder tables of ones; buffer 0 of ones is loaded into slot 3. -/
def recips (h : HostStmt) : State :=
  { (hosted h).setBuf 0 (tab fun _ => 1) with
    fqs := tab fun _ => tab fun _ => 0x3FF0000000000000, tvalid := 0x0010 }

theorem witness_StepKeepsRecipInv :
    (recips (.write32 0x010 0x51003000)).RecipInv ∧
      ∃ t, step (recips (.write32 0x010 0x51003000)) = .next t ∧ t.valid (.recip 3) = true :=
  ⟨by unfold State.RecipInv; decide, ⟨_, rfl, by decide⟩⟩

theorem witness_IdleStepsCompleteIdle : (hosted .wait).running = none := rfl

/-- A failing command takes a draw. -/
theorem witness_StepKeepsDrawInv :
    (hosted (.write32 0x010 0x10000000)).DrawInv ∧
      ∃ t, step (hosted (.write32 0x010 0x10000000)) = .next t ∧ t.draws = 2 :=
  ⟨⟨by decide, by decide⟩, ⟨_, rfl, rfl⟩⟩

/-- A read of each register, the two write-only ones among them, and a write of each read-only one. -/
theorem witness_ReadOnlyRegistersReadAndIgnoreWrites :
    (∀ off ∈ ([0x000, 0x004, 0x008, 0x00C, 0x010, 0x014, 0x018, 0x01C, 0x020, 0x050] : List Offset),
      ∃ s : State, s.running = none ∧ s.host = [.read32 off]) ∧
      ∀ off ∈ ([0x000, 0x004, 0x00C, 0x014, 0x018, 0x01C, 0x020, 0x050] : List Offset),
        ∃ s : State, s.running = none ∧ s.host = [.write32 off 0xFFFFFFFF] :=
  ⟨fun off _ => ⟨hosted (.read32 off), rfl, rfl⟩, fun off _ => ⟨hosted (.write32 off 0xFFFFFFFF), rfl, rfl⟩⟩

/-- A length beyond `STREAM_CAP`. -/
theorem witness_StreamLenStoresMinimum :
    ∃ s : State, s.host = [.write32 0x024 17] ∧ s.running = none ∧ s.cfg.legal = true ∧ s.cfg.streamCap = 16 :=
  ⟨small (.write32 0x024 17), rfl, rfl, by decide, rfl⟩

/-- A write and a read of each register; `ACSTATE.STATE` 4 and 5, on either side of the legal values' end. -/
theorem witness_FieldRegistersStoreFields :
    (∀ off ∈ ([0x024, 0x028, 0x02C, 0x030, 0x034, 0x038, 0x03C, 0x040, 0x044, 0x048, 0x04C] : List Offset),
      (∃ s : State, s.running = none ∧ s.host = [.write32 off 0xFFFFFFFF]) ∧
        ∃ s : State, s.running = none ∧ s.host = [.read32 off]) ∧
      (∃ s : State, s.running = none ∧ s.host = [.write32 0x03C 4]) ∧
      (∃ s : State, s.running = none ∧ s.host = [.write32 0x03C 5]) ∧
      (0x040 : Offset).toNat = 0x040 + 4 * 0 ∧ (0x04C : Offset).toNat = 0x040 + 4 * 3 :=
  ⟨fun off _ => ⟨⟨hosted (.write32 off 0xFFFFFFFF), rfl, rfl⟩, ⟨hosted (.read32 off), rfl, rfl⟩⟩,
    ⟨hosted (.write32 0x03C 4), rfl, rfl⟩, ⟨hosted (.write32 0x03C 5), rfl, rfl⟩, by decide, by decide⟩

/-- The ends of the three ranges: 0x054, 0x7FF, 0x1400, 0xFFFFF, and the first offset beyond 16 bytes of stream. -/
theorem witness_ReservedSpaceReadsZero :
    ([0x054, 0x7FF] : List Offset).all (fun off => decide (0x054 ≤ off.toNat ∧ off.toNat < 0x800)) = true ∧
      ([0x1400, 0xFFFFF] : List Offset).all (fun off => decide (0x1400 ≤ off.toNat ∧ off.toNat < 0x100000)) = true ∧
      0x100000 + 16 ≤ (0x100010 : Offset).toNat ∧
      ∀ h ∈ [HostStmt.read32 0x100010, .write32 0x100010 5, .read8 0x100010, .write8 0x100010 5],
        ∃ s : State, s.running = none ∧ s.cfg.streamCap = 16 ∧ s.host = [h] :=
  ⟨by decide, by decide, by decide, fun h _ => ⟨small h, rfl, rfl, rfl⟩⟩

theorem witness_NonConformingAccessesIgnored :
    (∃ s : State, s.running = none ∧ s.host = [.readOther 16 0]) ∧
      (∃ s : State, s.running = none ∧ s.host = [.writeOther 64 0]) ∧
      (∃ s : State, s.running = none ∧ s.host = [.read32 0x803]) ∧
      (∃ s : State, s.running = none ∧ s.host = [.write32 0x100001 5]) ∧
      (∃ s : State, s.running = none ∧ s.host = [.read8 0xFFFFF]) ∧
      (∃ s : State, s.running = none ∧ s.host = [.write8 0 5]) ∧
      (0x803 : Offset).toNat % 4 ≠ 0 ∧ (0x100001 : Offset).toNat % 4 ≠ 0 ∧ (0xFFFFF : Offset).toNat < 0x100000 :=
  ⟨⟨hosted (.readOther 16 0), rfl, rfl⟩, ⟨hosted (.writeOther 64 0), rfl, rfl⟩, ⟨hosted (.read32 0x803), rfl, rfl⟩,
    ⟨hosted (.write32 0x100001 5), rfl, rfl⟩, ⟨hosted (.read8 0xFFFFF), rfl, rfl⟩, ⟨hosted (.write8 0 5), rfl, rfl⟩,
    by decide, by decide, by decide⟩

/-- The last word and the last byte of 16 bytes of stream. -/
theorem witness_ApertureWritesStoreBytes :
    (∃ s : State, s.running = none ∧ s.host = [.write32 0x10000C 5] ∧ 12 + 3 < s.cfg.streamCap) ∧
      (∃ s : State, s.running = none ∧ s.host = [.write8 0x10000F 5] ∧ 15 < s.cfg.streamCap) ∧
      (0x10000C : Offset).toNat = 0x100000 + 12 ∧ (0x10000F : Offset).toNat = 0x100000 + 15 :=
  ⟨⟨small (.write32 0x10000C 5), rfl, rfl, by decide⟩, ⟨small (.write8 0x10000F 5), rfl, rfl, by decide⟩, by decide,
    by decide⟩

theorem witness_ApertureReadsReturnBytes :
    (∃ s : State, s.running = none ∧ s.host = [.read32 0x10000C] ∧ 12 + 3 < s.cfg.streamCap) ∧
      (∃ s : State, s.running = none ∧ s.host = [.read8 0x100000] ∧ 0 < s.cfg.streamCap) ∧
      (0x10000C : Offset).toNat = 0x100000 + 12 ∧ (0x100000 : Offset).toNat = 0x100000 + 0 :=
  ⟨⟨small (.read32 0x10000C), rfl, rfl, by decide⟩, ⟨small (.read8 0x100000), rfl, rfl, by decide⟩, by decide,
    by decide⟩

theorem witness_BufferAndTableWindows :
    (0xFFC : Offset).toNat = 0x800 + 0x100 * 7 + 4 * 63 ∧ (0x13FC : Offset).toNat = 0x1000 + 0x100 * 3 + 4 * 63 ∧
      (∃ s : State, s.running = none ∧ s.host = [.read32 0xFFC]) ∧
      (∃ s : State, s.running = none ∧ s.host = [.write32 0xFFC 5]) ∧
      (∃ s : State, s.running = none ∧ s.valid (.quant 3) = true ∧ s.host = [.read32 0x13FC]) ∧
      ∃ s : State, s.running = none ∧ s.host = [.write32 0x13FC 5] :=
  ⟨by decide, by decide, ⟨hosted (.read32 0xFFC), rfl, rfl⟩, ⟨hosted (.write32 0xFFC 5), rfl, rfl⟩,
    ⟨{ hosted (.read32 0x13FC) with tvalid := 8 }, rfl, by decide, rfl⟩, ⟨hosted (.write32 0x13FC 5), rfl, rfl⟩⟩

theorem witness_BusyBlockAnswersStatusOnly :
    (∀ h ∈ [HostStmt.read32 0x00C, .read32 0x014, .write32 0x024 5, .read8 0x00C, .write8 0x100000 5,
        .readOther 16 0x00C, .writeOther 64 0x008],
      ∃ s : State, s.running ≠ none ∧ s.host = [h]) ∧
      (0x014 : Offset) ≠ 0x00C ∧ (0x024 : Offset) ≠ 0x008 ∧ (0x024 : Offset) ≠ 0x010 :=
  ⟨fun h _ => ⟨{ hosted h with running := some .nop }, Option.some_ne_none _, rfl⟩, by decide, by decide, by decide⟩

/-- The largest operands; also for `DEQUANT`, `IDCT`, `QSCALE`, `ZZFWD` and `ZZINV`. -/
theorem witness_ControlCommandsWriteBuffer : (7 : Nib).toNat ≤ 7 ∧ (3 : Nib).toNat ≤ 3 ∧ (3 : Byte).toNat ≤ 3 := by
  decide

/-! ### The bit reader -/

theorem witness_ReadbitReturnsBitOrMarker :
    ({ start [] with br := ⟨0, 0xA5, 7⟩ } : State).br.bcount ≠ 0 ∧ (start [0xFE]).br.bcount = 0 ∧
      (start [0xFE]).streamByte 0 = some 0xFE ∧ (0xFE : Byte) ≠ 0xFF ∧
      (start [0xFF, 0]).streamByte 0 = some 0xFF ∧ (start [0xFF, 0]).streamByte (0 + 1) = some 0 ∧
      (start [0xFF, 0xD0]).streamByte (0 + 1) = some 0xD0 ∧ (start [0xFF, 0xD7]).streamByte (0 + 1) = some 0xD7 := by
  decide

theorem witness_ReadbitFailsAtEndOrMarker :
    (start []).br.bcount = 0 ∧ (start []).err = false ∧ (start []).streamByte 0 = none ∧
      (start [0xFF]).streamByte 0 = some 0xFF ∧ (start [0xFF]).streamByte (0 + 1) = none ∧
      (start [0xFF, 0xCF]).streamByte (0 + 1) = some 0xCF ∧ (start [0xFF, 0xD8]).streamByte (0 + 1) = some 0xD8 ∧
      ¬ (0xD0 ≤ (0xCF : Byte).toNat ∧ (0xCF : Byte).toNat ≤ 0xD7) ∧
      ¬ (0xD0 ≤ (0xD8 : Byte).toNat ∧ (0xD8 : Byte).toNat ≤ 0xD7) := by decide

/-- Sixteen bits across a stuffed byte, and none. -/
theorem witness_ReceiveReturnsBits :
    (16 : Byte).toNat ≤ 16 ∧
      (∃ bs r, BitsRead (start [0xFF, 0, 0xA5]).streamByte (start [0xFF, 0, 0xA5]).br bs r ∧
        bs.length = (16 : Byte).toNat) ∧
      BitsRead (start []).streamByte (start []).br [] (start []).br := by
  refine ⟨by decide, ?_, .nil _⟩
  obtain ⟨bs, hl, hr, -⟩ := recv_ok_iff.1
    (show recv (start [0xFF, 0, 0xA5]).streamByte 16 (start [0xFF, 0, 0xA5]).br = .ok (0xFFA5, ⟨3, 0xA5, 0⟩) from rfl)
  exact ⟨bs, _, hr, hl⟩

/-- The codes 010 and 101, and no bits. -/
theorem witness_ReceivexReturnsMagnitude :
    (3 : Byte).toNat ≤ 16 ∧
      BitsRead (start [0x40]).streamByte (start [0x40]).br [false, true, false] ⟨1, 0x40, 5⟩ ∧
      BitsRead (start [0xA0]).streamByte (start [0xA0]).br [true, false, true] ⟨1, 0xA0, 5⟩ ∧
      BitsRead (start []).streamByte (start []).br [] (start []).br :=
  ⟨by decide, .cons rfl (.cons rfl (.cons rfl (.nil _))), .cons rfl (.cons rfl (.cons rfl (.nil _))), .nil _⟩

/-- The stream ends after eight of nine bits; an RST0 stands there. -/
theorem witness_ReceiveFailsWithoutBits :
    (9 : Byte).toNat ≤ 16 ∧ (start [0xF0]).err = false ∧
      BitsFail (start [0xF0]).streamByte (9 : Byte).toNat (start [0xF0]).br ⟨.invalidHuffmanSequence, 1⟩ ∧
      BitsFail (start [0xF0, 0xFF, 0xD0]).streamByte (9 : Byte).toNat (start [0xF0, 0xFF, 0xD0]).br
        ⟨.invalidHuffmanSequence, 1⟩ :=
  ⟨by decide, rfl, recv_error_iff.1 rfl, recv_error_iff.1 rfl⟩

theorem witness_RstsyncReportsMarker :
    (start [0xFF, 0xD0]).streamByte (start [0xFF, 0xD0]).br.offset.toNat = some 0xFF ∧
      (start [0xFF, 0xD0]).streamByte (0 + 1) = some 0xD0 ∧ (start [0xFF, 0xD7]).streamByte (0 + 1) = some 0xD7 ∧
      (start [0xFF, 0xD8]).streamByte (0 + 1) = some 0xD8 ∧ (start [0xFF, 0]).streamByte (0 + 1) = some 0 := by decide

theorem witness_RstsyncFailsWithoutMarker :
    (start []).err = false ∧ (start []).streamByte 0 = none ∧ (start [0xFF]).streamByte (0 + 1) = none ∧
      (start [0xFE, 0xFF]).streamByte 0 = some 0xFE ∧ (start [0xFE, 0xFF]).streamByte (0 + 1) = some 0xFF ∧
      256 * (0xFE : Byte).toNat + (0xFF : Byte).toNat < 0xFF00 := by decide

/-! ### Huffman tables -/

theorem witness_CanonicalCodesAssigned :
    dca.vals.length = dca.nval ∧ ⟨2, 1, 3⟩ ∈ dca.codeMap ∧ 1 < (nth dca.bits (2 - 1)).toNat := by decide

theorem witness_HuffmanCodesPrefixFree :
    (⟨2, 1, 3⟩ : HuffCode) ∈ dca.codeMap ∧ (2 : Nat) ≤ 2 ∧ 1 / 2 ^ (2 - 2) = 1 := by decide

/-- The body of `DCA`, into AC slot 3. -/
def dcaBits : List Byte := [0, 2, 0, 0, 0, 0, 0, 0, 0, 0, 0, 0, 0, 0, 0, 0]
def dcaStream : State := start ([0, 2] ++ List.replicate 14 0 ++ [0, 3])

theorem witness_HtloadLoadsTable :
    (hiNib 0x13).toNat ≤ 1 ∧ (loNib 0x13).toNat ≤ 3 ∧ dcaBits.length = 16 ∧
      ([0, 3] : List Byte).length = (dcaBits.map BitVec.toNat).sum ∧
      (∀ len, 1 ≤ len → len ≤ 16 →
        ∑ j ∈ Finset.range len, (dcaBits.getD j 0).toNat * 2 ^ (len - 1 - j) ≤ 2 ^ len) ∧
      (∀ j < 16, dcaStream.streamByte (dcaStream.tblptr.toNat + j) = dcaBits[j]?) ∧
      ∀ j < 2, dcaStream.streamByte (dcaStream.tblptr.toNat + 16 + j) = ([0, 3] : List Byte)[j]? := by
  refine ⟨by decide, by decide, by decide, by decide, ?_, by decide, by decide⟩
  intro len h1 h2
  interval_cases len <;> decide

/-- Class 2, slot 4; a body cut short in its counts; 257 symbols; a symbol missing; three codes of one bit. -/
theorem witness_HtloadFails :
    1 < (hiNib 0x20).toNat ∧ 3 < (loNib 0x04).toNat ∧ (start []).err = false ∧
      (start [0]).streamByte ((start [0]).tblptr.toNat + 15) = none ∧
      256 < (([0, 0, 0, 0, 0, 0, 0, 0, 255, 2, 0, 0, 0, 0, 0, 0] : List Byte).map BitVec.toNat).sum ∧
      (∀ j < 16, (start [0, 0, 0, 0, 0, 0, 0, 0, 255, 2, 0, 0, 0, 0, 0, 0]).streamByte (0 + j)
        = ([0, 0, 0, 0, 0, 0, 0, 0, 255, 2, 0, 0, 0, 0, 0, 0] : List Byte)[j]?) ∧
      (∀ j < 16, (start (0 :: 2 :: List.replicate 15 0)).streamByte (0 + j) = dcaBits[j]?) ∧
      (start (0 :: 2 :: List.replicate 15 0)).streamByte (0 + 16 + 1) = none ∧
      (∀ j < 16, (start (3 :: List.replicate 18 0)).streamByte (0 + j)
        = ([3, 0, 0, 0, 0, 0, 0, 0, 0, 0, 0, 0, 0, 0, 0, 0] : List Byte)[j]?) ∧
      (∀ j < 3, (start (3 :: List.replicate 18 0)).streamByte (0 + 16 + j) ≠ none) ∧
      2 ^ 1 < ∑ j ∈ Finset.range 1,
        (([3, 0, 0, 0, 0, 0, 0, 0, 0, 0, 0, 0, 0, 0, 0, 0] : List Byte).getD j 0).toNat * 2 ^ (1 - 1 - j) := by
  decide

/-- The table of symbols 5 and 6, and one with the category 17. -/
def dcb : HuffTable := huffOf [1] [0x11]

theorem symbol_read {s : State} {c k : Nat} {r : BitReader} {v : Byte} {r' : BitReader}
    (h : huffDecode s.streamByte (s.codeMap c k) r = .ok (v, r')) :
    SymbolRead s.streamByte (s.codeMap c k) r v r' := (huffDecode_ok_iff (codeMap_functional s c k)).1 h

theorem symbol_fails {s : State} {c k : Nat} {r : BitReader} {e : CmdError}
    (h : huffDecode s.streamByte (s.codeMap c k) r = .error e) :
    SymbolFails s.streamByte (s.codeMap c k) r e := huffDecode_error_iff.1 h

/-- A code; the end of the stream and an RST0 after one bit of a code; a marker; sixteen bits that hold no code. -/
theorem witness_HdecReturnsSymbol :
    (1 : Nib).toNat ≤ 1 ∧ (3 : Nib).toNat ≤ 3 ∧ (tables dca aca (start [0x80])).valid (.huff 1 3) = true ∧
      SymbolRead (tables dca aca (start [0x80])).streamByte ((tables dca aca (start [0x80])).codeMap 1 3)
        (start [0x80]).br 0x11 ⟨1, 0x80, 6⟩ ∧ (tables dca aca (start [1])).err = false ∧
      SymbolFails (tables dca aca (start [1])).streamByte ((tables dca aca (start [1])).codeMap 1 3) ⟨1, 1, 1⟩
        ⟨.invalidHuffmanSequence, 1⟩ ∧
      SymbolFails (tables dca aca (start [1, 0xFF, 0xD0])).streamByte
        ((tables dca aca (start [1, 0xFF, 0xD0])).codeMap 1 3) ⟨1, 1, 1⟩ ⟨.invalidHuffmanSequence, 1⟩ ∧
      SymbolFails (tables dca aca (start [0xFF, 0xD8])).streamByte
        ((tables dca aca (start [0xFF, 0xD8])).codeMap 1 3) ⟨0, 0, 0⟩ ⟨.unexpectedMarker, 0xFFD8⟩ ∧
      SymbolFails (tables dca aca (start [0xC0, 0])).streamByte ((tables dca aca (start [0xC0, 0])).codeMap 1 3)
        ⟨0, 0, 0⟩ ⟨.invalidHuffmanSequence, 2⟩ :=
  ⟨by decide, by decide, by decide, symbol_read rfl, rfl, symbol_fails rfl, symbol_fails rfl, symbol_fails rfl,
    symbol_fails rfl⟩

/-! ### Blocks -/

/-- The stream of 42_block_decode R161's example, the tables in every slot. -/
def scanState : State := tables dca aca (start [0x6A, 0xA7])

/-- The example; a stream that ends in the DC part, in an AC symbol, and in an AC value. -/
theorem witness_DecbaseDecodesBlock :
    (scanState.valid (.huff 0 3) = true ∧ scanState.valid (.huff 1 3) = true ∧
      ∃ r1 blk r2, DcRead scanState.streamByte (scanState.codeMap 0 3) scanState.br 5 r1 ∧
        BaseRun scanState.streamByte (scanState.codeMap 1 3) 1
          (setLane (scanState.buf 7) 0 (toWord (wrap32 (signed (scanState.predAt 3) + 5)))) r1 (.ok (blk, r2))) ∧
      scanState.err = false ∧
      (∃ e, DcFails (tables dca aca (start [])).streamByte ((tables dca aca (start [])).codeMap 0 3) (start []).br e) ∧
      ∀ blk, (∃ e, BaseRun scanState.streamByte (scanState.codeMap 1 3) 1 blk ⟨2, 0, 1⟩ (.error e)) ∧
        ∃ e, BaseRun scanState.streamByte (scanState.codeMap 1 3) 1 blk ⟨2, 1, 2⟩ (.error e) := by
  exact ⟨⟨by decide, by decide, ⟨1, 0x6A, 3⟩, _, ⟨2, 0xA7, 3⟩,
    ⟨3, ⟨1, 0x6A, 6⟩, symbol_read rfl, by decide, extend_ok_iff.1 rfl⟩,
    .coef (rs := 1) (r1 := ⟨1, 0x6A, 1⟩) (x := -1) (r2 := ⟨1, 0x6A, 0⟩) (by decide) (symbol_read rfl) (by decide)
      (extend_ok_iff.1 rfl) <|
    .coef (rs := 0x11) (r1 := ⟨2, 0xA7, 6⟩) (x := 1) (r2 := ⟨2, 0xA7, 5⟩) (by decide) (symbol_read rfl) (by decide)
      (extend_ok_iff.1 rfl) <|
    .eob (rs := 0) (by decide) (symbol_read rfl) (by decide) (by decide)⟩, rfl, ⟨_, .inl (symbol_fails rfl)⟩,
    fun _ => ⟨⟨_, .symFails (by decide) (symbol_fails rfl)⟩,
      ⟨_, .valFails (rs := 1) (by decide) (symbol_read rfl) (by decide) (extend_error_iff.1 rfl)⟩⟩⟩

/-- The example; streams that end in the DC symbol and in its value; a bit that cannot be read. -/
theorem witness_DcCommandsWriteLaneZero :
    (∃ r, DcRead scanState.streamByte (scanState.codeMap 0 3) scanState.br 5 r) ∧
      fetchBit scanState.streamByte scanState.br = .bit false ⟨1, 0x6A, 7⟩ ∧ scanState.err = false ∧
      (∃ e, DcFails scanState.streamByte (scanState.codeMap 0 3) ⟨2, 0, 1⟩ e) ∧
      (∃ e, DcFails scanState.streamByte (scanState.codeMap 0 3) ⟨2, 1, 2⟩ e) ∧
      (start []).err = false ∧ BitFails (start []).streamByte (start []).br ⟨.invalidHuffmanSequence, 0⟩ ∧
      BitFails (start [0xFF, 0xD0]).streamByte (start [0xFF, 0xD0]).br ⟨.invalidHuffmanSequence, 0⟩ :=
  ⟨⟨⟨1, 0x6A, 3⟩, 3, ⟨1, 0x6A, 6⟩, symbol_read rfl, by decide, extend_ok_iff.1 rfl⟩, rfl, rfl,
    ⟨_, .inl (symbol_fails rfl)⟩,
    ⟨⟨.invalidHuffmanSequence, 2⟩, .inr ⟨3, ⟨2, 1, 0⟩, symbol_read rfl, extend_error_iff.1 rfl⟩⟩, rfl, .inl rfl,
    .inr ⟨_, rfl, rfl⟩⟩

/-- With valid AC tables, and with DC table 0 alone. -/
theorem witness_DcCategoryAboveSixteenFails :
    (tables dcb aca (start [0])).err = false ∧ (tables dcb aca (start [0])).valid (.huff 0 0) = true ∧
      (tables dcb aca (start [0])).valid (.huff 1 0) = true ∧ 16 < (0x11 : Byte).toNat ∧
      SymbolRead (tables dcb aca (start [0])).streamByte ((tables dcb aca (start [0])).codeMap 0 0) (start [0]).br 0x11
        ⟨1, 0, 7⟩ ∧
      ({ tables dcb aca (start [0]) with tvalid := 0x0100 } : State).valid (.huff 0 0) = true ∧
      ({ tables dcb aca (start [0]) with tvalid := 0x0100 } : State).valid (.huff 1 0) = false :=
  ⟨rfl, by decide, by decide, by decide, symbol_read rfl, by decide, by decide⟩

/-- 42_block_decode R164's example. -/
def firstState : State := { tables dca aca (start [0xA3]) with scan := ⟨1, 5, 0⟩ }

/-- A run; the example; a stream that ends in a symbol, in a value, and in the bits of a run of 16 blocks. -/
theorem witness_AcfirstDecodesBand :
    (0 < signed ({ firstState with eobrun := 1 } : State).eobrun ∧ signed firstState.eobrun ≤ 0 ∧
      ∃ blk eob r, FirstRun firstState.streamByte (firstState.codeMap 1 3) firstState.scan.al.toNat
        firstState.scan.se.toNat firstState.scan.ss.toNat (firstState.buf 7) firstState.eobrun firstState.br
        (.ok (blk, eob, r))) ∧ firstState.err = false ∧
      ∀ blk eob,
        (∃ x, FirstRun firstState.streamByte (firstState.codeMap 1 3) 0 5 1 blk eob ⟨1, 0, 1⟩ (.error x)) ∧
        (∃ x, FirstRun firstState.streamByte (firstState.codeMap 1 3) 0 5 1 blk eob ⟨1, 1, 2⟩ (.error x)) ∧
        ∃ x, FirstRun firstState.streamByte (huffOf [1] [0x40]).codeMap 0 5 1 blk eob ⟨1, 0, 1⟩ (.error x) := by
  exact ⟨⟨by decide, by decide, _, _, ⟨1, 0xA3, 3⟩,
    .coef (rs := 0x11) (r1 := ⟨1, 0xA3, 6⟩) (x := 1) (r2 := ⟨1, 0xA3, 5⟩) (by decide) (symbol_read rfl) (by decide)
      (extend_ok_iff.1 rfl) <|
    .eobRun (rs := 0) (r1 := ⟨1, 0xA3, 3⟩) (v := 0) (by decide) (symbol_read rfl) (by decide) (by decide)
      (recv_ok_iff.1 rfl)⟩, rfl, fun _ _ => ⟨⟨_, .symFails (by decide) (symbol_fails rfl)⟩,
    ⟨_, .valFails (rs := 1) (by decide) (symbol_read rfl) (by decide) (extend_error_iff.1 rfl)⟩,
    ⟨_, .runFails (rs := 0x40) (r1 := ⟨1, 0, 0⟩) (by decide)
      ((huffDecode_ok_iff fun _ hx _ hy hl hc => assignCodes_functional hx hy hl hc).1 rfl) (by decide) (by decide)
      (recv_error_iff.1 rfl)⟩⟩⟩

/-- 42_block_decode R165's example: a value symbol, lane 1 refined on the way, then a coefficient placed. -/
def succState : State := { (tables dca aca (start [0xBF])).setBuf 7 (blockOf [(1, 2)]) with scan := ⟨1, 3, 0⟩ }

theorem witness_AcsuccRefinesBand :
    succState.valid (.huff 1 3) = true ∧
      ∃ a, SuccRun succState.streamByte (succState.codeMap 1 3) succState.scan.al.toNat succState.scan.se.toNat
        succState.scan.ss.toNat ⟨succState.buf 7, succState.eobrun, succState.ac, 0, succState.br⟩ (.ok a) := by
  exact ⟨by decide, _,
    .valueSym (rs := 0x11) (r1 := ⟨1, 0xBF, 6⟩) (b := true) (r2 := ⟨1, 0xBF, 5⟩) (by decide) (by decide)
      (symbol_read rfl) (by decide) rfl <|
    .refineLane (b := true) (r1 := ⟨1, 0xBF, 4⟩) (by decide) (by decide) (by decide) rfl <|
    .skipLane (by decide) (.inr (by decide)) (by decide) <|
    .placeLane (by decide) (by decide) (by decide) <|
    .done (by decide)⟩

/-- In the state `EOB` a band only refines: lane 1 is refined, the others are passed. -/
theorem witness_AcsuccRefinesBand_eob :
    ∃ a, SuccRun succState.streamByte (succState.codeMap 1 3) 0 2 1
      ⟨succState.buf 7, 1, ⟨.eob, false⟩, 0, succState.br⟩ (.ok a) ∧ a.ac.mode = .eob := by
  exact ⟨_,
    .refineLane (b := true) (r1 := ⟨1, 0xBF, 7⟩) (by decide) (by decide) (by decide) rfl <|
    .eobLane (by decide) (by decide) (by decide) <|
    .done (by decide), by decide⟩

/-- A symbol of category 3 (the AC tables hold `DCA`'s codes); streams that end in a symbol, in the sign of a
value, and in the refinement of lane 1. -/
theorem witness_AcsuccRefinesBand_fails :
    let s : State := tables dca dca (start [0x40])
    let a : BitReader → AcRun := fun r => ⟨succState.buf 7, 0, ⟨.initial, false⟩, 0, r⟩
    s.err = false ∧ succState.err = false ∧
      SuccRun s.streamByte (s.codeMap 1 3) 0 3 1 (a s.br) (.error ⟨.invalidAcEncoding, 3⟩) ∧
      (∃ x, SuccRun succState.streamByte (succState.codeMap 1 3) 0 3 1 (a ⟨1, 0, 1⟩) (.error x)) ∧
      (∃ x, SuccRun succState.streamByte (succState.codeMap 1 3) 0 3 1 (a ⟨1, 1, 2⟩) (.error x)) ∧
      ∃ x, SuccRun succState.streamByte (succState.codeMap 1 3) 0 3 1
        ⟨succState.buf 7, 1, ⟨.eob, false⟩, 0, ⟨1, 0, 0⟩⟩ (.error x) := by
  exact ⟨rfl, rfl, .badSym (rs := 3) (by decide) rfl (symbol_read rfl) (by decide),
    ⟨_, .symFails (by decide) rfl (symbol_fails rfl)⟩,
    ⟨⟨.invalidHuffmanSequence, 1⟩, .valueFails (rs := 1) (r1 := ⟨1, 1, 0⟩) (by decide) rfl (symbol_read rfl) (by decide)
      (.inl rfl)⟩,
    ⟨⟨.invalidHuffmanSequence, 1⟩, .refineFails (by decide) (by decide) (by decide) (.inl rfl)⟩⟩

/-! ### Dequantization and the IDCT -/

/-- Both precisions; the bodies are all ones. -/
theorem witness_QloadLoadsTable :
    (hiNib 0x03).toNat ≤ 1 ∧ (loNib 0x13).toNat ≤ 3 ∧ (List.replicate 64 257).length = 64 ∧
      (∀ j < 64, ((start (List.replicate 64 1)).streamByte (0 + j)).map BitVec.toNat = (List.replicate 64 1)[j]?) ∧
      ∀ j < 64, (start (List.replicate 128 1)).streamByte (0 + 2 * j) = some 1 ∧
        (start (List.replicate 128 1)).streamByte (0 + 2 * j + 1) = some 1 ∧
        (List.replicate 64 257)[j]? = some (256 * (1 : Byte).toNat + (1 : Byte).toNat) := by decide

/-- Precision 2, slot 4, and a body of 63 bytes. -/
theorem witness_QloadFails :
    (start []).err = false ∧ 1 < (hiNib 0x20).toNat ∧ 3 < (loNib 0x04).toNat ∧ (loNib 0x20).toNat ≤ 3 ∧
      (start (List.replicate 63 1)).streamByte (0 + 63) = none := by decide

theorem witness_DequantMultiplies :
    ({ start [] with tvalid := 8 } : State).valid (.quant 3) = true ∧ (start []).valid (.quant 3) = false ∧
      (start []).err = false := by decide

theorem witness_IdctOfDcBlockIsFlat :
    ∀ i, 1 ≤ i → i < 64 → lane (((start []).setBuf 7 (blockOf [(0, 40)])).buf 7) i = 0 := by
  intro i h1 h2
  interval_cases i <;> decide

/-! ### The encoder -/

/-- A buffer of scaled table entries: 1 in lane 0, 255 in the others; `last` in lane 63. -/
def entries (last : Int) : State :=
  (start []).setBuf 7 (tab fun i => if i = 0 then 1 else if i = 63 then toWord last else 255)

/-- The ends of the range 1..255, and the first values outside it as the first bad lane. -/
theorem witness_EqloadStoresReciprocals :
    (∀ i < 64, 1 ≤ signed (lane ((entries 255).buf 7) i) ∧ signed (lane ((entries 255).buf 7) i) ≤ 255) ∧
      (entries 256).err = false ∧
      ¬ (1 ≤ signed (lane ((entries 256).buf 7) 63) ∧ signed (lane ((entries 256).buf 7) 63) ≤ 255) ∧
      (∀ i < 63, 1 ≤ signed (lane ((entries 256).buf 7) i) ∧ signed (lane ((entries 256).buf 7) i) ≤ 255) ∧
      ¬ (1 ≤ signed (lane ((entries 0).buf 7) 63) ∧ signed (lane ((entries 0).buf 7) 63) ≤ 255) ∧
      ¬ (1 ≤ signed (lane ((start []).buf 7) 0) ∧ signed (lane ((start []).buf 7) 0) ≤ 255) := by decide

theorem witness_FdctqTransformsBlock : (recips .wait).valid (.recip 0) = true := by decide

theorem witness_FdctqOfConstantBlockIsDc :
    (recips .wait).valid (.recip 0) = true ∧ (recips .wait).RecipInv ∧ ∀ i < 64, lane ((recips .wait).buf 0) i = 1 :=
  ⟨by decide, by unfold State.RecipInv; decide, by decide⟩

/-- 2.5, -2.5 and 3: values of both signs, with finite sums. -/
theorem f64Value_examples :
    f64Value 0x4004000000000000 = some (5 / 2) ∧ f64Value 0xC004000000000000 = some (-5 / 2) ∧
      f64Value 0x4008000000000000 = some 3 ∧ f64Value 0xC008000000000000 = some (-3) := by
  have h1 : unpack 0x4004000000000000 = .fin false 5629499534213120 (-51) := by decide
  have h2 : unpack 0xC004000000000000 = .fin true 5629499534213120 (-51) := by decide
  have h3 : unpack 0x4008000000000000 = .fin false 6755399441055744 (-51) := by decide
  have h4 : unpack 0xC008000000000000 = .fin true 6755399441055744 (-51) := by decide
  refine ⟨?_, ?_, ?_, ?_⟩ <;> norm_num [f64Value, h1, h2, h3, h4]

theorem witness_QuantRoundsHalfAway :
    (f64Value 0x4004000000000000 = some (5 / 2) ∧ (0 : ℚ) < 5 / 2 ∧
      f64Value (f64Add 0x4004000000000000 0x3FE0000000000000) = some 3) ∧
      f64Value 0xC004000000000000 = some (-5 / 2) ∧ ¬ (0 : ℚ) < -5 / 2 ∧
      f64Value (f64Sub 0xC004000000000000 0x3FE0000000000000) = some (-3) := by
  have h1 : f64Add 0x4004000000000000 0x3FE0000000000000 = 0x4008000000000000 := by decide
  have h2 : f64Sub 0xC004000000000000 0x3FE0000000000000 = 0xC008000000000000 := by decide
  rw [h1, h2]
  obtain ⟨a, b, c, d⟩ := f64Value_examples
  exact ⟨⟨a, by norm_num, c⟩, b, by norm_num, d⟩

theorem witness_Binary64RoundsToNearestEven :
    f64Value 0x4004000000000000 = some (5 / 2) ∧ f64Value 0x4008000000000000 = some 3 ∧ (3 : ℚ) ≠ 0 ∧
      (-2147483648 : Int).natAbs < 2 ^ 53 ∧ (1387039845 : Nat) < 2 ^ 53 ∧ |(5 / 2 * 3 : ℚ)| ≤ f64Max := by
  refine ⟨f64Value_examples.1, f64Value_examples.2.2.1, by norm_num, by norm_num, by norm_num, ?_⟩
  have h : (2 : ℚ) ^ (3 : Int) ≤ 2 ^ (1023 : Int) := zpow_le_zpow_right₀ (by norm_num) (by norm_num)
  refine le_trans ?_ (h.trans f64Max_bounds.1)
  norm_num [abs_of_pos]

/-- Steps along a diagonal both ways, and each kind of step at the border. -/
theorem witness_ZigzagRunsAlongDiagonals :
    (zz 4 = 9 ∧ zz 5 = 2) ∧ (zz 7 = 10 ∧ zz 8 = 17) ∧ (zz 0 = 0 ∧ zz 1 = 1) ∧ (zz 2 = 8 ∧ zz 3 = 16) ∧
      (zz 35 = 56 ∧ zz 36 = 57) ∧ (zz 28 = 7 ∧ zz 29 = 14) ∧ (zz 62 = 62 ∧ zz 63 = 63) := by decide

end Sys2Proof.Tests
end

section
/-!
PROOFS. The register part of the host window on an idle block (10_state R21 to R30, R38, R46): one rule for a read of
a register, one for a write, and the statements about the read-only registers and about `STREAM_LEN`.
-/

namespace Sys2Proof.Machine

variable {s : State} {rest : List HostStmt} {off : Offset} {r : Reg}

/-! ## Accesses to registers -/

/-- The host's statements to come are no part of a register. -/
@[simp] theorem Reg.read_set_host (s : State) (h : List HostStmt) (r : Reg) :
    r.read { s with host := h } = r.read s := by
  cases r <;> rfl

/-- Every register stands at a word of the window's register part (20_memory R64). -/
theorem regMap_lookup_place {o : Nat} (h : regMap.lookup o = some r) : o % 4 = 0 ∧ o < 0x800 := by
  obtain ⟨l, l', hl, -⟩ := List.lookup_eq_some_iff.1 h
  have hmap : ∀ p ∈ regMap, p.1 % 4 = 0 ∧ p.1 < 0x800 := by decide
  exact hmap (o, r) (by simp [hl])

/-- On an idle block a read of a register replies its value and changes nothing else. -/
theorem step_read32_reg (hr : s.running = none) (h : regMap.lookup off.toNat = some r)
    (hh : s.host = .read32 off :: rest) :
    step s = .next { s with host := rest, replies := r.read s :: s.replies } := by
  obtain ⟨h4, ho⟩ := regMap_lookup_place h
  rw [step_read32 hh hr, read32_reg h4 h ho, Reg.read_set_host]
  rfl

/-- On an idle block a write of a register other than `CMD` does what the register's rule says. -/
theorem step_write32_reg {v : Word} (hr : s.running = none) (h : regMap.lookup off.toNat = some r) (hc : r ≠ .cmd)
    (hh : s.host = .write32 off v :: rest) : step s = .next (r.write v { s with host := rest }) := by
  obtain ⟨h4, ho⟩ := regMap_lookup_place h
  have hcmd : off ≠ cmdOffset := by
    rintro rfl
    exact hc (Option.some.inj h).symm
  rw [step_write32 hh hr hcmd, write32_reg v h4 h ho]

/-! ## The read-only registers (10_state R21, R22, R24, R26 to R29, R38) -/

/-- The registers that the host can only read (20_memory R64). -/
def Reg.readOnly : Reg → Bool
  | .id | .caps | .status | .result | .errcode | .errinfo | .errcmd | .tvalid => true
  | .ctrl | .cmd | .streamLen | .brOffset | .brState | .tblptr | .scancfg | .eobrun | .acstate | .pred _ => false

/-- A write of a read-only register is ignored (10_state R46). -/
theorem Reg.write_readOnly (h : r.readOnly = true) (v : Word) (s : State) : r.write v s = s := by
  cases r with
  | id | caps | status | result | errcode | errinfo | errcmd | tvalid => rfl
  | ctrl | cmd | streamLen | brOffset | brState | tblptr | scancfg | eobrun | acstate | pred => cases h

/-- On an idle block a write to a read-only register only takes the host's statement. -/
theorem step_write32_readOnly {v : Word} (hr : s.running = none) (h : regMap.lookup off.toNat = some r)
    (ho : r.readOnly = true) (hh : s.host = .write32 off v :: rest) : step s = .next { s with host := rest } := by
  have hc : r ≠ .cmd := by
    rintro rfl
    cases ho
  rw [step_write32_reg hr h hc hh, Reg.write_readOnly ho]

/-- The offsets of the read-only registers. -/
theorem readOnly_offsets :
    ∀ off ∈ ([0x000, 0x004, 0x00C, 0x014, 0x018, 0x01C, 0x020, 0x050] : List Offset),
      ∃ r, regMap.lookup off.toNat = some r ∧ r.readOnly = true := by
  simp only [List.forall_mem_cons, List.not_mem_nil, false_imp_iff, implies_true, and_true]
  exact ⟨⟨.id, rfl, rfl⟩, ⟨.caps, rfl, rfl⟩, ⟨.status, rfl, rfl⟩, ⟨.result, rfl, rfl⟩, ⟨.errcode, rfl, rfl⟩,
    ⟨.errinfo, rfl, rfl⟩, ⟨.errcmd, rfl, rfl⟩, ⟨.tvalid, rfl, rfl⟩⟩

/-- `STATUS` of an idle block: `BUSY` reads 0 (10_state R24). -/
theorem status_bits_idle (hr : s.running = none) :
    s.status.getLsbD 0 = false ∧ s.status.getLsbD 1 = s.err ∧ s.status.getLsbD 2 = s.nobit ∧
      s.status.getLsbD 3 = s.mstop ∧ ∀ j, 4 ≤ j → s.status.getLsbD j = false := by
  obtain ⟨busy, others⟩ := status_bits s
  exact ⟨by rw [busy, State.busy, hr]; rfl, others⟩

/-- The bits of `TVALID`: `QT`, `FQ`, then `HT` by class (10_state R38). -/
theorem tvalid_bits (s : State) (t : Nat) :
    s.tvalid.getLsbD t = s.valid (.quant t) ∧ s.tvalid.getLsbD (4 + t) = s.valid (.recip t) ∧
      s.tvalid.getLsbD (8 + t) = s.valid (.huff 0 t) ∧ s.tvalid.getLsbD (12 + t) = s.valid (.huff 1 t) :=
  ⟨rfl, rfl, rfl, rfl⟩

/-! ## `STREAM_LEN` (10_state R30) -/

/-- `StreamByte` is `EOS` from `STREAM_LEN` on, and only there. -/
theorem State.streamByte_eq_none_iff (s : State) (o : Nat) : s.streamByte o = none ↔ s.streamLen.toNat ≤ o := by
  simp [State.streamByte]

/-- The minimum with the capacity is at most the word written, so it fits the register. -/
theorem toNat_min_streamCap (v : Word) (c : Config) :
    (BitVec.ofNat 32 (min v.toNat c.streamCap)).toNat = min v.toNat c.streamCap := by
  rw [BitVec.toNat_ofNat]
  exact Nat.mod_eq_of_lt (lt_of_le_of_lt (min_le_left _ _) v.isLt)

end Sys2Proof.Machine

section
open Sys2Proof Sys2Proof.Machine

/-- Settles O20: each read-only register's offset stands for it in the register map; the rules for a read and for an
ignored write do the rest. -/
theorem readOnlyRegistersReadAndIgnoreWrites : Obligations.ReadOnlyRegistersReadAndIgnoreWrites := by
  intro s rest hr
  refine ⟨step_read32_reg (r := .id) hr rfl, step_read32_reg (r := .caps) hr rfl,
    step_read32_reg (r := .status) hr rfl, step_read32_reg (r := .result) hr rfl,
    step_read32_reg (r := .errcode) hr rfl, step_read32_reg (r := .errinfo) hr rfl,
    step_read32_reg (r := .errcmd) hr rfl, step_read32_reg (r := .tvalid) hr rfl,
    ?writeOnly, ?ignored, status_bits_idle hr, fun t _ => tvalid_bits s t⟩
  case writeOnly =>
    rintro off (rfl | rfl)
    · exact step_read32_reg (r := .ctrl) hr rfl
    · exact step_read32_reg (r := .cmd) hr rfl
  case ignored =>
    intro off v hm
    obtain ⟨r, hl, ho⟩ := readOnly_offsets off hm
    exact step_write32_readOnly hr hl ho

/-- Settles O21: the write stores `min(v, STREAM_CAP)`, which is at most `v` and so fits 32 bits. -/
theorem streamLenStoresMinimum : Obligations.StreamLenStoresMinimum := by
  refine ⟨rfl, fun s v rest _ => ⟨s.streamByte_eq_none_iff, fun hh hr => ?_⟩⟩
  exact ⟨_, step_write32_reg (r := .streamLen) hr rfl (by decide) hh, toNat_min_streamCap v s.cfg, rfl⟩

end
end

section
/-!
PROOFS. The commands that only clear decoder state (40_bitreader R124, R125): they need no table and cannot fail, so
each completes with its own effect.
-/

namespace Sys2Proof.Machine

variable (s : State)

/-! ## `clearScan` (R125, R127) -/

@[simp] theorem clearScan_br : (clearScan s).br = ⟨s.br.offset, s.br.bdata, 0⟩ := rfl
@[simp] theorem clearScan_eobrun : (clearScan s).eobrun = 0 := rfl
@[simp] theorem clearScan_ac : (clearScan s).ac = ⟨.initial, false⟩ := rfl

@[simp] theorem clearScan_predAt {i : Nat} (h : i < 4) : (clearScan s).predAt i = 0 :=
  nth_tab _ h

/-- The scan state is all that `clearScan` changes. -/
theorem clearScan_frame :
    { clearScan s with br := s.br, pred := s.pred, eobrun := s.eobrun, ac := s.ac } = s := rfl

/-! ## `ALIGN` and `SCANINIT` -/

/-- `ALIGN` completes in every state, at the byte boundary (R124). -/
theorem exec_align_next : exec .align s = .next { s with br := s.br.aligned } := by
  rw [exec_align]
  exact runCommand_ok rfl (by simp [neededTables]) rfl

/-- `SCANINIT` completes in every state, with the scan state cleared (R125). -/
theorem exec_scaninit_next : exec .scaninit s = .next (clearScan s) := by
  rw [exec_scaninit]
  exact runCommand_ok rfl (by simp [neededTables]) rfl

end Sys2Proof.Machine

section
open Sys2Proof Sys2Proof.Machine

/-- Settles O35: neither command can fail, so the state after it is `aligned` or `clearScan` of the state before. -/
theorem alignAndScaninitClear : Obligations.AlignAndScaninitClear := by
  refine ⟨rfl, rfl, fun s => ⟨exec_align_next s, clearScan s, exec_scaninit_next s, ?cleared⟩⟩
  exact ⟨clearScan_br s, fun _ hi => clearScan_predAt s hi, clearScan_eobrun s, clearScan_ac s, clearScan_frame s⟩

end
end

section
/-!
PROOFS. `DEQUANT` (43_dequant_idct R191, R197): its word and operand ranges, its lanes, and its error where the table
is not loaded.
-/

namespace Sys2Proof.Machine

variable {s : State}

/-- A command that needs one table, and finds it not loaded, records `TableUndefined` with the table's name (30_encoding
R95 step 4). -/
theorem runCommand_tableUndefined {i : Instr} (body : State → Except CmdError State) {r : TableRef}
    (hw : i.wellFormed = true) (hn : neededTables i = [r]) (hv : s.valid r = false) (he : s.err = false) :
    runCommand i body s = .next (withError ⟨.tableUndefined, r.id⟩ (encode i) s) := by
  have hmissing : decodeError i s = some ⟨.tableUndefined, r.id⟩ := decodeError_missing hw (by simp [hn, hv])
  rw [runCommand_decode body hmissing, recordError_of_no_error he]

/-! ## `DEQUANT` -/

/-- The ranges that 30_encoding R93 checks. -/
theorem dequant_wellFormed_iff (d b t : Nib) :
    (Instr.dequant d b t).wellFormed = true ↔ d.toNat ≤ 7 ∧ b.toNat ≤ 7 ∧ t.toNat ≤ 3 := by
  simp [Instr.wellFormed, and_assoc]

/-- Opcode `0x41`, then the three operands; the two low fields are 0 (30_encoding R90, R93). -/
theorem encode_dequant (d b t : Nib) :
    encode (.dequant d b t)
      = BitVec.ofNat 32 (0x41000000 + d.toNat * 2 ^ 20 + b.toNat * 2 ^ 16 + t.toNat * 2 ^ 12) :=
  packWord_eq 0x41 d b t 0 0

/-- Each lane, read as signed, is the wrapped product. -/
theorem signed_lane_dequantized (blk : Block) (q : Vector Half 64) {i : Nat} (h : i < 64) :
    signed (lane (dequantized blk q) i) = wrap32 (signed (lane blk i) * (nth q i).toNat) := by
  rw [dequantized, lane, nth_tab _ h, signed_toWord, wrap32_wrap32]

end Sys2Proof.Machine

section
open Sys2Proof Sys2Proof.Machine

/-- Settles O50: with its table loaded the command's only effect is the new buffer, whose lanes are those of
`dequantized`; without it the decode check raises. -/
theorem dequantMultiplies : Obligations.DequantMultiplies := by
  refine ⟨fun d b t => ⟨encode_dequant d b t, dequant_wellFormed_iff d b t⟩, fun s d b t hd hb ht => ?_⟩
  have hw : (Instr.dequant d b t).wellFormed = true := (dequant_wellFormed_iff d b t).2 ⟨hd, hb, ht⟩
  rw [exec_dequant]
  refine ⟨fun hv => ?valid, runCommand_tableUndefined _ hw rfl⟩
  case valid =>
    have hneeded : ∀ r ∈ neededTables (.dequant d b t), s.valid r = true := by simpa [neededTables] using hv
    obtain ⟨s', hnext, honly, hbuf⟩ := runCommand_setBuf (Nat.lt_succ_of_le hd) hw hneeded
      (f := fun s => dequantized (s.buf b.toNat) (s.qt t.toNat))
    refine ⟨s', hnext, honly, fun i hi => ?_⟩
    rw [hbuf, signed_lane_dequantized _ _ hi]

end
end

section
/-!
PROOFS. `QSCALE` (44_fdct_quant R220): its word and operand ranges, and the lanes of the scaled table.
-/

namespace Sys2Proof.Machine

/-- The ranges that 30_encoding R93 checks; every quality is legal. -/
theorem qscale_wellFormed_iff (d b : Nib) (quality : Byte) :
    (Instr.qscale d b quality).wellFormed = true ↔ d.toNat ≤ 7 ∧ b.toNat ≤ 7 := by
  simp [Instr.wellFormed]

/-- Opcode `0x50`, then the two buffers, with the quality in the low byte (30_encoding R90, R93). -/
theorem encode_qscale (d b : Nib) (quality : Byte) :
    encode (.qscale d b quality)
      = BitVec.ofNat 32 (0x50000000 + d.toNat * 2 ^ 20 + b.toNat * 2 ^ 16 + quality.toNat) :=
  packWord_eq 0x50 d b 0 0 quality

/-- Natural index `i` lands at its zig-zag position: `ZZ` undoes `ZZI`. -/
theorem lane_qscaled_zzi (blk : Block) (quality : Nat) {i : Nat} (h : i < 64) :
    lane (qscaled blk quality) (zzi i)
      = BitVec.ofNat 32 (scaledEntry (scaleFactor quality) (lane blk i)) := by
  rw [qscaled, lane, nth_tab _ (zzi_lt i h), zz_zzi i h]

end Sys2Proof.Machine

section
open Sys2Proof Sys2Proof.Machine

/-- Settles O53: the command needs no table and its only effect is the new buffer, whose lanes are those of
`qscaled`; the clamped quality and its scale factor are `scaleFactor` by definition. -/
theorem qscaleScalesTable : Obligations.QscaleScalesTable := by
  refine ⟨fun d b quality => ⟨encode_qscale d b quality, qscale_wellFormed_iff d b quality⟩,
    fun s d b quality hd hb => ?_⟩
  have hw : (Instr.qscale d b quality).wellFormed = true := (qscale_wellFormed_iff d b quality).2 ⟨hd, hb⟩
  have hneeded : ∀ r ∈ neededTables (.qscale d b quality), s.valid r = true := by simp [neededTables]
  obtain ⟨t, hnext, honly, hbuf⟩ := runCommand_setBuf (Nat.lt_succ_of_le hd) hw hneeded
    (f := fun s => qscaled (s.buf b.toNat) quality.toNat)
  rw [exec_qscale]
  refine ⟨t, hnext, honly, ?_⟩
  rintro q sf rfl rfl i hi
  rw [hbuf, lane_qscaled_zzi _ _ hi]
  rfl

end
end

section
/-!
PROOFS. `ZZFWD` and `ZZINV` (45_zigzag R251, R252): their words and operand ranges, their lanes, and the two round
trips.
-/

namespace Sys2Proof.Machine

/-! ## Words and operand ranges -/

/-- The ranges that 30_encoding R93 checks. -/
theorem zzfwd_wellFormed_iff (d b : Nib) : (Instr.zzfwd d b).wellFormed = true ↔ d.toNat ≤ 7 ∧ b.toNat ≤ 7 := by
  simp [Instr.wellFormed]

/-- The ranges that 30_encoding R93 checks. -/
theorem zzinv_wellFormed_iff (d b : Nib) : (Instr.zzinv d b).wellFormed = true ↔ d.toNat ≤ 7 ∧ b.toNat ≤ 7 := by
  simp [Instr.wellFormed]

/-- Opcode `0x60`, then the two buffers; the three low fields are 0 (30_encoding R90, R93). -/
theorem encode_zzfwd (d b : Nib) :
    encode (.zzfwd d b) = BitVec.ofNat 32 (0x60000000 + d.toNat * 2 ^ 20 + b.toNat * 2 ^ 16) :=
  packWord_eq 0x60 d b 0 0 0

/-- Opcode `0x61`, then the two buffers; the three low fields are 0 (30_encoding R90, R93). -/
theorem encode_zzinv (d b : Nib) :
    encode (.zzinv d b) = BitVec.ofNat 32 (0x61000000 + d.toNat * 2 ^ 20 + b.toNat * 2 ^ 16) :=
  packWord_eq 0x61 d b 0 0 0

/-! ## The two reorderings of a block -/

theorem lane_toZigzag (blk : Block) {k : Nat} (h : k < 64) : lane (toZigzag blk) k = lane blk (zz k) :=
  nth_tab _ h

theorem lane_toNatural (blk : Block) {n : Nat} (h : n < 64) : lane (toNatural blk) n = lane blk (zzi n) :=
  nth_tab _ h

/-- Position `k` lands at its natural index: `ZZI` undoes `ZZ`. -/
theorem lane_toNatural_zz (blk : Block) {k : Nat} (h : k < 64) : lane (toNatural blk) (zz k) = lane blk k := by
  rw [lane_toNatural blk (zz_lt k h), zzi_zz k h]

theorem toNatural_toZigzag (blk : Block) : toNatural (toZigzag blk) = blk := by
  refine vec_ext fun i hi => ?_
  calc lane (toNatural (toZigzag blk)) i
      = lane (toZigzag blk) (zzi i) := lane_toNatural _ hi
    _ = lane blk (zz (zzi i)) := lane_toZigzag _ (zzi_lt i hi)
    _ = lane blk i := by rw [zz_zzi i hi]

theorem toZigzag_toNatural (blk : Block) : toZigzag (toNatural blk) = blk := by
  refine vec_ext fun k hk => ?_
  calc lane (toZigzag (toNatural blk)) k
      = lane (toNatural blk) (zz k) := lane_toZigzag _ hk
    _ = lane blk k := lane_toNatural_zz _ hk

/-! ## The two commands -/

variable (s : State) {d b : Nib}

/-- With its buffers in range `ZZFWD` completes, and its only effect is the reordered destination. -/
theorem exec_zzfwd_next (hd : d.toNat ≤ 7) (hb : b.toNat ≤ 7) :
    ∃ t, exec (.zzfwd d b) s = .next t ∧ OnlyBuf d.toNat s t ∧ t.buf d.toNat = toZigzag (s.buf b.toNat) := by
  rw [exec_zzfwd]
  exact runCommand_setBuf (f := fun s => toZigzag (s.buf b.toNat)) (Nat.lt_succ_of_le hd)
    ((zzfwd_wellFormed_iff d b).2 ⟨hd, hb⟩) (by simp [neededTables])

/-- With its buffers in range `ZZINV` completes, and its only effect is the reordered destination. -/
theorem exec_zzinv_next (hd : d.toNat ≤ 7) (hb : b.toNat ≤ 7) :
    ∃ t, exec (.zzinv d b) s = .next t ∧ OnlyBuf d.toNat s t ∧ t.buf d.toNat = toNatural (s.buf b.toNat) := by
  rw [exec_zzinv]
  exact runCommand_setBuf (f := fun s => toNatural (s.buf b.toNat)) (Nat.lt_succ_of_le hd)
    ((zzinv_wellFormed_iff d b).2 ⟨hd, hb⟩) (by simp [neededTables])

end Sys2Proof.Machine

section
open Sys2Proof Sys2Proof.Machine

/-- Settles O60: each command's only effect is the reordered destination, and on blocks the two reorderings are
inverse to each other. -/
theorem zigzagCommandsPermute : Obligations.ZigzagCommandsPermute := by
  refine ⟨fun d b => ⟨encode_zzfwd d b, encode_zzinv d b, zzfwd_wellFormed_iff d b, zzinv_wellFormed_iff d b⟩,
    fun s d b e hd hb he => ⟨?forward, ?inverse⟩⟩
  case forward =>
    obtain ⟨t, hnext, honly, hbuf⟩ := exec_zzfwd_next s hd hb
    obtain ⟨t', hnext', -, hbuf'⟩ := exec_zzinv_next t he hd
    refine ⟨t, hnext, honly, fun k hk => ?_, t', hnext', fun i _ => ?_⟩
    · rw [hbuf, lane_toZigzag _ hk]
    · rw [hbuf', hbuf, toNatural_toZigzag]
  case inverse =>
    obtain ⟨t, hnext, honly, hbuf⟩ := exec_zzinv_next s hd hb
    obtain ⟨t', hnext', -, hbuf'⟩ := exec_zzfwd_next t he hd
    refine ⟨t, hnext, honly, fun k hk => ?_, t', hnext', fun i _ => ?_⟩
    · rw [hbuf, lane_toNatural_zz _ hk]
    · rw [hbuf', hbuf, toZigzag_toNatural]

end
end

section
/-!
PROOFS. `NOP`, `ZERO` and `COPY` (46_control R270 to R272): their words and operand ranges, and their effects, which no
table and no stream byte can stop.
-/

namespace Sys2Proof.Machine

/-! ## Words and operand ranges -/

/-- The range that 30_encoding R93 checks. -/
theorem zero_wellFormed_iff (d : Nib) : (Instr.zero d).wellFormed = true ↔ d.toNat ≤ 7 := by
  simp [Instr.wellFormed]

/-- The ranges that 30_encoding R93 checks. -/
theorem copy_wellFormed_iff (d b : Nib) : (Instr.copy d b).wellFormed = true ↔ d.toNat ≤ 7 ∧ b.toNat ≤ 7 := by
  simp [Instr.wellFormed]

/-- Opcode `0x01`, then the buffer; the four low fields are 0 (30_encoding R90, R93). -/
theorem encode_zero (d : Nib) : encode (.zero d) = BitVec.ofNat 32 (0x01000000 + d.toNat * 2 ^ 20) :=
  (packWord_eq 0x01 d 0 0 0 0).trans (by simp)

/-- Opcode `0x02`, then the two buffers; the three low fields are 0 (30_encoding R90, R93). -/
theorem encode_copy (d b : Nib) :
    encode (.copy d b) = BitVec.ofNat 32 (0x02000000 + d.toNat * 2 ^ 20 + b.toNat * 2 ^ 16) :=
  packWord_eq 0x02 d b 0 0 0

/-! ## The three commands -/

theorem lane_zeroBlock {i : Nat} (h : i < 64) : lane zeroBlock i = 0 :=
  nth_tab _ h

variable (s : State) {d b : Nib}

/-- `NOP` completes in every state (R270). -/
theorem exec_nop_next : exec .nop s = .next s := by
  rw [exec_nop]
  exact runCommand_ok rfl (by simp [neededTables]) rfl

/-- With its buffer in range `ZERO` completes, and its only effect is the cleared buffer (R271). -/
theorem exec_zero_next (hd : d.toNat ≤ 7) :
    ∃ t, exec (.zero d) s = .next t ∧ OnlyBuf d.toNat s t ∧ t.buf d.toNat = zeroBlock := by
  rw [exec_zero]
  exact runCommand_setBuf (f := fun _ => zeroBlock) (Nat.lt_succ_of_le hd) ((zero_wellFormed_iff d).2 hd)
    (by simp [neededTables])

/-- With its buffers in range `COPY` completes, and its only effect is the copy (R272). -/
theorem exec_copy_next (hd : d.toNat ≤ 7) (hb : b.toNat ≤ 7) :
    ∃ t, exec (.copy d b) s = .next t ∧ OnlyBuf d.toNat s t ∧ t.buf d.toNat = s.buf b.toNat := by
  rw [exec_copy]
  exact runCommand_setBuf (f := fun s => s.buf b.toNat) (Nat.lt_succ_of_le hd)
    ((copy_wellFormed_iff d b).2 ⟨hd, hb⟩) (by simp [neededTables])

end Sys2Proof.Machine

section
open Sys2Proof Sys2Proof.Machine

/-- Settles O29: none of the three commands can fail, and the only effect of `ZERO` and of `COPY` is the new
destination buffer. -/
theorem controlCommandsWriteBuffer : Obligations.ControlCommandsWriteBuffer := by
  refine ⟨fun d b => ⟨rfl, encode_zero d, encode_copy d b, zero_wellFormed_iff d, copy_wellFormed_iff d b⟩,
    fun s d b hd hb => ⟨exec_nop_next s, ?zero, ?copy⟩⟩
  case zero =>
    obtain ⟨t, hnext, honly, hbuf⟩ := exec_zero_next s hd
    refine ⟨t, hnext, honly, fun i hi => ?_⟩
    rw [hbuf, lane_zeroBlock hi]
  case copy =>
    obtain ⟨t, hnext, honly, hbuf⟩ := exec_copy_next s hd hb
    refine ⟨t, hnext, honly, fun i _ => ?_⟩
    rw [hbuf]

end
end

section
/-!
PROOFS. The error registers (60_exceptions R302, R305): what a write of `CMD` does while an error is pending or a command
runs, and what a write of `CTRL` does with each of its two bits.
-/

namespace Sys2Proof.Machine

variable {s : State} {v w : Word}

/-! ## Writes of `CMD` that issue nothing (R302) -/

theorem issue_of_error (he : s.err = true) : issue w s = .next s :=
  if_pos he

theorem issue_of_running (he : s.err = false) (hr : s.running ≠ none) :
    issue w s = .next (withError ⟨.commandOverrun, 0⟩ w s) := by
  obtain ⟨pending, -⟩ | ⟨-, -, overrun⟩ | ⟨-, idle, -⟩ := issue_cases w s
  · rw [he] at pending
    cases pending
  · exact overrun
  · exact absurd idle hr

/-! ## Writes of `CTRL` (10_state R23) -/

/-- A soft reset takes precedence over the error clear. -/
theorem writeCtrl_of_sreset (h : v.getLsbD 0 = true) : writeCtrl v s = softReset s :=
  if_pos h

theorem writeCtrl_of_errclr (h0 : v.getLsbD 0 = false) (h1 : v.getLsbD 1 = true) : writeCtrl v s = clearError s := by
  simp only [writeCtrl, h0, h1, Bool.false_eq_true, if_false, if_true]

/-- A soft reset clears the error, of a block with a command in execution too (R305). -/
theorem softReset_clears_error (s : State) :
    (softReset s).err = false ∧ (softReset s).errcode = 0 ∧ (softReset s).errinfo = 0 ∧ (softReset s).errcmd = 0 :=
  ⟨rfl, rfl, rfl, rfl⟩

end Sys2Proof.Machine

section
open Sys2Proof Sys2Proof.Machine

/-- Settles O5: the step issues the word, and `issue` answers an error pending or a command in execution before it
decodes. -/
theorem commandDroppedWhileErrorOrBusy : Obligations.CommandDroppedWhileErrorOrBusy := by
  intro s w rest hh
  rw [step_cmd hh]
  exact ⟨fun he => issue_of_error he, fun he hr => issue_of_running he hr⟩

/-- Settles O10: the step is `writeCtrl`, which is `clearError` or `softReset` by the two bits. -/
theorem errorClearClearsErrorOnly : Obligations.ErrorClearClearsErrorOnly := by
  intro s v rest hh
  rw [step_ctrl hh]
  refine ⟨fun h0 h1 => ?errclr, fun h0 => ?sreset⟩
  case errclr =>
    rw [writeCtrl_of_errclr h0 h1]
    rfl
  case sreset =>
    rw [writeCtrl_of_sreset h0]
    exact ⟨_, rfl, softReset_clears_error _⟩

end
end

section
/-!
PROOFS. The decoder and the encoder as inverses of each other (30_encoding R90 to R95), and the words that encode no
command.
-/

namespace Sys2Proof

/-! ## The decoder (R95 step 3) -/

/-- The decoder accepts a word exactly through a row of the opcode map whose unused fields are 0 and whose instruction
is in range. -/
theorem decode_ok_iff {w : Word} {i : Instr} :
    decode w = .ok i ↔ ∃ row, opRow (fieldOP w) = some row ∧ unusedZero row.uses w = true ∧ row.build w = i ∧
      i.wellFormed = true := by
  simp only [decode]
  cases hrow : opRow (fieldOP w) with
  | none => simp
  | some row =>
    dsimp only
    split_ifs with hzero hwf
    · simp only [Except.ok.injEq, Option.some.injEq]
      constructor
      · rintro rfl
        exact ⟨row, rfl, hzero, rfl, hwf⟩
      · rintro ⟨_, rfl, -, rfl, -⟩
        rfl
    · refine iff_of_false (by simp) ?_
      rintro ⟨_, hr, -, rfl, hi⟩
      cases hr
      exact hwf hi
    · refine iff_of_false (by simp) ?_
      rintro ⟨_, hr, hz, -⟩
      cases hr
      exact hzero hz

/-! ## The encoder, instruction by instruction (R92, R93) -/

/-- The encoder's word of every instruction carries its opcode, and 0 in every field it does not use. -/
theorem encode_opcodeField (i : Instr) : Laws.OpcodeField.Statement i := by
  cases i with
  | nop => exact Laws.OpcodeField.nop
  | zero d => exact Laws.OpcodeField.zero d
  | copy d s => exact Laws.OpcodeField.copy d s
  | readbit => exact Laws.OpcodeField.readbit
  | receive n => exact Laws.OpcodeField.receive n
  | receivex n => exact Laws.OpcodeField.receivex n
  | align => exact Laws.OpcodeField.align
  | scaninit => exact Laws.OpcodeField.scaninit
  | rstsync => exact Laws.OpcodeField.rstsync
  | htload spec => exact Laws.OpcodeField.htload spec
  | hdec c k => exact Laws.OpcodeField.hdec c k
  | decbase d t u p => exact Laws.OpcodeField.decbase d t u p
  | dcfirst d t p => exact Laws.OpcodeField.dcfirst d t p
  | dcsucc d => exact Laws.OpcodeField.dcsucc d
  | acfirst d u => exact Laws.OpcodeField.acfirst d u
  | acsucc d u => exact Laws.OpcodeField.acsucc d u
  | qload spec => exact Laws.OpcodeField.qload spec
  | dequant d s t => exact Laws.OpcodeField.dequant d s t
  | idct d s => exact Laws.OpcodeField.idct d s
  | qscale d s q => exact Laws.OpcodeField.qscale d s q
  | eqload s t => exact Laws.OpcodeField.eqload s t
  | fdctq d s t => exact Laws.OpcodeField.fdctq d s t
  | zzfwd d s => exact Laws.OpcodeField.zzfwd d s
  | zzinv d s => exact Laws.OpcodeField.zzinv d s

/-- An instruction's row of the opcode map builds the instruction again from the fields of its word. -/
theorem build_encode {i : Instr} {row : OpRow} (h : opRow i.opcode = some row) : row.build (encode i) = i := by
  cases i <;> (cases h; simp [encode])

/-! ## The rows of the opcode map, from the word's side -/

/-- The word with opcode `op` and the fields of `w` that `u` uses, every other field 0. -/
def Uses.wordOf (u : Uses) (op : Byte) (w : Word) : Word :=
  packWord op (if u.d then fieldD w else 0) (if u.s then fieldS w else 0) (if u.t then fieldT w else 0)
    (if u.u then fieldU w else 0) (if u.i then fieldI w else 0)

/-- A word whose unused fields are 0 is made of its opcode and its used fields. -/
theorem wordOf_unusedZero {u : Uses} {w : Word} (h : unusedZero u w = true) : u.wordOf (fieldOP w) w = w := by
  have keep {n : Nat} {b : Bool} {x : BitVec n} (hx : b = true ∨ x = 0) : (if b then x else 0) = x := by
    rcases hx with rfl | rfl
    · rfl
    · exact ite_self 0
  simp only [unusedZero, Bool.and_eq_true, Bool.or_eq_true, beq_iff_eq] at h
  obtain ⟨⟨⟨⟨hd, hs⟩, ht⟩, hu⟩, hi⟩ := h
  rw [Uses.wordOf, keep hd, keep hs, keep ht, keep hu, keep hi, packWord_fields]

/-- Every row's instruction encodes to the row's opcode and the fields that the row uses. -/
theorem encode_build (w : Word) : ∀ row ∈ opcodeTable, encode (row.build w) = row.uses.wordOf row.op w := by
  simp [opcodeTable, encode, Uses.wordOf, nibs_append]

/-- The encoder gives an accepted word back. -/
theorem encode_of_decode {w : Word} {i : Instr} (h : decode w = .ok i) : encode i = w := by
  obtain ⟨row, hrow, hzero, rfl, -⟩ := decode_ok_iff.1 h
  obtain ⟨hmem, hop⟩ := opRow_some hrow
  rw [encode_build w row hmem, hop, wordOf_unusedZero hzero]

/-- The decoder gives a well-formed instruction back from its word. -/
theorem decode_encode {i : Instr} (h : i.wellFormed = true) : decode (encode i) = .ok i := by
  obtain ⟨hop, row, hrow, hzero⟩ := encode_opcodeField i
  exact decode_ok_iff.2 ⟨row, hop ▸ hrow, hzero, build_encode hrow, h⟩

end Sys2Proof

namespace Sys2Proof.Machine

/-- A word that decodes to nothing raises `BadCommand` on an idle block without an error (R95 step 3). -/
theorem issue_undecoded {s : State} {w : Word} (he : s.err = false) (hr : s.running = none)
    (hd : ∀ i, decode w ≠ .ok i) : issue w s = .next (withError ⟨.badCommand, 0⟩ w s) := by
  obtain ⟨pending, -⟩ | ⟨-, busy, -⟩ | ⟨-, -, ⟨i, hi, -⟩ | ⟨-, bad⟩⟩ := issue_cases w s
  · rw [he] at pending
    cases pending
  · exact absurd hr busy
  · exact absurd hi (hd i)
  · exact bad

end Sys2Proof.Machine

section
open Sys2Proof Sys2Proof.Machine

/-- Settles O1: the word's opcode finds the instruction's own row, and the row builds it back from the fields. -/
theorem encodeThenDecode : Obligations.EncodeThenDecode :=
  fun _ h => decode_encode h

/-- Settles O2: an accepted word comes through a row whose instruction encodes to that row's fields of the word, and
the word's other fields are 0. -/
theorem decodeThenEncode : Obligations.DecodeThenEncode := by
  intro w i h
  obtain ⟨-, -, -, -, hwf⟩ := decode_ok_iff.1 h
  exact ⟨hwf, encode_of_decode h⟩

/-- Settles O3: each word is decoded by evaluation. -/
theorem writtenWordsDecode : Obligations.WrittenWordsDecode := by
  unfold Obligations.WrittenWordsDecode
  decide

/-- Settles O4: the step issues the word, and `issue` runs the command that it decodes to. -/
theorem stepRunsDecodedCommand : Obligations.StepRunsDecodedCommand := by
  intro s w i rest hh he hr hd
  rw [step_cmd hh]
  exact issue_decoded he hr hd

/-- Settles O6: a word that decodes to a well-formed instruction is its encoding, so this word decodes to none. -/
theorem otherWordsAreBadCommands : Obligations.OtherWordsAreBadCommands := by
  intro s w rest hh he hr hno
  have hd : ∀ i, decode w ≠ .ok i := fun i hi => hno ⟨i, decodeThenEncode w i hi⟩
  rw [step_cmd hh]
  exact issue_undecoded he hr hd

end
end

section
/-!
PROOFS. What every command does, however it ends: a missing table (30_encoding R95 step 4, 60_exceptions R307), the
frame and the error registers (60_exceptions R303, R304), and that it sees no stream byte at or beyond `STREAM_LEN`
(00_scope R10).
-/

namespace Sys2Proof.Machine

/-! ## Operand ranges (30_encoding R93) -/

theorem receive_wellFormed_iff (n : Byte) : (Instr.receive n).wellFormed = true ↔ n.toNat ≤ 16 := by
  simp [Instr.wellFormed]

theorem receivex_wellFormed_iff (n : Byte) : (Instr.receivex n).wellFormed = true ↔ n.toNat ≤ 16 := by
  simp [Instr.wellFormed]

theorem hdec_wellFormed_iff (c k : Nib) : (Instr.hdec c k).wellFormed = true ↔ c.toNat ≤ 1 ∧ k.toNat ≤ 3 := by
  simp [Instr.wellFormed]

theorem decbase_wellFormed_iff (d t u : Nib) (p : Byte) :
    (Instr.decbase d t u p).wellFormed = true ↔ d.toNat ≤ 7 ∧ t.toNat ≤ 3 ∧ u.toNat ≤ 3 ∧ p.toNat ≤ 3 := by
  simp [Instr.wellFormed, and_assoc]

theorem dcfirst_wellFormed_iff (d t : Nib) (p : Byte) :
    (Instr.dcfirst d t p).wellFormed = true ↔ d.toNat ≤ 7 ∧ t.toNat ≤ 3 ∧ p.toNat ≤ 3 := by
  simp [Instr.wellFormed, and_assoc]

theorem dcsucc_wellFormed_iff (d : Nib) : (Instr.dcsucc d).wellFormed = true ↔ d.toNat ≤ 7 := by
  simp [Instr.wellFormed]

theorem acfirst_wellFormed_iff (d u : Nib) :
    (Instr.acfirst d u).wellFormed = true ↔ d.toNat ≤ 7 ∧ u.toNat ≤ 3 := by
  simp [Instr.wellFormed]

theorem acsucc_wellFormed_iff (d u : Nib) : (Instr.acsucc d u).wellFormed = true ↔ d.toNat ≤ 7 ∧ u.toNat ≤ 3 := by
  simp [Instr.wellFormed]

theorem idct_wellFormed_iff (d b : Nib) : (Instr.idct d b).wellFormed = true ↔ d.toNat ≤ 7 ∧ b.toNat ≤ 7 := by
  simp [Instr.wellFormed]

theorem eqload_wellFormed_iff (b t : Nib) : (Instr.eqload b t).wellFormed = true ↔ b.toNat ≤ 7 ∧ t.toNat ≤ 3 := by
  simp [Instr.wellFormed]

theorem fdctq_wellFormed_iff (d b t : Nib) :
    (Instr.fdctq d b t).wellFormed = true ↔ d.toNat ≤ 7 ∧ b.toNat ≤ 7 ∧ t.toNat ≤ 3 := by
  simp [Instr.wellFormed, and_assoc]

/-! ## A missing table -/

/-- The name of a DC table is its slot (30_encoding R95 step 4). -/
theorem huff_dc_id (k : Nat) : (TableRef.huff 0 k).id = BitVec.ofNat 32 k := by
  simp [TableRef.id]

/-- The name of an AC table is 16 more than its slot (30_encoding R95 step 4). -/
theorem huff_ac_id (k : Nat) : (TableRef.huff 1 k).id = BitVec.ofNat 32 (16 + k) := rfl

/-- A command that needs two tables reports the first one that is not loaded (60_exceptions R307). -/
theorem runCommand_tableUndefined_second {i : Instr} (body : State → Except CmdError State) {s : State}
    {q r : TableRef} (hw : i.wellFormed = true) (hn : neededTables i = [q, r]) (hq : s.valid q = true)
    (hr : s.valid r = false) (he : s.err = false) :
    runCommand i body s = .next (withError ⟨.tableUndefined, r.id⟩ (encode i) s) := by
  have hmissing : decodeError i s = some ⟨.tableUndefined, r.id⟩ := decodeError_missing hw (by simp [hn, hq, hr])
  rw [runCommand_decode body hmissing, recordError_of_no_error he]

theorem runCommand_tableUndefined_first {i : Instr} (body : State → Except CmdError State) {s : State}
    {q r : TableRef} (hw : i.wellFormed = true) (hn : neededTables i = [q, r]) (hq : s.valid q = false)
    (he : s.err = false) : runCommand i body s = .next (withError ⟨.tableUndefined, q.id⟩ (encode i) s) := by
  have hmissing : decodeError i s = some ⟨.tableUndefined, q.id⟩ := decodeError_missing hw (by simp [hn, hq])
  rw [runCommand_decode body hmissing, recordError_of_no_error he]

/-! ## A command that needs no table -/

theorem runCommand_ok_of_noTable {i : Instr} {body : State → Except CmdError State} {s s' : State}
    (hw : i.wellFormed = true) (hn : neededTables i = []) (hb : body s = .ok s') : runCommand i body s = .next s' :=
  runCommand_ok hw (by simp [hn]) hb

theorem runCommand_fails_of_noTable {i : Instr} {body : State → Except CmdError State} {s : State} {e : CmdError}
    (hw : i.wellFormed = true) (hn : neededTables i = []) (he : s.err = false) (hb : body s = .error e) :
    ∃ t, runCommand i body s = .next t ∧ FailsWith i e s t :=
  runCommand_fails hw (by simp [hn]) he hb

/-! ## The frame and the error registers -/

/-- The error registers stay, or record an error of word `w` where none was pending (10_state R27, 60_exceptions R300). -/
def ErrorOutcome (w : Word) (s t : State) : Prop :=
  (t.err = s.err ∧ t.errcode = s.errcode ∧ t.errinfo = s.errinfo ∧ t.errcmd = s.errcmd) ∨
    (s.err = false ∧ t.err = true ∧ t.errcmd = w ∧ 1 ≤ t.errcode.toNat ∧ t.errcode.toNat ≤ 11)

theorem withError_outcome (e : CmdError) (w : Word) {s : State} (h : s.err = false) :
    ErrorOutcome w s (withError e w s) :=
  .inr ⟨h, rfl, rfl, e.kind.code_range⟩

theorem recordError_outcome (e : CmdError) (w : Word) (s : State) : ErrorOutcome w s (recordError e w s) := by
  obtain ⟨-, same⟩ | ⟨none, recorded⟩ := recordError_cases e w s
  · rw [same]
    exact .inl ⟨rfl, rfl, rfl, rfl⟩
  · rw [recorded]
    exact withError_outcome e w none

theorem raiseInExecution_outcome {i : Instr} (hw : i.wellFormed = true) (e : CmdError) (s : State) :
    ErrorOutcome (encode i) s (raiseInExecution i e s) := by
  obtain ⟨-, clean, pending⟩ := raiseInExecution_spec hw e s
  cases h : s.err with
  | false =>
    obtain ⟨err, code, -, cmd, -⟩ := clean h
    exact .inr ⟨h, err, cmd, code ▸ e.kind.code_range⟩
  | true =>
    obtain ⟨err, code, info, cmd⟩ := pending h
    exact .inl ⟨err.trans h.symm, code, info, cmd⟩

theorem CleanOutside.errorOutcome {ws : List Loc} {s t : State} (h : CleanOutside ws s t) (w : Word) :
    ErrorOutcome w s t := by
  obtain ⟨-, err, code, info, cmd, -⟩ := h
  exact .inl ⟨err, code, info, cmd⟩

variable {i : Instr} {s t : State}

/-- Every command changes nothing outside its write set (60_exceptions R303 point 4, R304). -/
theorem exec_frame (h : exec i s = .next t) : FrameOutside (writeSet i) s t := by
  obtain ⟨body, hexec, hkeeps⟩ := exec_keeps i
  exact runCommand_frame hkeeps (hexec s ▸ h)

/-- Every command leaves the error registers alone, or records an error of its own word. -/
theorem exec_errorOutcome (h : exec i s = .next t) : ErrorOutcome (encode i) s t := by
  obtain ⟨body, hexec, hkeeps⟩ := exec_keeps i
  obtain ⟨e, -, rfl⟩ | ⟨hw, -, done | ⟨e, -, rfl⟩⟩ := runCommand_cases (hexec s ▸ h)
  · exact recordError_outcome e _ s
  · exact (hkeeps hw s t done).errorOutcome _
  · exact raiseInExecution_outcome hw e s

/-! ## What a command sees of stream memory -/

/-- A body that sees stream memory through `StreamByte` only, and leaves it as it is. -/
def SeesStreamByteOnly (body : State → Except CmdError State) : Prop :=
  ∀ (s : State) (m : List Host.Cell), ({ s with stream := m } : State).streamByte = s.streamByte →
    body { s with stream := m } = (body s).map fun t => { t with stream := m }

section Sees

variable (d t u c k : Nib) (n p spec : Byte)

theorem sees_readbit : SeesStreamByteOnly readbitBody := by
  intro s m h
  simp only [readbitBody, h]
  cases fetchBit s.streamByte s.br <;> rfl

theorem sees_receive : SeesStreamByteOnly (receiveBody n) := by
  intro s m h
  simp only [receiveBody, h]
  cases recv s.streamByte n.toNat s.br <;> rfl

theorem sees_receivex : SeesStreamByteOnly (receivexBody n) := by
  intro s m h
  simp only [receivexBody, h]
  cases extend s.streamByte n.toNat s.br <;> rfl

theorem sees_rstsync : SeesStreamByteOnly rstsyncBody := by
  intro s m h
  have hclear : (clearScan { s with stream := m }).streamByte = (clearScan s).streamByte := h
  simp only [rstsyncBody, hclear, clearScan_br]
  cases bigEndian16 (clearScan s).streamByte s.br.offset.toNat with
  | none => rfl
  | some v =>
    dsimp only
    split_ifs <;> rfl

theorem sees_htload : SeesStreamByteOnly (htloadBody spec) := by
  intro s m h
  simp only [htloadBody, h]
  cases huffSpec spec with
  | none => rfl
  | some r =>
    dsimp only
    cases readHuffTable s.streamByte spec s.tblptr.toNat <;> rfl

theorem sees_hdec : SeesStreamByteOnly (hdecBody c k) := by
  intro s m h
  have hmap : ({ s with stream := m } : State).ht c.toNat k.toNat = s.ht c.toNat k.toNat := rfl
  simp only [hdecBody, h, hmap]
  cases huffDecode s.streamByte (s.ht c.toNat k.toNat).codeMap s.br <;> rfl

theorem sees_decbase : SeesStreamByteOnly (decbaseBody d t u p) := by
  intro s m h
  have hmap (c k : Nat) : ({ s with stream := m } : State).codeMap c k = s.codeMap c k := rfl
  have hbuf (b : Nat) : ({ s with stream := m } : State).buf b = s.buf b := rfl
  have hpred (diff : Int) : predicted { s with stream := m } p.toNat diff = predicted s p.toNat diff := rfl
  simp only [decbaseBody, h, hmap, hbuf, hpred]
  cases decodeDc s.streamByte (s.codeMap 0 t.toNat) s.br with
  | error e => rfl
  | ok x =>
    dsimp only
    cases baseAc s.streamByte (s.codeMap 1 u.toNat) 64 1
      (setLane (s.buf d.toNat) 0 (predicted s p.toNat x.1)) x.2 <;> rfl

theorem sees_dcfirst : SeesStreamByteOnly (dcfirstBody d t p) := by
  intro s m h
  have hmap (c k : Nat) : ({ s with stream := m } : State).codeMap c k = s.codeMap c k := rfl
  simp only [dcfirstBody, h, hmap]
  cases decodeDc s.streamByte (s.codeMap 0 t.toNat) s.br <;> rfl

theorem sees_dcsucc : SeesStreamByteOnly (dcsuccBody d) := by
  intro s m h
  simp only [dcsuccBody, h]
  cases readBit s.streamByte s.br <;> rfl

theorem sees_acfirst : SeesStreamByteOnly (acfirstBody d u) := by
  intro s m h
  have hmap (c k : Nat) : ({ s with stream := m } : State).codeMap c k = s.codeMap c k := rfl
  have hbuf (b : Nat) : ({ s with stream := m } : State).buf b = s.buf b := rfl
  simp only [acfirstBody, h, hmap, hbuf]
  split_ifs with hrun
  · rfl
  · cases firstAc s.streamByte (s.codeMap 1 u.toNat) s.scan.al.toNat s.scan.se.toNat 64 s.scan.ss.toNat
      (s.buf d.toNat) s.eobrun s.br <;> rfl

theorem sees_acsucc : SeesStreamByteOnly (acsuccBody d u) := by
  intro s m h
  have hmap (c k : Nat) : ({ s with stream := m } : State).codeMap c k = s.codeMap c k := rfl
  have hbuf (b : Nat) : ({ s with stream := m } : State).buf b = s.buf b := rfl
  simp only [acsuccBody, h, hmap, hbuf]
  cases acBand s.streamByte (s.codeMap 1 u.toNat) s.scan.al.toNat (s.scan.se.toNat + 1 - s.scan.ss.toNat)
    s.scan.ss.toNat ⟨s.buf d.toNat, s.eobrun, s.ac, 0, s.br⟩ <;> rfl

theorem sees_qload : SeesStreamByteOnly (qloadBody spec) := by
  intro s m h
  simp only [qloadBody, h]
  cases quantSpec spec with
  | none => rfl
  | some r =>
    dsimp only
    split_ifs
    · rfl
    · cases quantEntries s.streamByte (hiNib spec).toNat s.tblptr.toNat 64 0 <;> rfl

theorem sees_eqload : SeesStreamByteOnly (eqloadBody c t) := by
  intro s m _
  have hbuf (b : Nat) : ({ s with stream := m } : State).buf b = s.buf b := rfl
  simp only [eqloadBody, hbuf]
  cases badEntry (s.buf c.toNat) <;> rfl

end Sees

/-- Every command is its frame around a body that sees stream memory through `StreamByte` only. -/
theorem exec_sees (i : Instr) : ∃ body, (∀ s, exec i s = runCommand i body s) ∧ SeesStreamByteOnly body := by
  cases i with
  | nop => exact ⟨_, exec_nop, fun _ _ _ => rfl⟩
  | zero d => exact ⟨_, (exec_zero · d), fun _ _ _ => rfl⟩
  | copy d b => exact ⟨_, (exec_copy · d b), fun _ _ _ => rfl⟩
  | readbit => exact ⟨_, exec_readbit, sees_readbit⟩
  | receive n => exact ⟨_, (exec_receive · n), sees_receive n⟩
  | receivex n => exact ⟨_, (exec_receivex · n), sees_receivex n⟩
  | align => exact ⟨_, exec_align, fun _ _ _ => rfl⟩
  | scaninit => exact ⟨_, exec_scaninit, fun _ _ _ => rfl⟩
  | rstsync => exact ⟨_, exec_rstsync, sees_rstsync⟩
  | htload spec => exact ⟨_, (exec_htload · spec), sees_htload spec⟩
  | hdec c k => exact ⟨_, (exec_hdec · c k), sees_hdec c k⟩
  | decbase d t u p => exact ⟨_, (exec_decbase · d t u p), sees_decbase d t u p⟩
  | dcfirst d t p => exact ⟨_, (exec_dcfirst · d t p), sees_dcfirst d t p⟩
  | dcsucc d => exact ⟨_, (exec_dcsucc · d), sees_dcsucc d⟩
  | acfirst d u => exact ⟨_, (exec_acfirst · d u), sees_acfirst d u⟩
  | acsucc d u => exact ⟨_, (exec_acsucc · d u), sees_acsucc d u⟩
  | qload spec => exact ⟨_, (exec_qload · spec), sees_qload spec⟩
  | dequant d b t => exact ⟨_, (exec_dequant · d b t), fun _ _ _ => rfl⟩
  | idct d b => exact ⟨_, (exec_idct · d b), fun _ _ _ => rfl⟩
  | qscale d b q => exact ⟨_, (exec_qscale · d b q), fun _ _ _ => rfl⟩
  | eqload b t => exact ⟨_, (exec_eqload · b t), sees_eqload t b⟩
  | fdctq d b t => exact ⟨_, (exec_fdctq · d b t), fun _ _ _ => rfl⟩
  | zzfwd d b => exact ⟨_, (exec_zzfwd · d b), fun _ _ _ => rfl⟩
  | zzinv d b => exact ⟨_, (exec_zzinv · d b), fun _ _ _ => rfl⟩

variable (s) (m : List Host.Cell)

theorem recordError_set_stream (e : CmdError) (w : Word) :
    recordError e w { s with stream := m } = { recordError e w s with stream := m } := by
  simp only [recordError]
  split_ifs <;> rfl

theorem havocLoc_set_stream (n : Nat) (l : Loc) :
    havocLoc n { s with stream := m } l = { havocLoc n s l with stream := m } := by
  cases l with
  | table r => cases r <;> rfl
  | _ => rfl

theorem havocFold_set_stream (n : Nat) (ws : List Loc) :
    ws.foldl (havocLoc n) { s with stream := m } = { ws.foldl (havocLoc n) s with stream := m } := by
  induction ws generalizing s with
  | nil => rfl
  | cons l ws ih => rw [List.foldl_cons, List.foldl_cons, havocLoc_set_stream, ih]

/-- A failing command leaves the same unspecified values, whatever stream memory holds. -/
theorem raiseInExecution_set_stream (i : Instr) (e : CmdError) :
    raiseInExecution i e { s with stream := m } = { raiseInExecution i e s with stream := m } := by
  have hhavoc : havoc (writeSet i) { s with stream := m } = { havoc (writeSet i) s with stream := m } := by
    simp only [havoc, havocFold_set_stream]
  rw [raiseInExecution, hhavoc, recordError_set_stream, raiseInExecution]

end Sys2Proof.Machine

section
open Sys2Proof Sys2Proof.Machine

/-- Settles O7: with its operands in range the command's only decode error is its first table that is not loaded. -/
theorem missingTableReported : Obligations.MissingTableReported := by
  refine fun s he => ⟨fun c k hc hk hv => ?_, fun d t u p hd ht hu hp => ?_, fun d b t hd hb ht => ⟨?_, ?_⟩⟩
  · exact runCommand_tableUndefined _ ((hdec_wellFormed_iff c k).2 ⟨hc, hk⟩) rfl hv he
  · rw [← huff_dc_id, ← huff_ac_id]
    have hbase := (decbase_wellFormed_iff d t u p).2 ⟨hd, ht, hu, hp⟩
    refine ⟨fun hv => ?_, fun hv hv' => ?_, fun hv => ?_, fun hv => ?_, fun hv => ?_⟩
    · exact runCommand_tableUndefined_first _ hbase rfl hv he
    · exact runCommand_tableUndefined_second _ hbase rfl hv hv' he
    · exact runCommand_tableUndefined _ ((dcfirst_wellFormed_iff d t p).2 ⟨hd, ht, hp⟩) rfl hv he
    · exact runCommand_tableUndefined _ ((acfirst_wellFormed_iff d u).2 ⟨hd, hu⟩) rfl hv he
    · exact runCommand_tableUndefined _ ((acsucc_wellFormed_iff d u).2 ⟨hd, hu⟩) rfl hv he
  · rw [exec_dequant]
    exact fun hv => runCommand_tableUndefined _ ((dequant_wellFormed_iff d b t).2 ⟨hd, hb, ht⟩) rfl hv he
  · rw [exec_fdctq]
    exact fun hv => runCommand_tableUndefined _ ((fdctq_wellFormed_iff d b t).2 ⟨hd, hb, ht⟩) rfl hv he

/-- Settles O8: a command ends with an error at decode, with its own effect, or with an error in execution, and each
keeps the frame and the error registers. -/
theorem commandsKeepStateOutsideWriteSet : Obligations.CommandsKeepStateOutsideWriteSet :=
  fun _ _ _ h => ⟨exec_frame h, exec_errorOutcome h⟩

/-- Settles O9: `StreamByte` is the same in both runs, so the command's body answers alike, and so does an error. -/
theorem commandsDoNotSeeBeyondStreamLength : Obligations.CommandsDoNotSeeBeyondStreamLength := by
  intro i s t m hbytes h
  obtain ⟨body, hexec, hsees⟩ := exec_sees i
  have hbody := hsees s m (State.streamByte_congr rfl hbytes)
  have hdecode : decodeError i { s with stream := m } = decodeError i s := rfl
  rw [hexec] at h ⊢
  obtain ⟨e, he, rfl⟩ | ⟨hw, ht, done | ⟨e, failed, rfl⟩⟩ := runCommand_cases h
  · rw [runCommand_decode body (hdecode.trans he), recordError_set_stream]
  · rw [done] at hbody
    exact runCommand_ok hw ht hbody
  · rw [failed] at hbody
    rw [runCommand_error (s := { s with stream := m }) hw ht hbody, raiseInExecution_set_stream]

end
end

section
/-!
PROOFS. The canonical code in closed form (41_huffman R140), and that no code is the leading part of another (R141).
-/

namespace Sys2Proof.Machine

/-! ## The code map, entry by entry -/

/-- The first code of length `len + n`, where `code` is the first of length `len` and `bs` are the counts from there
on: "`code = (code + BITS[i]) << 1`" (R140). -/
def firstCode (code : Nat) (bs : List Nat) (n : Nat) : Nat :=
  code * 2 ^ n + ∑ j ∈ Finset.range n, bs.getD j 0 * 2 ^ (n - j)

/-- The number of symbols before those of the `n`-th count. -/
def symbolsBefore (bs : List Nat) (n : Nat) : Nat := ∑ j ∈ Finset.range n, bs.getD j 0

@[simp] theorem firstCode_zero (code : Nat) (bs : List Nat) : firstCode code bs 0 = code := by
  simp [firstCode]

theorem firstCode_cons (code b : Nat) (bs : List Nat) (n : Nat) :
    firstCode code (b :: bs) (n + 1) = firstCode (2 * (code + b)) bs n := by
  simp only [firstCode, Finset.sum_range_succ', List.getD_cons_succ, List.getD_cons_zero, Nat.add_sub_add_right,
    Nat.sub_zero]
  ring

@[simp] theorem symbolsBefore_zero (bs : List Nat) : symbolsBefore bs 0 = 0 := rfl

theorem symbolsBefore_cons (b : Nat) (bs : List Nat) (n : Nat) :
    symbolsBefore (b :: bs) (n + 1) = b + symbolsBefore bs n := by
  simp only [symbolsBefore, Finset.sum_range_succ', List.getD_cons_succ, List.getD_cons_zero]
  ring

/-- The symbols of one length are as many as its count says, and no more than there are. -/
theorem mem_codesOfLength_take {len code b : Nat} {vals : List Byte} {x : HuffCode} :
    x ∈ codesOfLength len code (vals.take b) ↔
      x.len = len ∧ ∃ m < b, x.code = code + m ∧ vals[m]? = some x.sym := by
  simp only [mem_codesOfLength, List.getElem?_take]
  constructor
  · rintro ⟨hl, m, hc, hs⟩
    split_ifs at hs with hm
    exact ⟨hl, m, hm, hc, hs⟩
  · rintro ⟨hl, m, hm, hc, hs⟩
    exact ⟨hl, m, hc, by rw [if_pos hm, hs]⟩

/-- The codes that R140 assigns, in closed form. -/
theorem mem_assignCodes_iff {len code : Nat} {bs : List Nat} {vals : List Byte} {x : HuffCode} :
    x ∈ assignCodes len code bs vals ↔
      ∃ n < bs.length, x.len = len + n ∧ ∃ m < bs.getD n 0,
        x.code = firstCode code bs n + m ∧ vals[symbolsBefore bs n + m]? = some x.sym := by
  induction bs generalizing len code vals with
  | nil => simp [assignCodes]
  | cons b bs ih =>
    rw [assignCodes, List.mem_append, mem_codesOfLength_take, ih]
    constructor
    · rintro (⟨hl, m, hm, hc, hs⟩ | ⟨n, hn, hl, m, hm, hc, hs⟩)
      · exact ⟨0, by simp, hl, m, hm, by simpa using hc, by simpa using hs⟩
      · refine ⟨n + 1, by simpa using hn, by omega, m, hm, by rw [firstCode_cons, hc], ?_⟩
        rw [symbolsBefore_cons, Nat.add_assoc, ← List.getElem?_drop, hs]
    · rintro ⟨n, hn, hl, m, hm, hc, hs⟩
      cases n with
      | zero => exact .inl ⟨hl, m, hm, by simpa using hc, by simpa using hs⟩
      | succ n =>
        refine .inr ⟨n, by simpa using hn, by omega, m, hm, by rw [← firstCode_cons, hc], ?_⟩
        rw [List.getElem?_drop, ← Nat.add_assoc, ← symbolsBefore_cons, hs]

theorem HuffTable.counts_length (h : HuffTable) : h.counts.length = 16 := by
  simp [HuffTable.counts]

/-- `BITS[j + 1]` as a number. -/
theorem HuffTable.counts_getD (h : HuffTable) {j : Nat} (hj : j < 16) :
    h.counts.getD j 0 = (nth h.bits j).toNat := by
  rw [HuffTable.counts, List.getD_eq_getElem?_getD, List.getElem?_map, nth_getElem? h.bits hj]
  rfl

/-! ## No code is the leading part of another -/

/-- Every code from a length on continues one at or above the first code of that length. -/
theorem assignCodes_code_ge {len code : Nat} {bs : List Nat} {vals : List Byte} {x : HuffCode}
    (h : x ∈ assignCodes len code bs vals) : code * 2 ^ (x.len - len) ≤ x.code := by
  obtain ⟨n, -, hl, m, -, hc, -⟩ := mem_assignCodes_iff.1 h
  rw [hc, hl, Nat.add_sub_cancel_left, firstCode]
  omega

/-- The codes after those of length `len` lie above every continuation of one of length `len`. -/
theorem assignCodes_above {len code b : Nat} {bs : List Nat} {vals : List Byte} {y : HuffCode}
    (h : y ∈ assignCodes (len + 1) (2 * (code + b)) bs vals) : code + b ≤ y.code / 2 ^ (y.len - len) := by
  have hlen := assignCodes_len h
  rw [Nat.le_div_iff_mul_le (by positivity)]
  calc (code + b) * 2 ^ (y.len - len)
      = 2 * (code + b) * 2 ^ (y.len - (len + 1)) := by
        rw [show y.len - len = y.len - (len + 1) + 1 by omega, pow_succ]
        ring
    _ ≤ y.code := assignCodes_code_ge h

theorem assignCodes_no_leading_part {len code : Nat} {bs : List Nat} {vals : List Byte} {x y : HuffCode}
    (hx : x ∈ assignCodes len code bs vals) (hy : y ∈ assignCodes len code bs vals) (hl : x.len ≤ y.len)
    (hc : y.code / 2 ^ (y.len - x.len) = x.code) : x = y := by
  induction bs generalizing len code vals with
  | nil => simp [assignCodes] at hx
  | cons b bs ih =>
    have hx' := hx
    have hy' := hy
    rw [assignCodes, List.mem_append, mem_codesOfLength_take] at hx' hy'
    obtain ⟨hxl, m, hm, hxc, -⟩ | hxt := hx'
    · obtain ⟨hyl, -⟩ | hyt := hy'
      · refine assignCodes_functional hx hy (hxl.trans hyl.symm) ?_
        rw [← hc, hxl, hyl, Nat.sub_self, pow_zero, Nat.div_one]
      · have := assignCodes_above hyt
        rw [hxl] at hc
        omega
    · obtain ⟨hyl, -⟩ | hyt := hy'
      · have := assignCodes_len hxt
        omega
      · exact ih hxt hyt

end Sys2Proof.Machine

section
open Sys2Proof Sys2Proof.Machine

/-- Settles O38: the closed form of the assignment, from the code 0 of length 1 on. -/
theorem canonicalCodesAssigned : Obligations.CanonicalCodesAssigned := by
  intro h _ len code v
  have hcode (n : Nat) (hn : n ≤ 16) : firstCode 0 h.counts n
      = ∑ j ∈ Finset.range n, (nth h.bits j).toNat * 2 ^ (n - j) := by
    rw [firstCode, zero_mul, zero_add]
    exact Finset.sum_congr rfl fun j hj => by rw [h.counts_getD (by have := Finset.mem_range.1 hj; omega)]
  have hbefore (n : Nat) (hn : n ≤ 16) : symbolsBefore h.counts n
      = ∑ j ∈ Finset.range n, (nth h.bits j).toNat :=
    Finset.sum_congr rfl fun j hj => h.counts_getD (by have := Finset.mem_range.1 hj; omega)
  rw [HuffTable.codeMap, mem_assignCodes_iff, h.counts_length]
  constructor
  · rintro ⟨n, hn, hl, m, hm, hc, hs⟩
    obtain rfl : n = len - 1 := by simp only at hl; omega
    rw [h.counts_getD hn] at hm
    rw [hcode _ (by omega)] at hc
    rw [hbefore _ (by omega)] at hs
    exact ⟨by simp only at hl; omega, by omega, m, hm, hc, hs⟩
  · rintro ⟨h1, h2, m, hm, hc, hs⟩
    refine ⟨len - 1, by omega, by simp only; omega, m, ?_, ?_, ?_⟩
    · rwa [h.counts_getD (by omega)]
    · rwa [hcode _ (by omega)]
    · rwa [hbefore _ (by omega)]

/-- Settles O39: the codes of greater length lie above every continuation of a code. -/
theorem huffmanCodesPrefixFree : Obligations.HuffmanCodesPrefixFree :=
  fun _ _ hx _ hy hl hc => assignCodes_no_leading_part hx hy hl hc

end
end

section
/-!
PROOFS. The table loads: `HTLOAD` (41_huffman R140) and `QLOAD` (43_dequant_idct R190), where they complete, each cause
of their failure, and that a failed load leaves its slot invalid (60_exceptions R303 point 3).
-/

namespace Sys2Proof.Machine

/-! ## A failing load -/

/-- A failing command clears every valid bit of its write set. -/
theorem raiseInExecution_valid {i : Instr} {r : TableRef} (hw : i.wellFormed = true) (hm : .valid r ∈ writeSet i)
    (e : CmdError) (s : State) : (raiseInExecution i e s).valid r = false := by
  rw [raiseInExecution, recordError_valid]
  exact havoc_valid hm (writeSet_legal hw) s

/-- A command that needs no table, and whose own effect raises, fails with that error and clears the valid bits of its
write set. -/
theorem runCommand_load_fails {i : Instr} {body : State → Except CmdError State} {s : State} {e : CmdError}
    (hw : i.wellFormed = true) (hn : neededTables i = []) (he : s.err = false) (hb : body s = .error e) :
    ∃ t, runCommand i body s = .next t ∧ FailsWith i e s t ∧ ∀ r, .valid r ∈ writeSet i → t.valid r = false :=
  ⟨_, runCommand_error hw (by simp [hn]) hb, (raiseInExecution_spec hw e s).2.1 he,
    fun _ hm => raiseInExecution_valid hw hm e s⟩

/-! ## Bytes of a table body -/

theorem readBytes_some_iff {src : Source} {p n : Nat} {bs : List Byte} :
    readBytes src p n = some bs ↔ bs.length = n ∧ ∀ j < n, src (p + j) = bs[j]? := by
  induction n generalizing p bs with
  | zero => simp [readBytes, @eq_comm _ [] bs]
  | succ n ih =>
    rw [readBytes]
    constructor
    · intro h
      split at h
      · rename_i b cs hb hcs
        cases h
        obtain ⟨hl, hj⟩ := ih.1 hcs
        refine ⟨by simp [hl], fun j hjn => ?_⟩
        cases j with
        | zero => simpa using hb
        | succ j => rw [← Nat.add_assoc, Nat.add_right_comm, hj j (by omega), List.getElem?_cons_succ]
      · cases h
    · rintro ⟨hl, hj⟩
      cases bs with
      | nil => simp at hl
      | cons b cs =>
        have hb : src p = some b := by simpa using hj 0 (by omega)
        have hcs : readBytes src (p + 1) n = some cs := by
          refine ih.2 ⟨by simpa using hl, fun j hjn => ?_⟩
          rw [Nat.add_right_comm, Nat.add_assoc, hj (j + 1) (by omega), List.getElem?_cons_succ]
        simp [hb, hcs]

/-- A table body is cut short exactly where one of its bytes is `EOS`. -/
theorem readBytes_none_iff {src : Source} {p n : Nat} : readBytes src p n = none ↔ ∃ j < n, src (p + j) = none := by
  induction n generalizing p with
  | zero => simp [readBytes]
  | succ n ih =>
    have hsplit : (∃ j < n + 1, src (p + j) = none) ↔ src p = none ∨ ∃ j < n, src (p + 1 + j) = none := by
      rw [Nat.exists_lt_succ_left]
      simp [Nat.add_assoc, Nat.add_comm 1]
    rw [hsplit, ← ih, readBytes]
    cases src p <;> cases readBytes src (p + 1) n <;> simp

/-! ## The code space (41_huffman R140) -/

/-- The code space fits exactly if at each length the first code and the count stay within the codes of that length. -/
theorem codeSpaceFits_iff {len code : Nat} {bs : List Nat} :
    codeSpaceFits len code bs = true ↔ ∀ n < bs.length, firstCode code bs n + bs.getD n 0 ≤ 2 ^ (len + n) := by
  induction bs generalizing len code with
  | nil => simp [codeSpaceFits]
  | cons b bs ih =>
    rw [codeSpaceFits, Bool.and_eq_true, decide_eq_true_eq, ih, List.length_cons, Nat.forall_lt_succ_left]
    simp only [firstCode_zero, List.getD_cons_zero, Nat.add_zero, firstCode_cons, List.getD_cons_succ,
      Nat.add_assoc, Nat.add_comm 1]

/-- The codes used up to one length, as a sum over the counts. -/
theorem firstCode_add_count (bits : List Byte) (n : Nat) :
    firstCode 0 (bits.map BitVec.toNat) n + (bits.map BitVec.toNat).getD n 0
      = ∑ j ∈ Finset.range (n + 1), (bits.getD j 0).toNat * 2 ^ (n - j) := by
  have hget (j : Nat) : (bits.map BitVec.toNat).getD j 0 = (bits.getD j 0).toNat :=
    List.getD_map bits (0 : Byte) BitVec.toNat
  rw [Finset.sum_range_succ, firstCode, zero_mul, zero_add, hget, Nat.sub_self, pow_zero, mul_one]
  exact congrArg (· + _) (Finset.sum_congr rfl fun j _ => by rw [hget])

/-- The condition of R140 over the 16 lengths: no code that does not exist. -/
theorem codeSpaceFits_bits_iff {bits : List Byte} (hl : bits.length = 16) :
    codeSpaceFits 1 0 (bits.map BitVec.toNat) = true ↔
      ∀ len, 1 ≤ len → len ≤ 16 →
        ∑ j ∈ Finset.range len, (bits.getD j 0).toNat * 2 ^ (len - 1 - j) ≤ 2 ^ len := by
  rw [codeSpaceFits_iff, List.length_map, hl]
  constructor
  · intro h len h1 h2
    obtain ⟨n, rfl⟩ : ∃ n, len = n + 1 := ⟨len - 1, by omega⟩
    have := h n (by omega)
    rwa [firstCode_add_count, Nat.add_comm 1] at this
  · intro h n hn
    rw [firstCode_add_count, Nat.add_comm 1]
    exact h (n + 1) (by omega) (by omega)

/-! ## Reading a Huffman table -/

/-- The table of the counts `bits` and the symbols `vals`. -/
def huffTableOf (bits vals : List Byte) : HuffTable := ⟨tab fun l => bits.getD l 0, vals⟩

theorem huffTableOf_bits {bits : List Byte} (h : bits.length = 16) (vals : List Byte) :
    (huffTableOf bits vals).bits.toList = bits := by
  apply List.ext_getElem (by simp [h])
  intro j h1 h2
  simp only [huffTableOf, tab_toList, List.getElem_ofFn, List.getD_eq_getElem _ _ h2]

theorem huffTableOf_counts {bits : List Byte} (h : bits.length = 16) (vals : List Byte) :
    (huffTableOf bits vals).counts = bits.map BitVec.toNat := by
  rw [HuffTable.counts, huffTableOf_bits h]

section Read

variable {src : Source} {spec : Byte} {p : Nat} {bits vals : List Byte}

theorem readHuffTable_ok (hbits : readBytes src p 16 = some bits) (hsum : (bits.map BitVec.toNat).sum ≤ 256)
    (hvals : readBytes src (p + 16) (bits.map BitVec.toNat).sum = some vals)
    (hfits : codeSpaceFits 1 0 (bits.map BitVec.toNat) = true) :
    readHuffTable src spec p = .ok (huffTableOf bits vals) := by
  have hcounts := huffTableOf_counts (readBytes_some_iff.1 hbits).1 vals
  simp only [readHuffTable, hbits, gt_iff_lt, not_lt.2 hsum, if_false, hvals]
  exact if_pos (hcounts ▸ hfits)

theorem readHuffTable_noCounts (hbits : readBytes src p 16 = none) :
    readHuffTable src spec p = .error ⟨.streamEnd, BitVec.ofNat 32 p⟩ := by
  simp only [readHuffTable, hbits]

theorem readHuffTable_tooMany (hbits : readBytes src p 16 = some bits) (hsum : 256 < (bits.map BitVec.toNat).sum) :
    readHuffTable src spec p = .error ⟨.invalidHuffmanTable, spec.setWidth 32⟩ := by
  simp only [readHuffTable, hbits, gt_iff_lt, hsum, if_true]

theorem readHuffTable_noSymbols (hbits : readBytes src p 16 = some bits) (hsum : (bits.map BitVec.toNat).sum ≤ 256)
    (hvals : readBytes src (p + 16) (bits.map BitVec.toNat).sum = none) :
    readHuffTable src spec p = .error ⟨.streamEnd, BitVec.ofNat 32 p⟩ := by
  simp only [readHuffTable, hbits, gt_iff_lt, not_lt.2 hsum, if_false, hvals]

theorem readHuffTable_noCode (hbits : readBytes src p 16 = some bits) (hsum : (bits.map BitVec.toNat).sum ≤ 256)
    (hvals : readBytes src (p + 16) (bits.map BitVec.toNat).sum = some vals)
    (hfits : ¬ codeSpaceFits 1 0 (bits.map BitVec.toNat) = true) :
    readHuffTable src spec p = .error ⟨.invalidHuffmanTable, spec.setWidth 32⟩ := by
  have hcounts := huffTableOf_counts (readBytes_some_iff.1 hbits).1 vals
  simp only [readHuffTable, hbits, gt_iff_lt, not_lt.2 hsum, if_false, hvals]
  exact if_neg (hcounts ▸ hfits)

/-- A table is read only where none of the four causes of failure holds. -/
theorem readHuffTable_ok_inv {h : HuffTable} (hread : readHuffTable src spec p = .ok h) :
    ∃ bits vals, readBytes src p 16 = some bits ∧ (bits.map BitVec.toNat).sum ≤ 256 ∧
      readBytes src (p + 16) (bits.map BitVec.toNat).sum = some vals ∧
      codeSpaceFits 1 0 (bits.map BitVec.toNat) = true ∧ h = huffTableOf bits vals := by
  cases hbits : readBytes src p 16 with
  | none =>
    rw [readHuffTable_noCounts hbits] at hread
    cases hread
  | some bits =>
    by_cases hsum : (bits.map BitVec.toNat).sum ≤ 256
    · cases hvals : readBytes src (p + 16) (bits.map BitVec.toNat).sum with
      | none =>
        rw [readHuffTable_noSymbols hbits hsum hvals] at hread
        cases hread
      | some vals =>
        by_cases hfits : codeSpaceFits 1 0 (bits.map BitVec.toNat) = true
        · rw [readHuffTable_ok hbits hsum hvals hfits] at hread
          cases hread
          exact ⟨bits, vals, rfl, hsum, hvals, hfits, rfl⟩
        · rw [readHuffTable_noCode hbits hsum hvals hfits] at hread
          cases hread
    · rw [readHuffTable_tooMany hbits (not_le.1 hsum)] at hread
      cases hread

/-- A table that was read has as many symbols as its counts say, at most 256, and codes that exist (R140). -/
theorem readHuffTable_wf {h : HuffTable} (hread : readHuffTable src spec p = .ok h) : h.wf = true := by
  obtain ⟨bits, vals, hbits, hsum, hvals, hfits, rfl⟩ := readHuffTable_ok_inv hread
  have hcounts := huffTableOf_counts (readBytes_some_iff.1 hbits).1 vals
  simp only [HuffTable.wf, HuffTable.nval, hcounts, Bool.and_eq_true, decide_eq_true_eq]
  exact ⟨⟨(readBytes_some_iff.1 hvals).1, hsum⟩, hfits⟩

end Read

/-! ## `HTLOAD` -/

section Htload

variable {s : State} {spec : Byte}

theorem huffSpec_legal (hc : (hiNib spec).toNat ≤ 1) (hk : (loNib spec).toNat ≤ 3) :
    huffSpec spec = some (.huff (hiNib spec).toNat (loNib spec).toNat) :=
  if_pos ⟨hc, hk⟩

theorem huffSpec_illegal (h : 1 < (hiNib spec).toNat ∨ 3 < (loNib spec).toNat) : huffSpec spec = none :=
  if_neg (by omega)

/-- The write set of a load whose spec byte names a slot. -/
theorem writeSet_htload (hc : (hiNib spec).toNat ≤ 1) (hk : (loNib spec).toNat ≤ 3) :
    writeSet (.htload spec) = [.table (.huff (hiNib spec).toNat (loNib spec).toNat),
      .valid (.huff (hiNib spec).toNat (loNib spec).toNat), .tblptr] := by
  rw [writeSet, huffSpec_legal hc hk, loadSet]

/-- The state after table `h` was loaded for spec byte `spec`: the table, its valid bit and `TBLPTR`. -/
def huffLoaded (spec : Byte) (h : HuffTable) (s : State) : State :=
  { (s.setHt (hiNib spec).toNat (loNib spec).toNat h).setValid
      (.huff (hiNib spec).toNat (loNib spec).toNat) true with
    tblptr := BitVec.ofNat 32 (s.tblptr.toNat + 16 + h.nval) }

@[simp] theorem huffLoaded_tblptr (h : HuffTable) :
    (huffLoaded spec h s).tblptr = BitVec.ofNat 32 (s.tblptr.toNat + 16 + h.nval) := rfl

theorem huffLoaded_ht (hc : (hiNib spec).toNat ≤ 1) (hk : (loNib spec).toNat ≤ 3) (h : HuffTable) :
    (huffLoaded spec h s).ht (hiNib spec).toNat (loNib spec).toNat = h :=
  State.ht_setHt_same s (by omega) (by omega) h

theorem huffLoaded_valid (hc : (hiNib spec).toNat ≤ 1) (hk : (loNib spec).toNat ≤ 3) (h : HuffTable) :
    (huffLoaded spec h s).valid (.huff (hiNib spec).toNat (loNib spec).toNat) = true :=
  State.valid_setValid_same _ (by simp [TableRef.legal]; omega) true

theorem htloadBody_legal (hc : (hiNib spec).toNat ≤ 1) (hk : (loNib spec).toNat ≤ 3) :
    htloadBody spec s = (readHuffTable s.streamByte spec s.tblptr.toNat).map fun h => huffLoaded spec h s := by
  simp only [htloadBody, huffSpec_legal hc hk]
  cases readHuffTable s.streamByte spec s.tblptr.toNat <;> rfl

theorem htloadBody_illegal (h : 1 < (hiNib spec).toNat ∨ 3 < (loNib spec).toNat) :
    htloadBody spec s = .error ⟨.invalidHuffmanTable, spec.setWidth 32⟩ := by
  simp only [htloadBody, huffSpec_illegal h]

/-- A legal slot is invalid after a load that cannot read its table. -/
theorem exec_htload_fails (he : s.err = false) (hc : (hiNib spec).toNat ≤ 1) (hk : (loNib spec).toNat ≤ 3)
    {e : CmdError} (hread : readHuffTable s.streamByte spec s.tblptr.toNat = .error e) :
    ∃ t, exec (.htload spec) s = .next t ∧ FailsWith (.htload spec) e s t ∧
      t.valid (.huff (hiNib spec).toNat (loNib spec).toNat) = false := by
  have hbody : htloadBody spec s = .error e := by rw [htloadBody_legal hc hk, hread]; rfl
  obtain ⟨t, hnext, hfails, hvalid⟩ := runCommand_load_fails (i := .htload spec) rfl rfl he hbody
  exact ⟨t, hnext, hfails, hvalid _ (by rw [writeSet_htload hc hk]; simp)⟩

end Htload

/-! ## `QLOAD` -/

section Qload

variable {src : Source} {s : State} {spec : Byte} {pq p : Nat}

theorem quantEntries_some_iff {n j : Nat} {vs : List Half} :
    quantEntries src pq p n j = some vs ↔ vs.length = n ∧ ∀ i < n, quantEntry src pq p (j + i) = vs[i]? := by
  induction n generalizing j vs with
  | zero => simp [quantEntries, @eq_comm _ [] vs]
  | succ n ih =>
    rw [quantEntries]
    constructor
    · intro h
      split at h
      · rename_i v ws hv hws
        cases h
        obtain ⟨hl, hi⟩ := ih.1 hws
        refine ⟨by simp [hl], fun i hin => ?_⟩
        cases i with
        | zero => simpa using hv
        | succ i => rw [← Nat.add_assoc, Nat.add_right_comm, hi i (by omega), List.getElem?_cons_succ]
      · cases h
    · rintro ⟨hl, hi⟩
      cases vs with
      | nil => simp at hl
      | cons v ws =>
        have hv : quantEntry src pq p j = some v := by simpa using hi 0 (by omega)
        have hws : quantEntries src pq p n (j + 1) = some ws := by
          refine ih.2 ⟨by simpa using hl, fun i hin => ?_⟩
          rw [Nat.add_right_comm, Nat.add_assoc, hi (i + 1) (by omega), List.getElem?_cons_succ]
        simp [hv, hws]

/-- The entries cannot be read exactly where one of them cannot. -/
theorem quantEntries_none_iff {n j : Nat} :
    quantEntries src pq p n j = none ↔ ∃ i < n, quantEntry src pq p (j + i) = none := by
  induction n generalizing j with
  | zero => simp [quantEntries]
  | succ n ih =>
    have hsplit : (∃ i < n + 1, quantEntry src pq p (j + i) = none) ↔
        quantEntry src pq p j = none ∨ ∃ i < n, quantEntry src pq p (j + 1 + i) = none := by
      rw [Nat.exists_lt_succ_left]
      simp [Nat.add_assoc, Nat.add_comm 1]
    rw [hsplit, ← ih, quantEntries]
    cases quantEntry src pq p j <;> cases quantEntries src pq p n (j + 1) <;> simp

theorem bigEndian16_none {src : Nat → Option Byte} {o : Nat} (h : src o = none ∨ src (o + 1) = none) :
    bigEndian16 src o = none := by
  rw [bigEndian16]
  split
  · rename_i hi lo hhi hlo
    simp [hhi, hlo] at h
  · rfl

/-- A body with a byte at or past the end of the stream has an entry that cannot be read. -/
theorem quantEntry_none_of_byte (hpq : pq ≤ 1) {j : Nat} (hj : j < 64 * (pq + 1)) (h : src (p + j) = none) :
    ∃ i < 64, quantEntry src pq p i = none := by
  obtain rfl | rfl : pq = 0 ∨ pq = 1 := by omega
  · exact ⟨j, by omega, by simp [quantEntry, h]⟩
  · refine ⟨j / 2, by omega, ?_⟩
    rw [quantEntry, if_neg one_ne_zero, bigEndian16_none, Option.map_none]
    obtain hp | hp : p + j = p + 2 * (j / 2) ∨ p + j = p + 2 * (j / 2) + 1 := by omega
    · exact .inl (hp ▸ h)
    · exact .inr (hp ▸ h)

theorem quantSpec_legal (hk : (loNib spec).toNat ≤ 3) : quantSpec spec = some (.quant (loNib spec).toNat) :=
  if_pos hk

theorem writeSet_qload (hk : (loNib spec).toNat ≤ 3) :
    writeSet (.qload spec)
      = [.table (.quant (loNib spec).toNat), .valid (.quant (loNib spec).toNat), .tblptr] := by
  rw [writeSet, quantSpec_legal hk, loadSet]

/-- The state after the entries `vs` were loaded for spec byte `spec`: the table, its valid bit and `TBLPTR`. -/
def quantLoaded (spec : Byte) (vs : List Half) (s : State) : State :=
  { (s.setQt (loNib spec).toNat (tab fun i => vs.getD (zzi i) 0)).setValid (.quant (loNib spec).toNat) true with
    tblptr := BitVec.ofNat 32 (s.tblptr.toNat + 64 * ((hiNib spec).toNat + 1)) }

theorem quantLoaded_qt (hk : (loNib spec).toNat ≤ 3) (vs : List Half) {j : Nat} (hj : j < 64) :
    nth ((quantLoaded spec vs s).qt (loNib spec).toNat) (zz j) = vs.getD j 0 := by
  have hqt : (quantLoaded spec vs s).qt (loNib spec).toNat = tab fun i => vs.getD (zzi i) 0 :=
    State.qt_setQt_same s (by omega) _
  rw [hqt, nth_tab _ (zz_lt j hj), zzi_zz j hj]

theorem quantLoaded_valid (hk : (loNib spec).toNat ≤ 3) (vs : List Half) :
    (quantLoaded spec vs s).valid (.quant (loNib spec).toNat) = true :=
  State.valid_setValid_same _ (by simp [TableRef.legal]; omega) true

theorem qloadBody_ok (hpq : (hiNib spec).toNat ≤ 1) (hk : (loNib spec).toNat ≤ 3) {vs : List Half}
    (h : quantEntries s.streamByte (hiNib spec).toNat s.tblptr.toNat 64 0 = some vs) :
    qloadBody spec s = .ok (quantLoaded spec vs s) := by
  simp only [qloadBody, quantSpec_legal hk, show ¬ (hiNib spec).toNat > 1 by omega, if_false, h]
  rfl

theorem qloadBody_streamEnd (hpq : (hiNib spec).toNat ≤ 1) (hk : (loNib spec).toNat ≤ 3)
    (h : quantEntries s.streamByte (hiNib spec).toNat s.tblptr.toNat 64 0 = none) :
    qloadBody spec s = .error ⟨.streamEnd, s.tblptr⟩ := by
  simp only [qloadBody, quantSpec_legal hk, show ¬ (hiNib spec).toNat > 1 by omega, if_false, h]

theorem qloadBody_illegal (h : 1 < (hiNib spec).toNat ∨ 3 < (loNib spec).toNat) :
    qloadBody spec s = .error ⟨.invalidQuantSpec, spec.setWidth 32⟩ := by
  by_cases hk : (loNib spec).toNat ≤ 3
  · simp only [qloadBody, quantSpec_legal hk, show (hiNib spec).toNat > 1 by omega, if_true]
  · simp only [qloadBody, quantSpec, hk, if_false]

/-- A legal slot is invalid after a load whose body raises. -/
theorem exec_qload_fails (he : s.err = false) {e : CmdError} (hbody : qloadBody spec s = .error e) :
    ∃ t, exec (.qload spec) s = .next t ∧ FailsWith (.qload spec) e s t ∧
      ((loNib spec).toNat ≤ 3 → t.valid (.quant (loNib spec).toNat) = false) := by
  obtain ⟨t, hnext, hfails, hvalid⟩ := runCommand_load_fails (i := .qload spec) rfl rfl he hbody
  exact ⟨t, hnext, hfails, fun hk => hvalid _ (by rw [writeSet_qload hk]; simp)⟩

end Qload

end Sys2Proof.Machine

section
open Sys2Proof Sys2Proof.Machine

/-- Settles O40: the counts and the symbols are read, the code space fits, and the load's effect is `huffLoaded`. -/
theorem htloadLoadsTable : Obligations.HtloadLoadsTable := by
  intro s spec bits vals hc hk hlen hvlen hsum hfits hbits hvals
  have hread : readHuffTable s.streamByte spec s.tblptr.toNat = .ok (huffTableOf bits vals) :=
    readHuffTable_ok (readBytes_some_iff.2 ⟨hlen, hbits⟩) (hvlen ▸ hsum)
      (hvlen ▸ readBytes_some_iff.2 ⟨rfl, hvals⟩) ((codeSpaceFits_bits_iff hlen).2 hfits)
  have hbody : htloadBody spec s = .ok (huffLoaded spec (huffTableOf bits vals) s) := by
    rw [htloadBody_legal hc hk, hread]
    rfl
  have hnval : (huffTableOf bits vals).nval = vals.length := by
    rw [HuffTable.nval, huffTableOf_counts hlen, hvlen]
  have hclean := htload_keeps spec s _ hbody
  rw [writeSet_htload hc hk] at hclean
  refine ⟨_, runCommand_ok_of_noTable (i := .htload spec) rfl rfl hbody, ?_, ?_,
    huffLoaded_valid hc hk _, by rw [huffLoaded_tblptr, hnval], hclean⟩
  · rw [huffLoaded_ht hc hk, huffTableOf_bits hlen]
  · rw [huffLoaded_ht hc hk, huffTableOf]

/-- Settles O41: the spec byte is checked first, then the counts, their sum, the symbols and the code space. -/
theorem htloadFails : Obligations.HtloadFails := by
  intro s spec bits he
  refine ⟨fun hill => ?_, fun hc hk => ⟨fun hcut => ?_, fun hlen hbits => ?_⟩⟩
  · exact runCommand_fails_of_noTable (i := .htload spec) rfl rfl he (htloadBody_illegal hill)
  · refine exec_htload_fails he hc hk ?_
    rw [readHuffTable_noCounts (readBytes_none_iff.2 hcut), BitVec.ofNat_toNat, BitVec.setWidth_eq]
  · have hcounts := readBytes_some_iff.2 ⟨hlen, hbits⟩
    refine ⟨fun hsum => ?_, fun hsum hcut => ?_, fun hsum hall hcode => ?_⟩
    · exact exec_htload_fails he hc hk (readHuffTable_tooMany hcounts hsum)
    · refine exec_htload_fails he hc hk ?_
      rw [readHuffTable_noSymbols hcounts hsum (readBytes_none_iff.2 hcut), BitVec.ofNat_toNat, BitVec.setWidth_eq]
    · obtain ⟨vals, hvals⟩ : ∃ vals, readBytes s.streamByte (s.tblptr.toNat + 16) (bits.map BitVec.toNat).sum
          = some vals := by
        refine Option.ne_none_iff_exists'.1 fun hnone => ?_
        obtain ⟨j, hj, hend⟩ := readBytes_none_iff.1 hnone
        exact hall j hj hend
      refine exec_htload_fails he hc hk (readHuffTable_noCode hcounts hsum hvals fun hfits => ?_)
      obtain ⟨len, h1, h2, hover⟩ := hcode
      exact absurd ((codeSpaceFits_bits_iff hlen).1 hfits len h1 h2) (not_le.2 hover)

/-- Settles O48: every entry can be read, and entry `j` is deposited where `ZZI` takes it from. -/
theorem qloadLoadsTable : Obligations.QloadLoadsTable := by
  intro s spec vs hpq hk _ hentries
  -- each entry of the body, as the 16-bit pattern whose number the list holds
  have hentry : ∀ j < 64, ∃ v : Half,
      quantEntry s.streamByte (hiNib spec).toNat s.tblptr.toNat j = some v ∧ vs[j]? = some v.toNat := by
    intro j hj
    have hj := hentries j hj
    split_ifs at hj with h0
    · cases hb : s.streamByte (s.tblptr.toNat + j) with
      | none => simp_all
      | some b =>
        rw [hb] at hj
        exact ⟨b.setWidth 16, by simp [quantEntry, h0, hb], by rw [← hj]; simp; omega⟩
    · obtain ⟨hi, lo, hhi, hlo, hv⟩ := hj
      have h1 : (hiNib spec).toNat ≠ 0 := fun h => h0 (BitVec.eq_of_toNat_eq h)
      refine ⟨BitVec.ofNat 16 (256 * hi.toNat + lo.toNat), by simp [quantEntry, h1, bigEndian16, hhi, hlo], ?_⟩
      rw [hv, BitVec.toNat_ofNat, Nat.mod_eq_of_lt (by omega)]
  obtain ⟨ws, hws⟩ : ∃ ws, quantEntries s.streamByte (hiNib spec).toNat s.tblptr.toNat 64 0 = some ws := by
    refine Option.ne_none_iff_exists'.1 fun hnone => ?_
    obtain ⟨j, hj, hend⟩ := quantEntries_none_iff.1 hnone
    obtain ⟨v, hv, -⟩ := hentry j hj
    rw [Nat.zero_add, hv] at hend
    cases hend
  have hbody := qloadBody_ok hpq hk hws
  have hclean := qload_keeps spec s _ hbody
  rw [writeSet_qload hk] at hclean
  refine ⟨_, runCommand_ok_of_noTable (i := .qload spec) rfl rfl hbody, fun j hj => ?_,
    quantLoaded_valid hk _, rfl, hclean⟩
  obtain ⟨v, hv, hvs⟩ := hentry j hj
  have hget := (quantEntries_some_iff.1 hws).2 j hj
  rw [Nat.zero_add, hv] at hget
  rw [quantLoaded_qt hk _ hj, List.getD_eq_getElem?_getD, ← hget, List.getD_eq_getElem?_getD, hvs]
  rfl

/-- Settles O49: the spec byte is checked first, then the entries are read. -/
theorem qloadFails : Obligations.QloadFails := by
  intro s spec he
  refine ⟨fun hill => exec_qload_fails he (qloadBody_illegal hill), fun hpq hk hcut => ?_⟩
  obtain ⟨j, hj, hend⟩ := hcut
  obtain ⟨i, hi, hnone⟩ := quantEntry_none_of_byte hpq hj hend
  have hbody := qloadBody_streamEnd hpq hk (quantEntries_none_iff.2 ⟨i, hi, by rwa [Nat.zero_add]⟩)
  obtain ⟨t, hnext, hfails, hvalid⟩ := exec_qload_fails he hbody
  exact ⟨t, hnext, hfails, hvalid hk⟩

end
end

section
/-!
PROOFS. The bit reader's commands (40_bitreader R120 to R127): each branch of the bit-fetch primitive, and what
`READBIT`, `RECEIVE`, `RECEIVEX` and `RSTSYNC` make of it.
-/

namespace Sys2Proof.Machine

/-! ## The branches of `FetchBit` (R120) -/

section Fetch

variable {src : Source} {r : BitReader} {b n : Byte}

theorem fetchBit_stored (h : r.bcount ≠ 0) :
    fetchBit src r = .bit (r.bdata.getLsbD (r.bcount.toNat - 1)) ⟨r.offset, r.bdata, r.bcount - 1⟩ := by
  have hpos : r.bcount.toNat > 0 := Nat.pos_of_ne_zero fun h0 => h (BitVec.eq_of_toNat_eq h0)
  simp only [fetchBit, hpos, if_true]

section Refill

variable (h : r.bcount = 0)
include h

/-- With no bit left the fetch goes to the stream. -/
theorem not_bcount_pos : ¬ r.bcount.toNat > 0 := by
  rw [h]
  decide

theorem fetchBit_byte (hb : src r.offset.toNat = some b) (hff : b ≠ 0xFF) :
    fetchBit src r = .bit (b.getLsbD 7) ⟨r.offset + 1, b, 7⟩ := by
  simp only [fetchBit, not_bcount_pos h, if_false, hb, hff]
  rfl

theorem fetchBit_end (hb : src r.offset.toNat = none) :
    fetchBit src r = .raised ⟨.invalidHuffmanSequence, r.offset⟩ := by
  simp only [fetchBit, not_bcount_pos h, if_false, hb, outOfBits]

variable (hb : src r.offset.toNat = some 0xFF)
include hb

theorem fetchBit_lone (hn : src (r.offset.toNat + 1) = none) :
    fetchBit src r = .raised ⟨.invalidHuffmanSequence, r.offset⟩ := by
  simp only [fetchBit, not_bcount_pos h, if_false, if_true, hb, hn, outOfBits]

theorem fetchBit_stuffed (hn : src (r.offset.toNat + 1) = some 0) :
    fetchBit src r = .bit true ⟨r.offset + 2, 0xFF, 7⟩ := by
  simp only [fetchBit, not_bcount_pos h, if_false, if_true, hb, hn]
  rfl

theorem fetchBit_rst (hn : src (r.offset.toNat + 1) = some n) (hrst : 0xD0 ≤ n.toNat ∧ n.toNat ≤ 0xD7) :
    fetchBit src r = .noBit (marker n) := by
  have h0 : n ≠ 0 := by
    rintro rfl
    exact absurd hrst.1 (by decide)
  have hr : isRst n = true := decide_eq_true hrst
  simp only [fetchBit, not_bcount_pos h, if_false, if_true, hb, hn, h0, hr]

theorem fetchBit_marker (hn : src (r.offset.toNat + 1) = some n) (h0 : n ≠ 0)
    (hrst : ¬ (0xD0 ≤ n.toNat ∧ n.toNat ≤ 0xD7)) : fetchBit src r = .raised ⟨.unexpectedMarker, marker n⟩ := by
  have hr : isRst n = false := decide_eq_false hrst
  simp only [fetchBit, not_bcount_pos h, if_false, if_true, hb, hn, h0, hr, Bool.false_eq_true]

end Refill

end Fetch

/-! ## `READBIT` (R121) -/

section Readbit

variable {s : State}

theorem exec_readbit_bit {b : Bool} {r : BitReader} (h : fetchBit s.streamByte s.br = .bit b r) :
    exec .readbit s = .next { s with br := r, result := if b then 1 else 0, nobit := false } := by
  have hresult : BitVec.ofNat 32 b.toNat = if b then 1 else 0 := by cases b <;> rfl
  refine runCommand_ok_of_noTable (i := .readbit) rfl rfl ?_
  simp only [readbitBody, h, hresult, State.setNobit]

theorem exec_readbit_noBit {m : Word} (h : fetchBit s.streamByte s.br = .noBit m) :
    exec .readbit s = .next { s with result := 0x80000000 + m, nobit := true } := by
  refine runCommand_ok_of_noTable (i := .readbit) rfl rfl ?_
  simp only [readbitBody, h, State.setNobit]

theorem exec_readbit_raised {e : CmdError} (he : s.err = false) (h : fetchBit s.streamByte s.br = .raised e) :
    ∃ t, exec .readbit s = .next t ∧ FailsWith .readbit e s t := by
  refine runCommand_fails_of_noTable (i := .readbit) rfl rfl he ?_
  simp only [readbitBody, h]

end Readbit

/-! ## `RECEIVE` and `RECEIVEX` (R122, R123) -/

/-- A magnitude code by its first bit: a 1 leaves the value, a 0 means a negative number. -/
theorem magnitude_by_first_bit (bs : List Bool) :
    magnitude bs.length (bitsValue bs) = match bs with
      | [] => 0
      | true :: _ => bitsValue bs
      | false :: _ => (bitsValue bs : Int) - 2 ^ bs.length + 1 := by
  cases bs with
  | nil => rfl
  | cons b bs =>
    have hlt := bitsValue_lt bs
    rw [magnitude, if_neg (by simp), List.length_cons, Nat.add_sub_cancel, bitsValue_cons]
    cases b with
    | true => exact if_neg (by simp)
    | false => exact if_pos (by simpa using hlt)

/-! ## `RSTSYNC` (R127) -/

section Rstsync

variable {s : State} {b : Byte}

/-- At `0xFF` and a byte the two form the marker's number. -/
theorem bigEndian16_marker {src : Nat → Option Byte} {o : Nat} (hff : src o = some 0xFF) (hb : src (o + 1) = some b) :
    bigEndian16 src o = some (0xFF00 + b.toNat) := by
  simp [bigEndian16, hff, hb]

variable (hff : s.streamByte s.br.offset.toNat = some 0xFF) (hb : s.streamByte (s.br.offset.toNat + 1) = some b)
include hff hb

/-- An RSTn is reported, and the cursor moves past it. -/
theorem rstsyncBody_rst (hrst : 0xD0 ≤ b.toNat ∧ b.toNat ≤ 0xD7) :
    rstsyncBody s = .ok { clearScan s with
      br := ⟨s.br.offset + 2, s.br.bdata, 0⟩, result := BitVec.ofNat 32 (0xFF00 + b.toNat), mstop := false } := by
  have hm : bigEndian16 (clearScan s).streamByte s.br.offset.toNat = some (0xFF00 + b.toNat) :=
    bigEndian16_marker hff hb
  simp only [rstsyncBody, clearScan_br, hm, if_neg (show ¬ 0xFF00 + b.toNat < 0xFF00 by omega),
    if_pos (show 0xFFD0 ≤ 0xFF00 + b.toNat ∧ 0xFF00 + b.toNat ≤ 0xFFD7 by omega), State.setMstop]

/-- Any other marker is reported and left in place. -/
theorem rstsyncBody_other (hrst : ¬ (0xD0 ≤ b.toNat ∧ b.toNat ≤ 0xD7)) :
    rstsyncBody s = .ok { clearScan s with result := BitVec.ofNat 32 (0xFF00 + b.toNat), mstop := true } := by
  have hm : bigEndian16 (clearScan s).streamByte s.br.offset.toNat = some (0xFF00 + b.toNat) :=
    bigEndian16_marker hff hb
  simp only [rstsyncBody, clearScan_br, hm, if_neg (show ¬ 0xFF00 + b.toNat < 0xFF00 by omega),
    if_neg (show ¬ (0xFFD0 ≤ 0xFF00 + b.toNat ∧ 0xFF00 + b.toNat ≤ 0xFFD7) by omega), State.setMstop]

end Rstsync

/-- Where no two bytes remain, or they form a number below `0xFF00`, no marker stands. -/
theorem rstsyncBody_noMarker {s : State}
    (h : ∀ m, bigEndian16 s.streamByte s.br.offset.toNat = some m → m < 0xFF00) :
    rstsyncBody s = .error ⟨.markerNotFound, s.br.offset⟩ := by
  have hclear : bigEndian16 (clearScan s).streamByte (clearScan s).br.offset.toNat
      = bigEndian16 s.streamByte s.br.offset.toNat := rfl
  simp only [rstsyncBody, hclear]
  cases hm : bigEndian16 s.streamByte s.br.offset.toNat with
  | none => rfl
  | some m => exact if_pos (h m hm)

end Sys2Proof.Machine

section
open Sys2Proof Sys2Proof.Machine

/-- Settles O30: the four branches of the fetch in which `READBIT` completes. -/
theorem readbitReturnsBitOrMarker : Obligations.ReadbitReturnsBitOrMarker := by
  intro s b n
  refine ⟨fun h => ?stored, fun h hb hff => ?byte, fun h hb hn => ?stuffed, fun h hb hn h1 h2 => ?rst⟩
  case stored => exact exec_readbit_bit (fetchBit_stored h)
  case byte => exact exec_readbit_bit (fetchBit_byte h hb hff)
  case stuffed => exact exec_readbit_bit (fetchBit_stuffed h hb hn)
  case rst =>
    rw [exec_readbit_noBit (fetchBit_rst h hb hn ⟨h1, h2⟩), Nat.add_assoc, BitVec.ofNat_add]
    rfl

/-- Settles O31: the three branches of the fetch that raise. -/
theorem readbitFailsAtEndOrMarker : Obligations.ReadbitFailsAtEndOrMarker :=
  fun _ _ h he => ⟨fun hb => exec_readbit_raised he (fetchBit_end h hb),
    fun hb hn => exec_readbit_raised he (fetchBit_lone h hb hn),
    fun hb hn h0 hrst => exec_readbit_raised he (fetchBit_marker h hb hn h0 hrst)⟩

/-- Settles O32: `RECV` answers where the bits can be read. -/
theorem receiveReturnsBits : Obligations.ReceiveReturnsBits := by
  intro s n bs r hn hbits hlen
  have hrecv := recv_ok_iff.2 (⟨bs, hlen, hbits, rfl⟩ : NumberRead s.streamByte n.toNat s.br (bitsValue bs) r)
  refine runCommand_ok_of_noTable ((receive_wellFormed_iff n).2 hn) rfl ?_
  simp only [receiveBody, hrecv]

/-- Settles O33: `Extend` answers where the bits can be read, and the magnitude's sign is its first bit. -/
theorem receivexReturnsMagnitude : Obligations.ReceivexReturnsMagnitude := by
  intro s n bs r hn hbits hlen
  have hextend : extend s.streamByte n.toNat s.br = .ok (magnitude n.toNat (bitsValue bs), r) :=
    extend_ok_iff.2 ⟨bitsValue bs, ⟨bs, hlen, hbits, rfl⟩, rfl⟩
  have hbody : receivexBody n s
      = .ok { s with br := r, result := toWord (magnitude bs.length (bitsValue bs)) } := by
    simp only [receivexBody, hextend, toWord_wrap32, hlen]
  rw [exec_receivex, runCommand_ok_of_noTable ((receivex_wellFormed_iff n).2 hn) rfl hbody,
    magnitude_by_first_bit]
  cases bs with
  | nil => rfl
  | cons b bs => cases b <;> rfl

/-- Settles O34: both commands raise the error that `RECV` raises. -/
theorem receiveFailsWithoutBits : Obligations.ReceiveFailsWithoutBits := by
  intro s n e hn he hfail
  constructor
  · refine runCommand_fails_of_noTable ((receive_wellFormed_iff n).2 hn) rfl he ?_
    simp only [receiveBody, recv_error_iff.2 hfail]
  · refine runCommand_fails_of_noTable ((receivex_wellFormed_iff n).2 hn) rfl he ?_
    simp only [receivexBody, extend_error_iff.2 hfail]

/-- Settles O36: the scan state is cleared, and the two cases differ in the cursor and `MSTOP`. -/
theorem rstsyncReportsMarker : Obligations.RstsyncReportsMarker := by
  intro s b hff hb
  by_cases hrst : 0xD0 ≤ b.toNat ∧ b.toNat ≤ 0xD7
  · exact ⟨_, runCommand_ok_of_noTable (i := .rstsync) rfl rfl (rstsyncBody_rst hff hb hrst), rfl,
      fun i hi => clearScan_predAt s hi, rfl, rfl, rfl, rfl, fun _ => ⟨rfl, rfl⟩, fun h => absurd hrst h, rfl⟩
  · exact ⟨_, runCommand_ok_of_noTable (i := .rstsync) rfl rfl (rstsyncBody_other hff hb hrst), rfl,
      fun i hi => clearScan_predAt s hi, rfl, rfl, rfl, rfl, fun h => absurd h hrst, fun _ => ⟨rfl, rfl⟩, rfl⟩

/-- Settles O37: in each of the three cases no number of `0xFF00` or above stands at the cursor. -/
theorem rstsyncFailsWithoutMarker : Obligations.RstsyncFailsWithoutMarker := by
  intro s a b he h
  refine runCommand_fails_of_noTable (i := .rstsync) rfl rfl he (rstsyncBody_noMarker fun m hm => ?_)
  obtain hend | hend | ⟨ha, hb, hlow⟩ := h
  · rw [bigEndian16_none (.inl hend)] at hm
    cases hm
  · rw [bigEndian16_none (.inr hend)] at hm
    cases hm
  · simp only [bigEndian16, ha, hb, Option.some.injEq] at hm
    omega

end
end

section
/-!
PROOFS. The commands that decode symbols: `HDEC` (41_huffman R142) and the block decode commands (42_block_decode R161
to R167). Each completes where the rules' own account of the stream does, and fails with its first error.
-/

namespace Sys2Proof.Machine

theorem CleanOutside.mono {ws vs : List Loc} {s t : State} (h : CleanOutside ws s t) (hs : ws ⊆ vs) :
    CleanOutside vs s t :=
  ⟨h.1.mono hs, h.2⟩

/-- One less on the 32-bit pattern is one less, wrapped. -/
theorem signed_sub_one (w : Word) : signed (w - 1) = wrap32 (signed w - 1) := by
  have h : w - 1 = toWord (signed w - 1) := by
    apply BitVec.eq_of_toInt_eq
    simp [toWord, signed, BitVec.toInt_sub, BitVec.toInt_ofInt]
  rw [h, signed_toWord]

theorem signed_range (w : Word) : -2 ^ 31 ≤ signed w ∧ signed w < 2 ^ 31 :=
  ⟨BitVec.le_toInt w, BitVec.toInt_lt⟩

/-- Setting bit `n` of a lane where a bit is 1 (42_block_decode R163). -/
theorem getLsbD_or_bit (w : Word) (b : Bool) (n : Nat) {j : Nat} (hj : j < 32) :
    (w ||| BitVec.ofNat 32 (b.toNat * 2 ^ n)).getLsbD j = (w.getLsbD j || (b && decide (j = n))) := by
  rw [BitVec.getLsbD_or, BitVec.getLsbD_ofNat]
  cases b <;> simp [hj, Nat.testBit_two_pow, eq_comm]

variable {s : State} {e : CmdError}

/-! ## The bodies, by what their parts answer -/

theorem decbaseBody_ok {d t u : Nib} {p : Byte} {x : Int} {r1 r2 : BitReader} {blk : Block}
    (hdc : DcRead s.streamByte (s.codeMap 0 t.toNat) s.br x r1)
    (hac : BaseRun s.streamByte (s.codeMap 1 u.toNat) 1
      (setLane (s.buf d.toNat) 0 (predicted s p.toNat x)) r1 (.ok (blk, r2))) :
    decbaseBody d t u p s
      = .ok { (s.setPred p.toNat (predicted s p.toNat x)).setBuf d.toNat blk with br := r2 } := by
  simp only [decbaseBody, decodeDc_ok (codeMap_functional s 0 t.toNat) hdc,
    baseAc_run (codeMap_functional s 1 u.toNat) hac 64 (by omega)]

theorem decbaseBody_dcFails {d t u : Nib} {p : Byte} (hdc : DcFails s.streamByte (s.codeMap 0 t.toNat) s.br e) :
    decbaseBody d t u p s = .error e := by
  simp only [decbaseBody, decodeDc_error (codeMap_functional s 0 t.toNat) hdc]

theorem decbaseBody_acFails {d t u : Nib} {p : Byte} {x : Int} {r1 : BitReader}
    (hdc : DcRead s.streamByte (s.codeMap 0 t.toNat) s.br x r1)
    (hac : BaseRun s.streamByte (s.codeMap 1 u.toNat) 1
      (setLane (s.buf d.toNat) 0 (predicted s p.toNat x)) r1 (.error e)) :
    decbaseBody d t u p s = .error e := by
  simp only [decbaseBody, decodeDc_ok (codeMap_functional s 0 t.toNat) hdc,
    baseAc_run (codeMap_functional s 1 u.toNat) hac 64 (by omega)]

theorem dcfirstBody_ok {d t : Nib} {p : Byte} {x : Int} {r : BitReader}
    (hdc : DcRead s.streamByte (s.codeMap 0 t.toNat) s.br x r) :
    dcfirstBody d t p s = .ok { (s.setPred p.toNat (predicted s p.toNat (shl32 x s.scan.al.toNat))).setBuf d.toNat
      (setLane (s.buf d.toNat) 0 (predicted s p.toNat (shl32 x s.scan.al.toNat))) with br := r } := by
  simp only [dcfirstBody, decodeDc_ok (codeMap_functional s 0 t.toNat) hdc]

theorem dcfirstBody_dcFails {d t : Nib} {p : Byte} (hdc : DcFails s.streamByte (s.codeMap 0 t.toNat) s.br e) :
    dcfirstBody d t p s = .error e := by
  simp only [dcfirstBody, decodeDc_error (codeMap_functional s 0 t.toNat) hdc]

theorem acfirstBody_band {d u : Nib} (hrun : signed s.eobrun ≤ 0) {o : Except CmdError (Block × Word × BitReader)}
    (hband : FirstRun s.streamByte (s.codeMap 1 u.toNat) s.scan.al.toNat s.scan.se.toNat s.scan.ss.toNat
      (s.buf d.toNat) s.eobrun s.br o) :
    acfirstBody d u s = o.map fun x => { s.setBuf d.toNat x.1 with eobrun := x.2.1, br := x.2.2 } := by
  have hse := s.scan.se.isLt
  have hloop := firstAc_run (codeMap_functional s 1 u.toNat) hband 64 (by omega)
  simp only [acfirstBody, if_neg (not_lt.2 hrun), hloop]
  cases o <;> rfl

theorem acsuccBody_band {d u : Nib} {o : Except CmdError AcRun}
    (hband : SuccRun s.streamByte (s.codeMap 1 u.toNat) s.scan.al.toNat s.scan.se.toNat s.scan.ss.toNat
      ⟨s.buf d.toNat, s.eobrun, s.ac, 0, s.br⟩ o) :
    acsuccBody d u s = o.map fun a =>
      { s.setBuf d.toNat (acEnd a).blk with eobrun := (acEnd a).eob, ac := (acEnd a).ac, br := (acEnd a).br } := by
  simp only [acsuccBody, acBand_run (codeMap_functional s 1 u.toNat) hband _ rfl]
  cases o <;> rfl

/-! ## The end of a refinement scan (R165, "on scan-end") -/

@[simp] theorem acEnd_blk (a : AcRun) : (acEnd a).blk = a.blk := by
  rw [acEnd]
  split_ifs <;> rfl

@[simp] theorem acEnd_br (a : AcRun) : (acEnd a).br = a.br := by
  rw [acEnd]
  split_ifs <;> rfl

@[simp] theorem acEnd_nextNeg (a : AcRun) : (acEnd a).ac.nextNeg = a.ac.nextNeg := by
  rw [acEnd]
  split_ifs <;> rfl

theorem acEnd_of_ne {a : AcRun} (h : a.ac.mode ≠ .eob) : acEnd a = a :=
  if_neg h

/-- In state `EOB` the run is counted down, and `INITIAL` follows when it is over. -/
theorem acEnd_of_eob {a : AcRun} (h : a.ac.mode = .eob) :
    (acEnd a).eob = a.eob - 1 ∧ (acEnd a).ac.mode = if (acEnd a).eob = 0 then .initial else .eob := by
  simp only [acEnd, h, if_true]
  exact ⟨trivial, trivial⟩

end Sys2Proof.Machine

section
open Sys2Proof Sys2Proof.Machine

/-- Settles O42: `HuffDecode` answers where a code of the table stands, and raises where none does. -/
theorem hdecReturnsSymbol : Obligations.HdecReturnsSymbol := by
  intro s c k hc hk hv
  have hw := (hdec_wellFormed_iff c k).2 ⟨hc, hk⟩
  have hneeded : ∀ r ∈ neededTables (.hdec c k), s.valid r = true := by simpa [neededTables] using hv
  refine ⟨fun v r hsym => ?_, fun e he hfail => ?_⟩
  · refine runCommand_ok hw hneeded ?_
    have hdecode := (huffDecode_ok_iff (codeMap_functional s c.toNat k.toNat)).2 hsym
    rw [State.codeMap] at hdecode
    simp only [hdecBody, hdecode]
  · refine runCommand_fails (body := hdecBody c k) hw hneeded he ?_
    have hdecode := huffDecode_error_iff.2 hfail
    rw [State.codeMap] at hdecode
    simp only [hdecBody, hdecode]

/-- Settles O43: the DC part, then the loop of R161, which 64 passes cover. -/
theorem decbaseDecodesBlock : Obligations.DecbaseDecodesBlock := by
  intro s d t u p hd ht hu hp hdc hac
  have hw := (decbase_wellFormed_iff d t u p).2 ⟨hd, ht, hu, hp⟩
  have hneeded : ∀ r ∈ neededTables (.decbase d t u p), s.valid r = true := by simp [neededTables, hdc, hac]
  refine ⟨fun x r1 r2 blk hread hrun => ?_, fun e he hfail => ?_⟩
  · have hbody := decbaseBody_ok hread hrun
    refine ⟨_, runCommand_ok hw hneeded hbody, State.buf_setBuf_same _ (by omega) blk, rfl,
      State.predAt_setPred_same s (by omega) _,
      (decbase_keeps d t u p s _ hbody).mono (by simp [writeSet, brSet])⟩
  · refine runCommand_fails hw hneeded he ?_
    obtain hread | ⟨x, r1, hread, hrun⟩ := hfail
    · exact decbaseBody_dcFails hread
    · exact decbaseBody_acFails hread hrun

/-- Settles O44: `DCFIRST` needs its DC part, and `DCSUCC` one bit. -/
theorem dcCommandsWriteLaneZero : Obligations.DcCommandsWriteLaneZero := by
  intro s d t p hd ht hp
  have hfirst := (dcfirst_wellFormed_iff d t p).2 ⟨hd, ht, hp⟩
  have hsucc := (dcsucc_wellFormed_iff d).2 hd
  have hnone : ∀ r ∈ neededTables (.dcsucc d), s.valid r = true := by simp [neededTables]
  refine ⟨fun hv x r hread => ?_, fun hv he e hfail => ?_, fun b r hbit => ?_, fun he e hfail => ?_⟩
  · have hbody := dcfirstBody_ok (d := d) (p := p) hread
    have hpred : (s.setPred p.toNat (predicted s p.toNat (shl32 x s.scan.al.toNat))).predAt p.toNat
        = predicted s p.toNat (shl32 x s.scan.al.toNat) := State.predAt_setPred_same s (by omega) _
    refine ⟨_, runCommand_ok hfirst (by simpa [neededTables] using hv) hbody, rfl, hpred, ?_,
      (dcfirst_keeps d t p s _ hbody).mono (by simp [writeSet, brSet])⟩
    refine Eq.trans ?_ hpred.symm
    exact (congrArg (lane · 0) (State.buf_setBuf_same _ (by omega) _)).trans (nth_put_same _ _ (by norm_num))
  · exact runCommand_fails hfirst (by simpa [neededTables] using hv) he (dcfirstBody_dcFails hfail)
  · have hbody : dcsuccBody d s = .ok { s.setBuf d.toNat (setLane (s.buf d.toNat) 0 (lane (s.buf d.toNat) 0 |||
        BitVec.ofNat 32 (b.toNat * 2 ^ s.scan.al.toNat))) with br := r } := by
      simp only [dcsuccBody, readBit_ok_iff.2 hbit]
    refine ⟨_, runCommand_ok hsucc hnone hbody, rfl, fun j hj => ?_,
      (dcsucc_keeps d s _ hbody).mono (by simp [writeSet, brSet])⟩
    rw [← getLsbD_or_bit _ _ _ hj]
    refine congrArg (BitVec.getLsbD · j) ?_
    exact (congrArg (lane · 0) (State.buf_setBuf_same _ (by omega) _)).trans (nth_put_same _ _ (by norm_num))
  · refine runCommand_fails hsucc hnone he ?_
    simp only [dcsuccBody, readBit_error_iff.2 hfail]

/-- Settles O45: such a category is one of the ways the DC part fails. -/
theorem dcCategoryAboveSixteenFails : Obligations.DcCategoryAboveSixteenFails := by
  intro s d t p v r he hd ht hp hv hsym habove
  have hfail := DcFails.above hsym habove
  refine ⟨fun u hu hv' => ?_, ?_⟩
  · exact runCommand_fails ((decbase_wellFormed_iff d t u p).2 ⟨hd, ht, hu, hp⟩) (by simp [neededTables, hv, hv']) he
      (decbaseBody_dcFails hfail)
  · exact runCommand_fails ((dcfirst_wellFormed_iff d t p).2 ⟨hd, ht, hp⟩) (by simp [neededTables, hv]) he
      (dcfirstBody_dcFails hfail)

/-- Settles O46: a positive run is counted off; else the loop of R164 runs, which 64 passes cover. -/
theorem acfirstDecodesBand : Obligations.AcfirstDecodesBand := by
  intro s d u hd hu hv
  have hw := (acfirst_wellFormed_iff d u).2 ⟨hd, hu⟩
  have hneeded : ∀ r ∈ neededTables (.acfirst d u), s.valid r = true := by simpa [neededTables] using hv
  refine ⟨fun hrun => ?_, fun hrun blk eob r hband => ?_, fun hrun he e hband => ?_⟩
  · have hbody : acfirstBody d u s = .ok { s with eobrun := s.eobrun - 1 } := if_pos hrun
    refine ⟨_, runCommand_ok hw hneeded hbody, ?_, rfl⟩
    have hrange := signed_range s.eobrun
    exact (signed_sub_one s.eobrun).trans (wrap32_of_range (by omega) (by omega))
  · have hbody := acfirstBody_band hrun hband
    exact ⟨_, runCommand_ok hw hneeded hbody, State.buf_setBuf_same s (by omega) blk, rfl, rfl,
      (acfirst_keeps d u s _ hbody).mono (by simp [writeSet, brSet])⟩
  · exact runCommand_fails hw hneeded he (acfirstBody_band hrun hband)

/-- Settles O47: the loop of R165 runs over the band, and the run is counted down at its end. -/
theorem acsuccRefinesBand : Obligations.AcsuccRefinesBand := by
  intro s d u hd hu hv
  have hw := (acsucc_wellFormed_iff d u).2 ⟨hd, hu⟩
  have hneeded : ∀ r ∈ neededTables (.acsucc d u), s.valid r = true := by simpa [neededTables] using hv
  refine ⟨fun a hband => ?_, fun e he hband => ?_⟩
  · have hbody := acsuccBody_band hband
    refine ⟨_, runCommand_ok hw hneeded hbody, (State.buf_setBuf_same s (by omega) _).trans (acEnd_blk a), acEnd_br a,
      acEnd_nextNeg a, fun hmode => ?_, fun hmode => ?_,
      (acsucc_keeps d u s _ hbody).mono (by simp [writeSet, brSet])⟩
    · have hend := acEnd_of_ne hmode
      exact ⟨congrArg AcRun.eob hend, congrArg (·.ac.mode) hend⟩
    · obtain ⟨heob, hend⟩ := acEnd_of_eob hmode
      exact ⟨(congrArg signed heob).trans (signed_sub_one a.eob), hend⟩
  · exact runCommand_fails hw hneeded he (acsuccBody_band hband)

end
end

section
/-!
PROOFS. The resets (10_state R45, 70_reset_and_hazards R340, R341): the registers at their reset values, and what a soft
reset leaves alone, with or without a command in execution.
-/

namespace Sys2Proof.Machine

/-! ## Registers at reset -/

theorem status_eq_zero {s : State} (hr : s.running = none) (he : s.err = false) (hn : s.nobit = false)
    (hm : s.mstop = false) : s.status = 0 := by
  simp [State.status, State.busy, flagBit, hr, he, hn, hm]

theorem powerOn_registersReset (cfg : Config) (n : Nat) : RegistersReset (State.powerOn cfg n) :=
  ⟨status_eq_zero rfl rfl rfl rfl, rfl, rfl, rfl, rfl, rfl, rfl, rfl, rfl, rfl, rfl, rfl, rfl, rfl, rfl, fun _ hi => nth_tab _ hi, rfl⟩

theorem hardwareReset_registersReset (s : State) : RegistersReset (hardwareReset s) :=
  powerOn_registersReset s.cfg s.draws

theorem resetRegisters_registersReset (s : State) : RegistersReset (resetRegisters s) :=
  ⟨status_eq_zero rfl rfl rfl rfl, rfl, rfl, rfl, rfl, rfl, rfl, rfl, rfl, rfl, rfl, rfl, rfl, rfl, rfl, fun _ hi => nth_tab _ hi, rfl⟩

theorem softReset_registersReset (s : State) : RegistersReset (softReset s) :=
  resetRegisters_registersReset _

/-- Everything that a soft reset can do: with a command in execution its write set is unspecified first. -/
theorem softReset_cases (s : State) :
    (s.running = none ∧ softReset s = resetRegisters s) ∨
      ∃ i, s.running = some i ∧ softReset s = resetRegisters (havoc (writeSet i) s) := by
  rw [softReset]
  cases s.running with
  | none => exact .inl ⟨rfl, rfl⟩
  | some i => exact .inr ⟨i, rfl, rfl⟩

/-! ## What no write set holds -/

/-- The parameters, stream memory and the host's side are the same in both states. -/
structure KeepsStream (s t : State) : Prop where
  cfg : t.cfg = s.cfg
  stream : t.stream = s.stream
  memDraw : t.memDraw = s.memDraw
  host : t.host = s.host
  replies : t.replies = s.replies

theorem KeepsStream.trans {s t u : State} (h : KeepsStream s t) (k : KeepsStream t u) : KeepsStream s u :=
  ⟨k.cfg.trans h.cfg, k.stream.trans h.stream, k.memDraw.trans h.memDraw, k.host.trans h.host,
    k.replies.trans h.replies⟩

theorem havocLoc_keepsStream (n : Nat) (s : State) (l : Loc) : KeepsStream s (havocLoc n s l) := by
  cases l with
  | table r => cases r <;> exact ⟨rfl, rfl, rfl, rfl, rfl⟩
  | _ => exact ⟨rfl, rfl, rfl, rfl, rfl⟩

theorem havocFold_keepsStream (n : Nat) (ws : List Loc) (s : State) : KeepsStream s (ws.foldl (havocLoc n) s) := by
  induction ws generalizing s with
  | nil => exact ⟨rfl, rfl, rfl, rfl, rfl⟩
  | cons l ws ih => exact (havocLoc_keepsStream n s l).trans (ih _)

theorem havoc_keepsStream (ws : List Loc) (s : State) : KeepsStream s (havoc ws s) :=
  (havocFold_keepsStream s.draws ws s).trans ⟨rfl, rfl, rfl, rfl, rfl⟩

theorem softReset_keepsStream (s : State) : KeepsStream s (softReset s) := by
  obtain ⟨-, h⟩ | ⟨i, -, h⟩ := softReset_cases s <;> rw [h]
  · exact ⟨rfl, rfl, rfl, rfl, rfl⟩
  · exact (havoc_keepsStream (writeSet i) s).trans ⟨rfl, rfl, rfl, rfl, rfl⟩

/-! ## Which commands write tables -/

theorem table_mem_loadSet {q : TableRef} {r : Option TableRef} : .table q ∈ loadSet r ↔ r = some q := by
  cases r <;> simp [loadSet, eq_comm]

theorem valid_mem_loadSet {q : TableRef} {r : Option TableRef} : .valid q ∈ loadSet r ↔ r = some q := by
  cases r <;> simp [loadSet, eq_comm]

/-- A load of a Huffman table names no other kind of table. -/
theorem huffSpec_eq_huff {spec : Byte} {r : TableRef} (h : huffSpec spec = some r) : ∃ c k, k < 4 ∧ r = .huff c k := by
  obtain ⟨-, hk, rfl⟩ := huffSpec_some h
  exact ⟨_, _, by omega, rfl⟩

theorem quantSpec_eq_quant {spec : Byte} {r : TableRef} (h : quantSpec spec = some r) : ∃ t, r = .quant t := by
  obtain ⟨-, rfl⟩ := quantSpec_some h
  exact ⟨_, rfl⟩

/-- Only `HTLOAD` writes a Huffman table or its valid bit. -/
theorem writeSet_huff {i : Instr} {c k : Nat}
    (h : .table (.huff c k) ∈ writeSet i ∨ .valid (.huff c k) ∈ writeSet i) :
    ∃ spec, i = .htload spec ∧ huffSpec spec = some (.huff c k) := by
  cases i with
  | htload spec =>
    rw [writeSet, table_mem_loadSet, valid_mem_loadSet, or_self] at h
    exact ⟨spec, rfl, h⟩
  | qload spec =>
    rw [writeSet, table_mem_loadSet, valid_mem_loadSet, or_self] at h
    obtain ⟨t, ht⟩ := quantSpec_eq_quant h
    cases ht
  | _ => simp [writeSet, brSet] at h

/-- Only `EQLOAD` writes an encoder table or its valid bit. -/
theorem writeSet_recip {i : Instr} {t : Nat} (h : .table (.recip t) ∈ writeSet i ∨ .valid (.recip t) ∈ writeSet i) :
    ∃ b k, i = .eqload b k ∧ k.toNat = t := by
  cases i with
  | eqload b k =>
    simp only [writeSet, List.mem_cons, Loc.table.injEq, Loc.valid.injEq, TableRef.recip.injEq, reduceCtorEq,
      List.not_mem_nil, or_false, false_or, or_self] at h
    exact ⟨b, k, rfl, h.symm⟩
  | htload spec =>
    rw [writeSet, table_mem_loadSet, valid_mem_loadSet, or_self] at h
    obtain ⟨c, k, -, hr⟩ := huffSpec_eq_huff h
    cases hr
  | qload spec =>
    rw [writeSet, table_mem_loadSet, valid_mem_loadSet, or_self] at h
    obtain ⟨k, hr⟩ := quantSpec_eq_quant h
    cases hr
  | _ => simp [writeSet, brSet] at h

/-- Only `QLOAD` writes a dequantization table. -/
theorem writeSet_quant {i : Instr} {t : Nat} (h : .table (.quant t) ∈ writeSet i) : ∃ spec, i = .qload spec := by
  cases i with
  | qload spec => exact ⟨spec, rfl⟩
  | htload spec =>
    rw [writeSet, table_mem_loadSet] at h
    obtain ⟨c, k, -, hr⟩ := huffSpec_eq_huff h
    cases hr
  | _ => simp [writeSet, brSet] at h

/-! ## The memories of an abandoned command -/

/-- The buffers and tables of `t` are those of `s` outside the locations `ws`. -/
structure MemoriesOutside (ws : List Loc) (s t : State) : Prop where
  lane : ∀ b < 8, ∀ l < 64, .buf b ∉ ws → (l = 0 → .lane0 b ∉ ws) → lane (t.buf b) l = lane (s.buf b) l
  quant : ∀ k < 4, .table (.quant k) ∉ ws → t.qt k = s.qt k
  recip : ∀ k < 4, .table (.recip k) ∉ ws → t.fq k = s.fq k
  huff : ∀ c < 2, ∀ k < 4, .table (.huff c k) ∉ ws → t.ht c k = s.ht c k

theorem FrameOutside.memories {ws : List Loc} {s t : State} (h : FrameOutside ws s t) : MemoriesOutside ws s t :=
  ⟨h.lane, fun k hk hm => (h.quant k hk hm).1, h.recip, h.huff⟩

theorem MemoriesOutside.trans {ws : List Loc} {s t u : State} (h : MemoriesOutside ws s t)
    (k : MemoriesOutside ws t u) : MemoriesOutside ws s u where
  lane b hb l hl m n := (k.lane b hb l hl m n).trans (h.lane b hb l hl m n)
  quant j hj m := (k.quant j hj m).trans (h.quant j hj m)
  recip j hj m := (k.recip j hj m).trans (h.recip j hj m)
  huff c hc j hj m := (k.huff c hc j hj m).trans (h.huff c hc j hj m)

/-- Making a location unspecified changes that memory only, whatever slot the location names; a Huffman slot must be
one of the four, since the tables of both classes stand in one row. -/
theorem havocLoc_memories {ws : List Loc} {l : Loc} (hl : l ∈ ws) (hk : ∀ c k, l = .table (.huff c k) → k < 4)
    (n : Nat) (s : State) : MemoriesOutside ws s (havocLoc n s l) := by
  have hws : [l] ⊆ ws := by simpa using hl
  cases l with
  | valid r => exact ⟨fun _ _ _ _ _ _ => rfl, fun _ _ _ => rfl, fun _ _ _ => rfl, fun _ _ _ _ _ => rfl⟩
  | table r =>
    cases r with
    | recip t => exact ((setFq_frame s t _).mono hws).memories
    | huff c k => exact ((setHt_frame s (hk c k rfl) _).mono hws).memories
    | quant t =>
      obtain ⟨hlane, hquant, hrecip, hhuff⟩ :=
        ((setQt_frame s t (tab fun i => Config.drawQuant n t i)).mono hws).memories
      exact ⟨hlane, hquant, hrecip, hhuff⟩
  | brOffset | bdata | bcount | result | nobit | mstop | pred | eobrun | acstate | tblptr | buf | lane0 =>
    exact ((havocLoc_frame n s rfl).mono hws).memories

theorem havocFold_memories {ws : List Loc} (n : Nat) (vs : List Loc) (hs : vs ⊆ ws)
    (hk : ∀ c k, .table (.huff c k) ∈ ws → k < 4) (s : State) :
    MemoriesOutside ws s (vs.foldl (havocLoc n) s) := by
  induction vs generalizing s with
  | nil => exact (FrameOutside.refl ws s).memories
  | cons l vs ih =>
    have hl : l ∈ ws := hs (by simp)
    exact (havocLoc_memories hl (fun c k h => hk c k (h ▸ hl)) n s).trans (ih (fun x hx => hs (by simp [hx])) _)

/-- Making a command's write set unspecified leaves the other memories alone, the command well formed or not. -/
theorem havoc_memories (i : Instr) (s : State) : MemoriesOutside (writeSet i) s (havoc (writeSet i) s) := by
  have hk : ∀ c k, .table (.huff c k) ∈ writeSet i → k < 4 := by
    intro c k h
    obtain ⟨spec, -, hspec⟩ := writeSet_huff (.inl h)
    obtain ⟨c', k', hlt, hr⟩ := huffSpec_eq_huff hspec
    cases hr
    exact hlt
  obtain ⟨hlane, hquant, hrecip, hhuff⟩ := havocFold_memories s.draws (writeSet i) (fun _ h => h) hk s
  exact ⟨hlane, hquant, hrecip, hhuff⟩

/-- A soft reset of an idle block leaves every memory alone. -/
theorem softReset_idle {s : State} (h : s.running = none) : softReset s = resetRegisters s := by
  obtain ⟨-, e⟩ | ⟨i, hi, -⟩ := softReset_cases s
  · exact e
  · rw [h] at hi
    cases hi

/-- A soft reset abandons a command and leaves the memories outside its write set alone. -/
theorem softReset_abandoned {s : State} {i : Instr} (h : s.running = some i) :
    MemoriesOutside (writeSet i) s (softReset s) := by
  obtain ⟨hn, -⟩ | ⟨j, hj, e⟩ := softReset_cases s
  · rw [h] at hn
    cases hn
  · rw [h] at hj
    cases hj
    rw [e]
    obtain ⟨hlane, hquant, hrecip, hhuff⟩ := havoc_memories i s
    exact ⟨hlane, hquant, hrecip, hhuff⟩

end Sys2Proof.Machine

section
open Sys2Proof Sys2Proof.Machine

/-- Settles O11: the step is the soft reset, which resets the registers last. -/
theorem softResetKeepsMemories : Obligations.SoftResetKeepsMemories := by
  intro s v rest hh h0
  obtain ⟨hcfg, hstream, hdraw, hhost, hreplies⟩ := softReset_keepsStream { s with host := rest }
  rw [step_ctrl hh, writeCtrl_of_sreset h0]
  refine ⟨_, rfl, softReset_registersReset _, hstream, hdraw, hcfg, hhost, hreplies, fun hr => ?_, fun i hr => ?_⟩
  · rw [softReset_idle (s := { s with host := rest }) hr]
    exact ⟨rfl, rfl, rfl, rfl⟩
  · obtain ⟨hlane, hquant, hrecip, hhuff⟩ := softReset_abandoned (s := { s with host := rest }) hr
    exact ⟨hlane, hquant, hrecip, hhuff⟩

/-- Settles O12: both states are the power-on state, but for the host's side. -/
theorem hardwareResetSetsRegisters : Obligations.HardwareResetSetsRegisters := by
  refine ⟨powerOn_registersReset _ _, rfl, fun s rest hh => ?_⟩
  rw [step_cons hh]
  exact ⟨_, rfl, hardwareReset_registersReset _, rfl, rfl⟩

end
end

section
/-!
PROOFS. The invariants of a run (Safety.lean): each holds at reset, and every step keeps it. A step is a command, a
reset, an error clear, a recorded error or a host access (`StepTo`); each part has its own lemma.
-/

namespace Sys2Proof.Machine

variable {s t : State}

/-! ## Host writes of the window -/

/-- What a host write of the window other than of `CTRL` and `CMD` leaves alone, and that it keeps stream memory
canonical and inside `STREAM_CAP`. -/
structure WindowWrite (s t : State) : Prop where
  cfg : t.cfg = s.cfg
  running : t.running = s.running
  err : t.err = s.err
  errcode : t.errcode = s.errcode
  errinfo : t.errinfo = s.errinfo
  errcmd : t.errcmd = s.errcmd
  tvalid : t.tvalid = s.tvalid
  fqs : t.fqs = s.fqs
  hts : t.hts = s.hts
  draws : t.draws = s.draws
  memDraw : t.memDraw = s.memDraw
  qtDraw : t.qtDraw = s.qtDraw
  streamLen : s.streamLen.toNat ≤ s.cfg.streamCap → t.streamLen.toNat ≤ s.cfg.streamCap
  wf : Memory.wf s.stream = true → Memory.wf t.stream = true
  inside : (∀ c ∈ s.stream, c.1 < s.cfg.streamCap) → ∀ c ∈ t.stream, c.1 < s.cfg.streamCap

theorem WindowWrite.refl (s : State) : WindowWrite s s :=
  ⟨rfl, rfl, rfl, rfl, rfl, rfl, rfl, rfl, rfl, rfl, rfl, rfl, id, id, id⟩

/-- A state that differs from `s` in its stream bytes only. -/
theorem eq_set_stream (h : { t with stream := s.stream } = s) : t = { s with stream := t.stream } :=
  congrArg (fun u : State => { u with stream := t.stream }) h

/-- A write that changes stream bytes only. -/
theorem WindowWrite.of_stream (h : { t with stream := s.stream } = s)
    (hwf : Memory.wf s.stream = true → Memory.wf t.stream = true)
    (hin : (∀ c ∈ s.stream, c.1 < s.cfg.streamCap) → ∀ c ∈ t.stream, c.1 < s.cfg.streamCap) : WindowWrite s t := by
  rw [eq_set_stream h]
  exact ⟨rfl, rfl, rfl, rfl, rfl, rfl, rfl, rfl, rfl, rfl, rfl, rfl, id, hwf, hin⟩

theorem reg_write_window {r : Reg} (hr : r ≠ .ctrl) (v : Word) (s : State) : WindowWrite s (r.write v s) := by
  cases r with
  | ctrl => exact absurd rfl hr
  | streamLen =>
    refine ⟨rfl, rfl, rfl, rfl, rfl, rfl, rfl, rfl, rfl, rfl, rfl, rfl, fun _ => ?_, id, id⟩
    exact (toNat_min_streamCap v s.cfg).trans_le (min_le_right _ _)
  | _ => exact ⟨rfl, rfl, rfl, rfl, rfl, rfl, rfl, rfl, rfl, rfl, rfl, rfl, id, id, id⟩

/-- The offset of `CTRL` is the only one at which it stands. -/
theorem regMap_ctrl {off : Nat} (h : regMap.lookup off = some .ctrl) : off = 0x008 := by
  obtain ⟨l, l', hl, -⟩ := List.lookup_eq_some_iff.1 h
  have honly : ∀ p ∈ regMap, p.2 = .ctrl → p.1 = 0x008 := by decide
  exact honly (off, .ctrl) (by simp [hl]) rfl

theorem placeAt_reg_lookup {cap off : Nat} {r : Reg} (h : placeAt cap off = .reg r) : regMap.lookup off = some r := by
  simp only [placeAt] at h
  split_ifs at h with h1
  split at h
  · rename_i q hq
    cases h
    exact hq
  · cases h

theorem write32_window {off : Nat} (hoff : off ≠ 0x008) (v : Word) (s : State) : WindowWrite s (write32 s off v) := by
  by_cases h4 : off % 4 = 0
  · rw [write32_place v h4]
    cases hp : placeAt s.cfg.streamCap off with
    | reg r =>
      refine reg_write_window ?_ v s
      rintro rfl
      exact hoff (regMap_ctrl (placeAt_reg_lookup hp))
    | lane b i => exact ⟨rfl, rfl, rfl, rfl, rfl, rfl, rfl, rfl, rfl, rfl, rfl, rfl, id, id, id⟩
    | quant t i => exact .refl s
    | stream o =>
      obtain ⟨hsame, hwf, hin⟩ := writeStream32_stream (s := s) o v
      exact .of_stream hsame hwf hin
    | reserved => exact .refl s
  · rw [show write32 s off v = s from if_pos h4]
    exact .refl s

theorem write8_window (off : Nat) (v : Byte) (s : State) : WindowWrite s (write8 s off v) := by
  rw [write8]
  cases placeAt s.cfg.streamCap off with
  | stream o =>
    obtain ⟨hsame, hwf, hin⟩ := setHostByte_stream (s := s) o v
    exact .of_stream hsame hwf hin
  | reg r => exact .refl s
  | lane b i => exact .refl s
  | quant t i => exact .refl s
  | reserved => exact .refl s

/-! ## Every invariant is kept by a host write -/

theorem WindowWrite.streamInv (h : WindowWrite s t) (hs : s.StreamInv) : t.StreamInv := by
  obtain ⟨hlegal, hlen, hwf, hin⟩ := hs
  rw [State.StreamInv, h.cfg]
  exact ⟨hlegal, h.streamLen hlen, h.wf hwf, h.inside hin⟩

theorem WindowWrite.errorInv (h : WindowWrite s t) (hs : s.ErrorInv) : t.ErrorInv := by
  rw [State.ErrorInv, h.err, h.errcode, h.errinfo, h.errcmd]
  exact hs

theorem WindowWrite.huffInv (h : WindowWrite s t) (hs : s.HuffInv) : t.HuffInv := by
  intro c hc k hk hvalid
  rw [State.valid, h.tvalid] at hvalid
  rw [State.ht, h.hts]
  exact hs c hc k hk hvalid

theorem WindowWrite.recipInv (h : WindowWrite s t) (hs : s.RecipInv) : t.RecipInv := by
  intro k hk hvalid
  rw [State.valid, h.tvalid] at hvalid
  rw [State.fq, h.fqs]
  exact hs k hk hvalid

theorem WindowWrite.drawInv (h : WindowWrite s t) (hs : s.DrawInv) : t.DrawInv := by
  rw [State.DrawInv, h.draws, h.memDraw, h.qtDraw]
  exact hs

/-! ## Stream memory -/

theorem exec_streamInv {i : Instr} (h : exec i s = .next t) (hs : s.StreamInv) : t.StreamInv := by
  have hframe := exec_frame h
  rw [State.StreamInv, hframe.cfg, hframe.streamLen, hframe.cells]
  exact hs

theorem softReset_streamInv (hs : s.StreamInv) : (softReset s).StreamInv := by
  obtain ⟨hlegal, -, hwf, hin⟩ := hs
  have hkeeps := softReset_keepsStream s
  rw [State.StreamInv, hkeeps.cfg, hkeeps.stream]
  exact ⟨hlegal, Nat.zero_le _, hwf, hin⟩

theorem powerOn_streamInv {cfg : Config} (h : cfg.legal = true) (n : Nat) : (State.powerOn cfg n).StreamInv :=
  ⟨h, Nat.zero_le _, rfl, by simp [State.powerOn]⟩

/-! ## The error registers -/

theorem ErrorOutcome.errorInv {w : Word} (h : ErrorOutcome w s t) (hs : s.ErrorInv) : t.ErrorInv := by
  obtain ⟨err, code, info, cmd⟩ | ⟨-, err, -, hcode⟩ := h
  · rw [State.ErrorInv, err, code, info, cmd]
    exact hs
  · exact ⟨fun hf => absurd (err.symm.trans hf) (by decide), fun _ => hcode⟩

/-- Cleared error registers are consistent. -/
theorem errorInv_of_clear (he : s.err = false) (hc : s.errcode = 0) (hi : s.errinfo = 0) (hw : s.errcmd = 0) :
    s.ErrorInv :=
  ⟨fun _ => ⟨hc, hi, hw⟩, fun ht => absurd (he.symm.trans ht) (by decide)⟩

/-! ## Tables and their valid bits -/

theorem valid_eq_false_of_tvalid (h : s.tvalid = 0) (r : TableRef) : s.valid r = false := by
  rw [State.valid, h]
  exact BitVec.getLsbD_zero

/-- A command that ends with a valid bit of its write set at 1 has raised at decode or has completed. -/
theorem runCommand_valid_cases {i : Instr} {body : State → Except CmdError State} {r : TableRef}
    (hm : .valid r ∈ writeSet i) (h : runCommand i body s = .next t) (hv : t.valid r = true) :
    (∃ e, t = recordError e (encode i) s) ∨ (i.wellFormed = true ∧ body s = .ok t) := by
  obtain ⟨e, -, ht⟩ | ⟨hw, -, done | ⟨e, -, rfl⟩⟩ := runCommand_cases h
  · exact .inl ⟨e, ht⟩
  · exact .inr ⟨hw, done⟩
  · rw [raiseInExecution_valid hw hm e s] at hv
    cases hv

theorem huffInv_of_tvalid (h : s.tvalid = 0) : s.HuffInv := by
  intro c _ k _ hvalid
  rw [valid_eq_false_of_tvalid h] at hvalid
  cases hvalid

theorem recipInv_of_tvalid (h : s.tvalid = 0) : s.RecipInv := by
  intro j _ hvalid
  rw [valid_eq_false_of_tvalid h] at hvalid
  cases hvalid

theorem recordError_huffInv (e : CmdError) (w : Word) (hs : s.HuffInv) : (recordError e w s).HuffInv := by
  obtain ⟨-, h⟩ | ⟨-, h⟩ := recordError_cases e w s <;> rw [h] <;> exact hs

theorem recordError_recipInv (e : CmdError) (w : Word) (hs : s.RecipInv) : (recordError e w s).RecipInv := by
  obtain ⟨-, h⟩ | ⟨-, h⟩ := recordError_cases e w s <;> rw [h] <;> exact hs

/-- A load that completes leaves a table as R140 builds it. -/
theorem htloadBody_ok_wf {spec : Byte} {c k : Nat} (hspec : huffSpec spec = some (.huff c k))
    (h : htloadBody spec s = .ok t) : (t.ht c k).wf = true := by
  obtain ⟨hc, hk, href⟩ := huffSpec_some hspec
  cases href
  rw [htloadBody_legal hc hk] at h
  cases hread : readHuffTable s.streamByte spec s.tblptr.toNat with
  | error e =>
    rw [hread] at h
    cases h
  | ok tab =>
    rw [hread] at h
    cases h
    rw [huffLoaded_ht hc hk]
    exact readHuffTable_wf hread

/-- Every command keeps valid Huffman tables: it leaves them alone, or it is the load of one. -/
theorem exec_huffInv {i : Instr} (h : exec i s = .next t) (hs : s.HuffInv) : t.HuffInv := by
  intro c hc k hk hv
  by_cases hm : .table (.huff c k) ∈ writeSet i ∨ .valid (.huff c k) ∈ writeSet i
  · obtain ⟨spec, rfl, hspec⟩ := writeSet_huff hm
    have hvalid : .valid (.huff c k) ∈ writeSet (.htload spec) := valid_mem_loadSet.2 hspec
    obtain ⟨e, rfl⟩ | ⟨-, done⟩ := runCommand_valid_cases hvalid h hv
    · exact recordError_huffInv e _ hs c hc k hk hv
    · exact htloadBody_ok_wf hspec done
  · rw [not_or] at hm
    have hframe := exec_frame h
    rw [hframe.huffValid c hc k hk hm.2] at hv
    rw [hframe.huff c hc k hk hm.1]
    exact hs c hc k hk hv

/-! ## `EQLOAD` (44_fdct_quant R221) -/

theorem entryOk_iff (v : Word) : entryOk v = true ↔ 1 ≤ signed v ∧ signed v ≤ 255 :=
  decide_eq_true_iff

/-- Every lane of a block is listed. -/
theorem lane_mem (blk : Block) {i : Nat} (hi : i < 64) : lane blk i ∈ blk.toList :=
  List.mem_of_getElem? (nth_getElem? blk hi)

theorem badEntry_none_iff (blk : Block) :
    badEntry blk = none ↔ ∀ i < 64, 1 ≤ signed (lane blk i) ∧ signed (lane blk i) ≤ 255 := by
  simp only [badEntry, List.find?_eq_none, Bool.not_eq_true', Bool.not_eq_false, entryOk_iff]
  constructor
  · exact fun h i hi => h _ (lane_mem blk hi)
  · intro h v hv
    obtain ⟨i, hi, rfl⟩ := List.getElem_of_mem hv
    have hi64 : i < 64 := by simpa using hi
    have hlane : lane blk i = blk.toList[i] :=
      Option.some.inj ((nth_getElem? blk hi64).symm.trans (List.getElem?_eq_getElem hi))
    exact hlane ▸ h i hi64

/-- The state after the reciprocals of block `blk` were stored in slot `k`. -/
def recipLoaded (blk : Block) (k : Nat) (s : State) : State :=
  (s.setFq k (tab fun j => reciprocal (signed (lane blk (zzi j))) j)).setValid (.recip k) true

theorem recipLoaded_fq {k : Nat} (hk : k < 4) (blk : Block) {j : Nat} (hj : j < 64) :
    nth ((recipLoaded blk k s).fq k) j = reciprocal (signed (lane blk (zzi j))) j := by
  have hfq : (recipLoaded blk k s).fq k = tab fun j => reciprocal (signed (lane blk (zzi j))) j :=
    State.fq_setFq_same s hk _
  rw [hfq, nth_tab _ hj]

theorem recipLoaded_valid {k : Nat} (hk : k < 4) (blk : Block) : (recipLoaded blk k s).valid (.recip k) = true :=
  State.valid_setValid_same _ (by simp [TableRef.legal, hk]) true

theorem eqloadBody_ok {b k : Nib} (h : badEntry (s.buf b.toNat) = none) :
    eqloadBody b k s = .ok (recipLoaded (s.buf b.toNat) k.toNat s) := by
  simp only [eqloadBody, h]
  rfl

theorem eqloadBody_bad {b k : Nib} {v : Word} (h : badEntry (s.buf b.toNat) = some v) :
    eqloadBody b k s = .error ⟨.badArgument, v⟩ := by
  simp only [eqloadBody, h]

/-- A load of an encoder table that completes leaves finite positive entries. -/
theorem eqloadBody_ok_posFinite {b k : Nib} (hk : k.toNat < 4) (h : eqloadBody b k s = .ok t) {j : Nat}
    (hj : j < 64) : posFinite (nth (t.fq k.toNat) j) = true := by
  cases hbad : badEntry (s.buf b.toNat) with
  | some v =>
    rw [eqloadBody_bad hbad] at h
    cases h
  | none =>
    rw [eqloadBody_ok hbad] at h
    cases h
    obtain ⟨hlow, hhigh⟩ := (badEntry_none_iff _).1 hbad (zzi j) (zzi_lt j hj)
    rw [recipLoaded_fq hk _ hj]
    exact reciprocal_posFinite hlow hhigh hj

/-- Every command keeps valid encoder tables: it leaves them alone, or it is the load of one. -/
theorem exec_recipInv {i : Instr} (h : exec i s = .next t) (hs : s.RecipInv) : t.RecipInv := by
  intro k hk hv j hj
  by_cases hm : .table (.recip k) ∈ writeSet i ∨ .valid (.recip k) ∈ writeSet i
  · obtain ⟨b, u, rfl, rfl⟩ := writeSet_recip hm
    have hvalid : .valid (.recip u.toNat) ∈ writeSet (.eqload b u) := by simp [writeSet]
    obtain ⟨e, rfl⟩ | ⟨-, done⟩ := runCommand_valid_cases hvalid h hv
    · exact recordError_recipInv e _ hs _ hk hv j hj
    · exact eqloadBody_ok_posFinite hk done hj
  · rw [not_or] at hm
    have hframe := exec_frame h
    rw [hframe.recipValid k hk hm.2] at hv
    rw [hframe.recip k hk hm.1]
    exact hs k hk hv j hj

/-! ## Draws -/

theorem drawInv_of_same (hs : s.DrawInv) (hn : t.draws = s.draws) (hm : t.memDraw = s.memDraw)
    (hq : ∀ k < 4, nth t.qtDraw k = nth s.qtDraw k) : t.DrawInv := by
  obtain ⟨hmem, hqt⟩ := hs
  refine ⟨by rwa [hm, hn], fun k hk => ?_⟩
  rw [hq k hk, hn]
  exact hqt k hk

theorem recordError_drawInv (e : CmdError) (w : Word) (hs : s.DrawInv) : (recordError e w s).DrawInv := by
  obtain ⟨-, h⟩ | ⟨-, h⟩ := recordError_cases e w s <;> rw [h] <;> exact hs

/-- A location made unspecified by draw `n` leaves window draws up to `n`. -/
theorem havocLoc_qtDraw {n : Nat} (h : ∀ k < 4, nth s.qtDraw k ≤ n) (l : Loc) :
    ∀ k < 4, nth (havocLoc n s l).qtDraw k ≤ n := by
  cases l with
  | table r =>
    cases r with
    | quant t =>
      intro k hk
      by_cases he : k = t
      · subst he
        exact (nth_put_same s.qtDraw n hk).le
      · exact (nth_put_other s.qtDraw n he).trans_le (h k hk)
    | _ => exact h
  | _ => exact h

theorem havocFold_qtDraw {n : Nat} (ws : List Loc) (h : ∀ k < 4, nth s.qtDraw k ≤ n) :
    ∀ k < 4, nth (ws.foldl (havocLoc n) s).qtDraw k ≤ n := by
  induction ws generalizing s with
  | nil => exact h
  | cons l ws ih => exact ih (havocLoc_qtDraw h l)

theorem havoc_drawInv (ws : List Loc) (hs : s.DrawInv) : (havoc ws s).DrawInv := by
  obtain ⟨hmem, hqt⟩ := hs
  refine ⟨?_, fun k hk => Nat.lt_succ_of_le (havocFold_qtDraw ws (fun j hj => (hqt j hj).le) k hk)⟩
  rw [(havoc_keepsStream ws s).memDraw, havoc_draws]
  omega

theorem resetRegisters_drawInv (hs : s.DrawInv) : (resetRegisters s).DrawInv := by
  obtain ⟨hmem, hqt⟩ := hs
  refine ⟨Nat.lt_succ_of_lt hmem, fun k hk => ?_⟩
  have hnth : nth (resetRegisters s).qtDraw k = if s.valid (.quant k) then s.draws else nth s.qtDraw k := nth_tab _ hk
  have hdraws : (resetRegisters s).draws = s.draws + 1 := rfl
  have := hqt k hk
  rw [hnth, hdraws]
  split_ifs <;> omega

theorem softReset_drawInv (hs : s.DrawInv) : (softReset s).DrawInv := by
  obtain ⟨-, h⟩ | ⟨i, -, h⟩ := softReset_cases s <;> rw [h]
  · exact resetRegisters_drawInv hs
  · exact resetRegisters_drawInv (havoc_drawInv _ hs)

theorem powerOn_drawInv (cfg : Config) (n : Nat) : (State.powerOn cfg n).DrawInv :=
  ⟨Nat.lt_succ_self n, fun _ hk => (nth_tab _ hk).trans_lt (Nat.lt_succ_self n)⟩

/-- A load of a dequantization table that completes takes no draw. -/
theorem qloadBody_qtDraw {spec : Byte} (h : qloadBody spec s = .ok t) : t.qtDraw = s.qtDraw := by
  by_cases hill : 1 < (hiNib spec).toNat ∨ 3 < (loNib spec).toNat
  · rw [qloadBody_illegal hill] at h
    cases h
  · cases hvs : quantEntries s.streamByte (hiNib spec).toNat s.tblptr.toNat 64 0 with
    | none =>
      rw [qloadBody_streamEnd (by omega) (by omega) hvs] at h
      cases h
    | some vs =>
      rw [qloadBody_ok (by omega) (by omega) hvs] at h
      cases h
      rfl

/-- Every command is its frame around an effect that takes no draw: it leaves the window draws alone, `QLOAD` too. -/
theorem exec_keepsDraws (i : Instr) : ∃ body, (∀ s, exec i s = runCommand i body s) ∧
    (i.wellFormed = true → ∀ s t, body s = .ok t →
      CleanOutside (writeSet i) s t ∧ ∀ k < 4, nth t.qtDraw k = nth s.qtDraw k) := by
  by_cases hq : ∃ spec, i = .qload spec
  · obtain ⟨spec, rfl⟩ := hq
    refine ⟨qloadBody spec, fun _ => rfl, fun _ s t done => ⟨qload_keeps spec s t done, fun k _ => ?_⟩⟩
    rw [qloadBody_qtDraw done]
  · obtain ⟨body, hexec, hkeeps⟩ := exec_keeps i
    refine ⟨body, hexec, fun hw s t done => ⟨hkeeps hw s t done, fun k hk => ?_⟩⟩
    exact ((hkeeps hw s t done).1.quant k hk fun hm => hq (writeSet_quant hm)).2

theorem exec_drawInv {i : Instr} (h : exec i s = .next t) (hs : s.DrawInv) : t.DrawInv := by
  obtain ⟨body, hexec, hkeeps⟩ := exec_keepsDraws i
  obtain ⟨e, -, rfl⟩ | ⟨hw, -, done | ⟨e, -, rfl⟩⟩ := runCommand_cases (hexec s ▸ h)
  · exact recordError_drawInv e _ hs
  · obtain ⟨⟨hframe, -, -, -, -, hdraws⟩, hqt⟩ := hkeeps hw s t done
    exact drawInv_of_same hs hdraws hframe.memDraw hqt
  · exact recordError_drawInv e _ (havoc_drawInv _ hs)

/-! ## Progress -/

theorem exec_next (i : Instr) (s : State) : ∃ t, exec i s = .next t := by
  obtain ⟨body, hexec, -⟩ := exec_keeps i
  exact ⟨_, hexec s⟩

theorem issue_next (w : Word) (s : State) : ∃ t, issue w s = .next t := by
  obtain ⟨-, h⟩ | ⟨-, -, h⟩ | ⟨-, -, ⟨i, -, h⟩ | ⟨-, h⟩⟩ := issue_cases w s
  · exact ⟨_, h⟩
  · exact ⟨_, h⟩
  · rw [h]
    exact exec_next i s
  · exact ⟨_, h⟩

theorem complete_next (s : State) : ∃ t, complete s = .next t := by
  rw [complete]
  cases s.running with
  | none => exact ⟨_, rfl⟩
  | some i => exact exec_next i _

/-- On an idle block every host statement completes. -/
theorem runStmt_idle_next (h : HostStmt) (hr : s.running = none) : ∃ t, runStmt h s = .next t := by
  cases h with
  | write32 off v =>
    simp only [runStmt]
    split_ifs
    · exact issue_next v s
    · exact ⟨_, rfl⟩
    · exact ⟨_, whenIdle_idle hr _⟩
  | read32 off =>
    simp only [runStmt]
    split_ifs
    · exact ⟨_, rfl⟩
    · exact ⟨_, whenIdle_idle hr _⟩
  | wait => exact complete_next s
  | resetInput => exact ⟨_, rfl⟩
  | write8 | writeOther | read8 | readOther => exact ⟨_, whenIdle_idle hr _⟩

theorem step_idle_next (hr : s.running = none) : ∃ t, step s = .next t := by
  cases hh : s.host with
  | nil =>
    simp only [step, advance, hh]
    exact complete_next s
  | cons h rest =>
    rw [step_cons hh]
    exact runStmt_idle_next h hr

/-- A step of an idle block leaves it idle. -/
theorem StepTo.idle (h : StepTo s t) (hr : s.running = none) : t.running = none := by
  cases h with
  | command i _ ran => exact (exec_frame ran).running
  | soft => rfl
  | hard => rfl
  | clear => exact hr
  | decodeError e w _ => exact hr
  | write32 off v _ other => exact (write32_window other v _).running.trans hr
  | write8 off v _ => exact (write8_window off v _).running.trans hr
  | host => exact hr

end Sys2Proof.Machine

section
open Sys2Proof Sys2Proof.Machine

/-- Settles O13: only a host write of the aperture changes stream memory, and only one of `STREAM_LEN` or a reset
changes the length. -/
theorem stepKeepsStreamInv : Obligations.StepKeepsStreamInv := by
  intro s t hs h
  cases step_to h with
  | command i _ ran => exact exec_streamInv ran hs
  | soft => exact softReset_streamInv hs
  | hard => exact powerOn_streamInv hs.1 s.draws
  | clear => exact hs
  | decodeError e w _ => exact hs
  | write32 off v _ other => exact (write32_window other v _).streamInv hs
  | write8 off v _ => exact (write8_window off v _).streamInv hs
  | host => exact hs

/-- Settles O14: a step leaves the error registers alone, clears them, or records an error of a code 1 to 11. -/
theorem stepKeepsErrorInv : Obligations.StepKeepsErrorInv := by
  intro s t hs h
  cases step_to h with
  | command i _ ran => exact (exec_errorOutcome ran).errorInv hs
  | soft => exact errorInv_of_clear rfl rfl rfl rfl
  | hard => exact errorInv_of_clear rfl rfl rfl rfl
  | clear => exact errorInv_of_clear rfl rfl rfl rfl
  | decodeError e w none => exact (withError_outcome e w none).errorInv hs
  | write32 off v _ other => exact (write32_window other v _).errorInv hs
  | write8 off v _ => exact (write8_window off v _).errorInv hs
  | host => exact hs

/-- Settles O15: a table becomes valid only by a load that completes, and a reset clears every valid bit. -/
theorem stepKeepsHuffInv : Obligations.StepKeepsHuffInv := by
  intro s t hs h
  cases step_to h with
  | command i _ ran => exact exec_huffInv ran hs
  | soft => exact huffInv_of_tvalid rfl
  | hard => exact huffInv_of_tvalid rfl
  | clear => exact hs
  | decodeError e w _ => exact hs
  | write32 off v _ other => exact (write32_window other v _).huffInv hs
  | write8 off v _ => exact (write8_window off v _).huffInv hs
  | host => exact hs

/-- Settles O16: a table becomes valid only by a load that completes, and a reset clears every valid bit. -/
theorem stepKeepsRecipInv : Obligations.StepKeepsRecipInv := by
  intro s t hs h
  cases step_to h with
  | command i _ ran => exact exec_recipInv ran hs
  | soft => exact recipInv_of_tvalid rfl
  | hard => exact recipInv_of_tvalid rfl
  | clear => exact hs
  | decodeError e w _ => exact hs
  | write32 off v _ other => exact (write32_window other v _).recipInv hs
  | write8 off v _ => exact (write8_window off v _).recipInv hs
  | host => exact hs

/-- Settles O17: every host statement completes on an idle block, and none leaves a command in execution. -/
theorem idleStepsCompleteIdle : Obligations.IdleStepsCompleteIdle := by
  intro s hr
  obtain ⟨t, h⟩ := step_idle_next hr
  exact ⟨t, h, (step_to h).idle hr⟩

/-- Settles O18: a failing command and a reset take the next draw and move the counter past it. -/
theorem stepKeepsDrawInv : Obligations.StepKeepsDrawInv := by
  intro s t hs h
  cases step_to h with
  | command i _ ran => exact exec_drawInv ran hs
  | soft => exact softReset_drawInv hs
  | hard => exact powerOn_drawInv s.cfg s.draws
  | clear => exact hs
  | decodeError e w _ => exact hs
  | write32 off v _ other => exact (write32_window other v _).drawInv hs
  | write8 off v _ => exact (write8_window off v _).drawInv hs
  | host => exact hs

/-- Settles O19: the reset state is a power-on state with a legal configuration. -/
theorem resetMeetsInvariants : Obligations.ResetMeetsInvariants :=
  ⟨powerOn_streamInv rfl 0, errorInv_of_clear rfl rfl rfl rfl, huffInv_of_tvalid rfl, recipInv_of_tvalid rfl,
    powerOn_drawInv _ 0, rfl⟩

end
end

section
/-!
PROOFS. The host window on an idle block (20_memory R64 to R72, 10_state R30 to R37, R46): the registers that store
fields, reserved space, non-conforming accesses, the aperture, the `BUF` and `QT` windows; and the accesses of a busy
block (70_reset_and_hazards R350).
-/

namespace Sys2Proof.Machine

/-! ## Fields of a register word -/

section Fields

/-- A field of a word, put back at its bits, is the word under the field's mask. -/
theorem field_shiftLeft (v : Word) (k n : Nat) :
    (v.extractLsb' k n).setWidth 32 <<< k = v &&& (BitVec.allOnes n).setWidth 32 <<< k := by
  apply BitVec.eq_of_getLsbD_eq
  intro j hj
  simp only [BitVec.getLsbD_shiftLeft, BitVec.getLsbD_and, BitVec.getLsbD_setWidth, BitVec.getLsbD_extractLsb',
    BitVec.getLsbD_allOnes]
  by_cases hk : j < k
  · simp [hk]
  · rw [show k + (j - k) = j by omega]
    by_cases hn : j - k < n
    · simp [hk, hn, hj, show j - k < 32 by omega]
    · simp [hk, hn]

/-- The lowest field of a word. -/
theorem field_low (v : Word) (n : Nat) : (v.extractLsb' 0 n).setWidth 32 = v &&& (BitVec.allOnes n).setWidth 32 := by
  have h := field_shiftLeft v 0 n
  rwa [BitVec.shiftLeft_zero, BitVec.shiftLeft_zero] at h

/-- Two fields that do not overlap add up. -/
theorem toNat_or_shiftLeft {x y : Word} {k : Nat} (hx : x.toNat < 2 ^ k) (hy : 2 ^ k * y.toNat < 2 ^ 32) :
    (x ||| y <<< k).toNat = x.toNat + 2 ^ k * y.toNat := by
  rw [BitVec.toNat_or, BitVec.toNat_shiftLeft, Nat.shiftLeft_eq, Nat.mul_comm, Nat.mod_eq_of_lt hy, Nat.or_comm,
    ← Nat.two_pow_add_eq_or_of_lt hx, Nat.add_comm]

/-- `BR_STATE` reads as its two fields (10_state R32). -/
theorem stateWord_eq (r : BitReader) : r.stateWord = BitVec.ofNat 32 (r.bdata.toNat + 2 ^ 8 * r.bcount.toNat) := by
  rw [BitReader.stateWord, ← BitVec.ofNat_toNat, append_toNat, Nat.add_comm, Nat.mul_comm]

/-- `SCANCFG` reads as its three fields (10_state R34). -/
theorem scanWord_eq (c : ScanCfg) :
    c.word = BitVec.ofNat 32 (c.ss.toNat + 2 ^ 8 * c.se.toNat + 2 ^ 16 * c.al.toNat) := by
  have hss := c.ss.isLt
  have hse := c.se.isLt
  have hal := c.al.isLt
  have ss : (c.ss.setWidth 32).toNat = c.ss.toNat := BitVec.toNat_setWidth_of_le (by norm_num)
  have se : (c.se.setWidth 32).toNat = c.se.toNat := BitVec.toNat_setWidth_of_le (by norm_num)
  have al : (c.al.setWidth 32).toNat = c.al.toNat := BitVec.toNat_setWidth_of_le (by norm_num)
  have low : (c.ss.setWidth 32 ||| c.se.setWidth 32 <<< 8).toNat = c.ss.toNat + 2 ^ 8 * c.se.toNat := by
    rw [toNat_or_shiftLeft (by omega) (by omega), ss, se]
  apply BitVec.eq_of_toNat_eq
  rw [ScanCfg.word, toNat_or_shiftLeft (by omega) (by omega), low, al, BitVec.toNat_ofNat,
    Nat.mod_eq_of_lt (by omega)]

/-- `ACSTATE` reads as its two fields (10_state R36). -/
theorem acWord_eq (a : AcState) : a.word = BitVec.ofNat 32 (a.mode.code + 2 ^ 8 * a.nextNeg.toNat) := by
  obtain ⟨mode, neg⟩ := a
  cases mode <;> cases neg <;> rfl

/-- `BR_STATE` after a write of `v`: the reserved bits read 0 (10_state R32, R46). -/
theorem stateWord_written (v off : Word) :
    BitReader.stateWord ⟨off, v.extractLsb' 0 8, v.extractLsb' 8 3⟩ = v &&& 0x7FF := by
  have happend : v.extractLsb' 8 3 ++ v.extractLsb' 0 8 = v.extractLsb' 0 11 := by
    apply BitVec.eq_of_getLsbD_eq
    intro j hj
    simp only [BitVec.getLsbD_append, BitVec.getLsbD_extractLsb']
    split_ifs with h
    · simp [h, hj]
    · rw [show 8 + (j - 8) = 0 + j by omega, decide_eq_true hj, decide_eq_true (by omega)]
  simp only [BitReader.stateWord, happend]
  exact field_low v 11

/-- `SCANCFG` after a write of `v` (10_state R34, R46). -/
theorem scanWord_written (v : Word) :
    ScanCfg.word ⟨v.extractLsb' 0 6, v.extractLsb' 8 6, v.extractLsb' 16 4⟩ = v &&& 0xF3F3F := by
  have hmask : (0xF3F3F : Word) = (BitVec.allOnes 6).setWidth 32 ||| (BitVec.allOnes 6).setWidth 32 <<< 8 |||
      (BitVec.allOnes 4).setWidth 32 <<< 16 := by decide
  simp only [ScanCfg.word]
  rw [field_low, field_shiftLeft, field_shiftLeft, hmask, BitVec.and_or_distrib_left, BitVec.and_or_distrib_left]

/-- Only the five numbers of a state are stored (10_state R36). -/
theorem AcMode.code_ofCode (c : Nat) : (AcMode.ofCode c).code = if c ≤ 4 then c else 0 := by
  by_cases h : c ≤ 4
  · interval_cases c <;> rfl
  · obtain ⟨n, rfl⟩ : ∃ n, c = n + 5 := ⟨c - 5, by omega⟩
    rw [if_neg h]
    rfl

/-- `ACSTATE` after a write of `v` (10_state R36, R46). -/
theorem acWord_written (v : Word) :
    AcState.word ⟨AcMode.ofCode (v.extractLsb' 0 3).toNat, v.getLsbD 8⟩
      = if (v &&& 7).toNat ≤ 4 then v &&& 0x107 else v &&& 0x100 := by
  have hlow : (v.extractLsb' 0 3).setWidth 32 = v &&& 7 := field_low v 3
  have hcode : (v &&& 7).toNat = (v.extractLsb' 0 3).toNat := by
    rw [← hlow, BitVec.toNat_setWidth_of_le (by norm_num)]
  have hflag : flagBit (v.getLsbD 8) 8 = v &&& 0x100 := (BitVec.and_twoPow v 8).symm
  have hmask : (0x107 : Word) = 7 ||| 0x100 := by decide
  simp only [AcState.word]
  rw [AcMode.code_ofCode, hflag, hcode]
  split_ifs with h
  · rw [BitVec.ofNat_toNat, hlow, hmask, BitVec.and_or_distrib_left]
  · exact BitVec.zero_or

end Fields

/-! ## Reads and writes by place -/

variable {s : State} {rest : List HostStmt} {off : Offset} {v : Word} {x : Byte}

/-- The host's statements to come are no part of what a read returns. -/
theorem read32_set_host (s : State) (h : List HostStmt) (off : Nat) : read32 { s with host := h } off = read32 s off := by
  by_cases h4 : off % 4 = 0
  · rw [read32_place h4, read32_place h4]
    cases placeAt s.cfg.streamCap off with
    | reg r => exact Reg.read_set_host s h r
    | lane | quant | stream | reserved => rfl
  · rw [read32, if_pos h4, read32, if_pos h4]

/-- On an idle block a 32-bit read replies its value and changes nothing else. -/
theorem step_read32_value (hr : s.running = none) (hh : s.host = .read32 off :: rest) {w : Word}
    (hw : read32 s off.toNat = w) : step s = .next { s with host := rest, replies := w :: s.replies } := by
  rw [step_read32 hh hr, read32_set_host, hw]
  rfl

/-- On an idle block an 8-bit read replies its byte and changes nothing else. -/
theorem step_read8_value (hr : s.running = none) (hh : s.host = .read8 off :: rest) {b : Byte}
    (hb : read8 { s with host := rest } off.toNat = b) :
    step s = .next { s with host := rest, replies := b.setWidth 32 :: s.replies } := by
  rw [step_read8 hh hr, hb]
  rfl

/-- An offset beyond the registers is not that of `CMD`. -/
theorem ne_cmdOffset (h : 0x054 ≤ off.toNat) : off ≠ cmdOffset := by
  rintro rfl
  exact absurd h (by decide)

theorem read32_unaligned (h : off.toNat % 4 ≠ 0) : read32 s off.toNat = 0 := if_pos h

theorem write32_unaligned (h : off.toNat % 4 ≠ 0) : write32 s off.toNat v = s := if_pos h

theorem read32_reserved {o : Nat} (h : placeAt s.cfg.streamCap o = .reserved) : read32 s o = 0 := by
  rw [read32]
  split_ifs
  · rfl
  · simp only [h]

theorem write32_reserved {o : Nat} (h : placeAt s.cfg.streamCap o = .reserved) : write32 s o v = s := by
  rw [write32]
  split_ifs
  · rfl
  · simp only [h]

theorem read8_reserved {o : Nat} (h : placeAt s.cfg.streamCap o = .reserved) : read8 s o = 0 := by
  simp only [read8, h]

theorem write8_reserved {o : Nat} (h : placeAt s.cfg.streamCap o = .reserved) : write8 s o x = s := by
  simp only [write8, h]

/-- No stream byte stands below the aperture (20_memory R66). -/
theorem placeAt_ne_stream {cap o : Nat} (h : o < 0x100000) (a : Nat) : placeAt cap o ≠ .stream a := by
  simp only [placeAt]
  split_ifs with h1 h2 h3 h4
  · split <;> simp
  · simp
  · simp
  · omega
  · simp

theorem read8_below (h : off.toNat < 0x100000) : read8 s off.toNat = 0 := by
  rw [read8]
  cases hp : placeAt s.cfg.streamCap off.toNat with
  | stream a => exact absurd hp (placeAt_ne_stream h a)
  | reg | lane | quant | reserved => rfl

theorem write8_below (h : off.toNat < 0x100000) : write8 s off.toNat x = s := by
  rw [write8]
  cases hp : placeAt s.cfg.streamCap off.toNat with
  | stream a => exact absurd hp (placeAt_ne_stream h a)
  | reg | lane | quant | reserved => rfl

/-! ## The aperture (R71) -/

theorem hostByte_inside {o : Nat} (h : o < s.cfg.streamCap) : hostByte s o = s.byteAt o := if_pos h

/-- A 32-bit read inside the capacity is the number that the four bytes form, the least significant first. -/
theorem readStream32_eq {o : Nat} (h : o + 3 < s.cfg.streamCap) :
    readStream32 s o = BitVec.ofNat 32 ((s.byteAt o).toNat + (s.byteAt (o + 1)).toNat * 2 ^ 8 +
      (s.byteAt (o + 2)).toNat * 2 ^ 16 + (s.byteAt (o + 3)).toNat * 2 ^ 24) := by
  have h0 := (s.byteAt o).isLt
  have h1 := (s.byteAt (o + 1)).isLt
  have h2 := (s.byteAt (o + 2)).isLt
  have h3 := (s.byteAt (o + 3)).isLt
  apply BitVec.eq_of_toNat_eq
  rw [readStream32, hostByte_inside h, hostByte_inside (by omega), hostByte_inside (by omega),
    hostByte_inside (by omega), append_toNat, append_toNat, append_toNat, BitVec.toNat_ofNat,
    Nat.mod_eq_of_lt (by omega)]
  omega

/-- The bytes after a 32-bit write inside the capacity. -/
theorem byteAt_writeStream32 {o : Nat} (h : o + 3 < s.cfg.streamCap) (w : Word) (a : Nat) :
    (writeStream32 s o w).byteAt a =
      if a = o + 3 then w.extractLsb' 24 8 else if a = o + 2 then w.extractLsb' 16 8
      else if a = o + 1 then w.extractLsb' 8 8 else if a = o then w.extractLsb' 0 8 else s.byteAt a := by
  rw [writeStream32, byteAt_setHostByte (by simpa using h), byteAt_setHostByte (by simp; omega),
    byteAt_setHostByte (by simp; omega), byteAt_setHostByte (by omega)]

/-! ## A busy block (70_reset_and_hazards R350) -/

theorem status_bits_busy (hr : s.running ≠ none) :
    s.status.getLsbD 0 = true ∧ s.status.getLsbD 1 = s.err ∧ s.status.getLsbD 2 = s.nobit ∧
      s.status.getLsbD 3 = s.mstop ∧ ∀ j, 4 ≤ j → s.status.getLsbD j = false := by
  obtain ⟨busy, others⟩ := status_bits s
  exact ⟨by rw [busy, State.busy, Option.isSome_iff_ne_none.2 hr], others⟩

/-- A `STATUS` read is answered at once, busy or not. -/
theorem step_read32_status (hh : s.host = .read32 statusOffset :: rest) :
    step s = .next { s with host := rest, replies := s.status :: s.replies } := by
  rw [step_cons hh]
  simp only [runStmt, if_true]
  rw [read32_set_host, read32_reg (r := .status) rfl rfl (by decide)]
  rfl

end Sys2Proof.Machine

section
open Sys2Proof Sys2Proof.Machine

/-- Settles O22: each offset stands for its register; a field is stored and read back at its bits. -/
theorem fieldRegistersStoreFields : Obligations.FieldRegistersStoreFields := by
  intro s v rest hr
  have hread {off : Nat} {r : Reg} (t : State) (h : regMap.lookup off = some r) : read32 t off = r.read t :=
    read32_reg (regMap_lookup_place h).1 h (regMap_lookup_place h).2
  have hpred : ∀ i < 4, regMap.lookup (0x040 + 4 * i) = some (.pred i) := by decide
  refine ⟨step_write32_reg (r := .brOffset) hr rfl (by decide), fun hh => ?brState,
    step_write32_reg (r := .tblptr) hr rfl (by decide), fun hh => ?scancfg,
    step_write32_reg (r := .eobrun) hr rfl (by decide), fun hh => ?acstate, fun i off hi hoff hh => ?pred,
    fun off _ hh => step_read32_value hr hh rfl, hread (r := .streamLen) s rfl, hread (r := .brOffset) s rfl,
    (hread (r := .brState) s rfl).trans (stateWord_eq s.br), hread (r := .tblptr) s rfl,
    (hread (r := .scancfg) s rfl).trans (scanWord_eq s.scan), hread (r := .eobrun) s rfl,
    (hread (r := .acstate) s rfl).trans (acWord_eq s.ac), fun i hi => hread s (hpred i hi)⟩
  case brState =>
    exact ⟨_, step_write32_reg (r := .brState) hr rfl (by decide) hh,
      (hread (r := .brState) _ rfl).trans (stateWord_written v s.br.offset), rfl, rfl⟩
  case scancfg =>
    exact ⟨_, step_write32_reg (r := .scancfg) hr rfl (by decide) hh,
      (hread (r := .scancfg) _ rfl).trans (scanWord_written v), rfl⟩
  case acstate =>
    exact ⟨_, step_write32_reg (r := .acstate) hr rfl (by decide) hh,
      (hread (r := .acstate) _ rfl).trans (acWord_written v), rfl⟩
  case pred =>
    refine ⟨_, step_write32_reg (r := .pred i) hr (hoff ▸ hpred i hi) (by simp) hh, State.predAt_setPred_same _ hi v,
      fun j _ hj => State.predAt_setPred_other _ hj v, rfl⟩

/-- Settles O23: at each of these offsets the place is reserved. -/
theorem reservedSpaceReadsZero : Obligations.ReservedSpaceReadsZero := by
  intro s off v x rest hr
  refine ⟨fun hoff => ?_, fun hoff => ?_⟩
  · have hplace : placeAt s.cfg.streamCap off.toNat = .reserved := by
      obtain ⟨h1, h2⟩ | h := hoff
      · exact placeAt_low_reserved h1 h2
      · exact placeAt_high_reserved h
    refine ⟨fun hh => step_read32_value hr hh (read32_reserved hplace), fun hh => ?_⟩
    rw [step_write32 hh hr (ne_cmdOffset (by omega))]
    exact congrArg _ (write32_reserved (s := { s with host := rest }) hplace)
  · have hplace : placeAt s.cfg.streamCap off.toNat = .reserved := placeAt_high_reserved (.inr hoff)
    refine ⟨fun hh => step_read8_value hr hh (read8_reserved hplace), fun hh => ?_⟩
    rw [step_write8 hh hr]
    exact congrArg _ (write8_reserved (s := { s with host := rest }) hplace)

/-- Settles O24: each of these accesses is answered before its place matters. -/
theorem nonConformingAccessesIgnored : Obligations.NonConformingAccessesIgnored := by
  intro s off n v x rest hr
  refine ⟨fun hh => ?_, fun hh => ?_, fun h4 hh => step_read32_value hr hh (read32_unaligned h4), fun h4 hh => ?_,
    fun ho hh => step_read8_value hr hh (read8_below ho), fun ho hh => ?_⟩
  · rw [step_cons hh]
    exact whenIdle_idle hr _
  · rw [step_cons hh]
    exact whenIdle_idle hr _
  · have hcmd : off ≠ cmdOffset := by
      rintro rfl
      exact h4 rfl
    rw [step_write32 hh hr hcmd, write32_unaligned h4]
  · rw [step_write8 hh hr, write8_below ho]

/-- Settles O25: the place is the stream byte at `o`, and the bytes are written one by one. -/
theorem apertureWritesStoreBytes : Obligations.ApertureWritesStoreBytes := by
  intro s off v x rest o hr hoff
  refine ⟨fun h4 hcap hh => ?_, fun hcap hh => ?_⟩
  · have hwrite : write32 { s with host := rest } off.toNat v = writeStream32 { s with host := rest } o v := by
      rw [write32_place v (by omega), hoff, placeAt_stream (show o < s.cfg.streamCap by omega)]
    have hbyte := byteAt_writeStream32 (s := { s with host := rest }) hcap v
    refine ⟨_, step_write32 hh hr (ne_cmdOffset (by omega)), ?_⟩
    rw [hwrite]
    refine ⟨(writeStream32_stream (s := { s with host := rest }) o v).1, ?_, ?_, ?_, ?_, fun a ha => ?_⟩
    · rw [hbyte, if_neg (by omega), if_neg (by omega), if_neg (by omega), if_pos rfl]
    · rw [hbyte, if_neg (by omega), if_neg (by omega), if_pos rfl]
    · rw [hbyte, if_neg (by omega), if_pos rfl]
    · rw [hbyte, if_pos rfl]
    · rw [hbyte, if_neg (by omega), if_neg (by omega), if_neg (by omega), if_neg (by omega)]
      rfl
  · have hwrite : write8 { s with host := rest } off.toNat x = setHostByte { s with host := rest } o x := by
      rw [write8, hoff, placeAt_stream hcap]
    have hbyte := byteAt_setHostByte (s := { s with host := rest }) hcap x
    refine ⟨_, step_write8 hh hr, ?_⟩
    rw [hwrite]
    refine ⟨(setHostByte_stream (s := { s with host := rest }) o x).1, ?_, fun a ha => ?_⟩
    · rw [hbyte, if_pos rfl]
    · rw [hbyte, if_neg ha]
      rfl

/-- Settles O26: the place is the stream byte at `o`. -/
theorem apertureReadsReturnBytes : Obligations.ApertureReadsReturnBytes := by
  intro s off rest o hr hoff
  refine ⟨fun h4 hcap hh => step_read32_value hr hh ?_, fun hcap hh => step_read8_value hr hh ?_⟩
  · rw [read32_place (by omega), hoff, placeAt_stream (by omega)]
    exact readStream32_eq hcap
  · rw [read8, hoff, placeAt_stream hcap]
    exact hostByte_inside hcap

/-- Settles O27: the place is lane `i` of buffer `b`, or entry `i` of table `b`. -/
theorem bufferAndTableWindows : Obligations.BufferAndTableWindows := by
  intro s off v rest b i hr hi
  refine ⟨fun hb hoff => ⟨fun hh => step_read32_value hr hh ?_, fun hh => ?_⟩,
    fun hb hoff => ⟨fun hv hh => step_read32_value hr hh ?_, fun hh => ?_⟩⟩
  · rw [read32_place (by omega), hoff, placeAt_lane hb hi]
  · have hbuf : ({ s with host := rest } : State).buf b = s.buf b := rfl
    refine ⟨_, step_write32 hh hr (ne_cmdOffset (by omega)), ?_⟩
    rw [write32_place v (by omega), hoff, placeAt_lane hb hi]
    dsimp only
    refine ⟨.of_setBuf _, ?_, fun j _ hj => ?_⟩
    · rw [State.buf_setBuf_same _ hb]
      exact nth_put_same _ _ hi
    · rw [State.buf_setBuf_same _ hb, hbuf]
      exact nth_put_other _ _ hj
  · rw [read32_place (by omega), hoff, placeAt_quant hb hi]
    exact if_pos hv
  · rw [step_write32 hh hr (ne_cmdOffset (by omega)), write32_place v (by omega), hoff, placeAt_quant hb hi]

/-- Settles O28: every access but those of `STATUS`, `CMD` and `CTRL` waits for an idle block. -/
theorem busyBlockAnswersStatusOnly : Obligations.BusyBlockAnswersStatusOnly := by
  intro s off n v x rest hr
  refine ⟨step_read32_status, status_bits_busy hr, fun ho hh => ?_, fun h1 h2 hh => ?_, fun hh => ?_, fun hh => ?_,
    fun hh => ?_, fun hh => ?_⟩ <;> rw [step_cons hh]
  · simp only [runStmt, if_neg (show off ≠ statusOffset from ho)]
    exact whenIdle_busy hr _
  · simp only [runStmt, if_neg (show off ≠ cmdOffset from h2), if_neg (show off ≠ ctrlOffset from h1)]
    exact whenIdle_busy hr _
  · exact whenIdle_busy hr _
  · exact whenIdle_busy hr _
  · exact whenIdle_busy hr _
  · exact whenIdle_busy hr _

end
end

section
/-!
PROOFS. The transforms (43_dequant_idct R192 to R197, 44_fdct_quant R221, R222, R224) and the zig-zag sequence (45_zigzag
R250): the passes of a block over its rows and columns, the IDCT and the FDCT from them, the load of an encoder table.
-/

namespace Sys2Proof.Machine

/-! ## A pass over the rows, then one over the columns -/

section Passes

variable {α : Type}

/-- Row `r` of the block whose lanes `f` gives. -/
def rowOf (f : Nat → α) (r : Nat) : Oct α :=
  ⟨f (8 * r), f (8 * r + 1), f (8 * r + 2), f (8 * r + 3), f (8 * r + 4), f (8 * r + 5), f (8 * r + 6), f (8 * r + 7)⟩

/-- Column `c` of eight rows. -/
def colOf (rows : Nat → Oct α) (c : Nat) : Oct α :=
  ⟨(rows 0).at c, (rows 1).at c, (rows 2).at c, (rows 3).at c, (rows 4).at c, (rows 5).at c, (rows 6).at c,
   (rows 7).at c⟩

theorem passes_nth [Inhabited α] (rowPass colPass : Oct α → Oct α) (f : Nat → α) {r c : Nat} (hr : r < 8) (hc : c < 8) :
    nth (mapCols colPass (mapRows rowPass (tab f))) (8 * r + c)
      = (colPass (colOf (fun r => rowPass (rowOf f r)) c)).at r := by
  rw [mapCols_nth _ _ hr hc, octOf_mapRows _ _ hc, octOf_tab_row f (by decide), octOf_tab_row f (by decide),
    octOf_tab_row f (by decide), octOf_tab_row f (by decide), octOf_tab_row f (by decide), octOf_tab_row f (by decide),
    octOf_tab_row f (by decide), octOf_tab_row f (by decide)]
  rfl

/-- Eight equal values. -/
def flatOct (x : α) : Oct α := ⟨x, x, x, x, x, x, x, x⟩

theorem flatOct_at (x : α) (i : Nat) : (flatOct x).at i = x := by
  unfold Oct.at
  split <;> rfl

end Passes

/-! ## `IDCT` (R192 to R197) -/

section Idct

variable {s : State} {d b : Nib}

/-- With its buffers in range `IDCT` completes, and its only effect is the destination. -/
theorem exec_idct_next (s : State) (hd : d.toNat ≤ 7) (hb : b.toNat ≤ 7) :
    ∃ t, exec (.idct d b) s = .next t ∧ OnlyBuf d.toNat s t ∧ t.buf d.toNat = idctBlock (s.buf b.toNat) := by
  rw [exec_idct]
  exact runCommand_setBuf (f := fun s => idctBlock (s.buf b.toNat)) (Nat.lt_succ_of_le hd)
    ((idct_wellFormed_iff d b).2 ⟨hd, hb⟩) (by simp [neededTables])

/-- A sample is stored as it is: it is in 0..255 (R196). -/
theorem signed_sample (p : Int) : signed (toWord (sampleOf p)) = sampleOf p := by
  obtain ⟨low, high⟩ : 0 ≤ sampleOf p ∧ sampleOf p ≤ 255 := clamp_range (by decide) _
  rw [signed_toWord]
  exact wrap32_of_range (le_trans (by decide) low) (lt_of_le_of_lt high (by decide))

/-- The samples of a block are those of the output stage (R196). -/
theorem signed_lane_idctBlock (blk : Block) {r c : Nat} (hr : r < 8) (hc : c < 8) :
    signed (lane (idctBlock blk) (8 * r + c)) = sampleOf ((idctPass colParams
      (colOf (fun r => idctPass rowParams (rowOf (fun i => signed (lane blk i)) r)) c)).at r) := by
  rw [idctBlock, lane, nth_tab _ (by omega), idctPasses, passes_nth _ _ _ hr hc, signed_sample]

/-- Only the first value given: the fast path (R194). -/
theorem idctPass_dc (k : PassParams) (x : Int) :
    idctPass k ⟨x, 0, 0, 0, 0, 0, 0, 0⟩ = flatOct (wsra (sq2 * x + k.fr) k.fs) :=
  if_pos (by simp)

/-- A row whose lanes but the first are 0. -/
theorem idctPass_dcRow (blk : Block) {r : Nat} (h : ∀ i < 7, lane blk (8 * r + (i + 1)) = 0) :
    idctPass rowParams (rowOf (fun i => signed (lane blk i)) r)
      = flatOct (wsra (sq2 * signed (lane blk (8 * r)) + 512) 10) := by
  have hrow : rowOf (fun i => signed (lane blk i)) r = ⟨signed (lane blk (8 * r)), 0, 0, 0, 0, 0, 0, 0⟩ := by
    rw [rowOf, h 0 (by decide), h 1 (by decide), h 2 (by decide), h 3 (by decide), h 4 (by decide), h 5 (by decide),
      h 6 (by decide)]
    rfl
  rw [hrow, idctPass_dc]
  rfl

end Idct

/-! ## `FDCTQ` (R222) and `EQLOAD` (R221) -/

section Encoder

variable {s : State} {d b k : Nib}

/-- With its buffers in range and its table loaded `FDCTQ` completes, and its only effect is the destination. -/
theorem exec_fdctq_next (hd : d.toNat ≤ 7) (hb : b.toNat ≤ 7) (hk : k.toNat ≤ 3)
    (hv : s.valid (.recip k.toNat) = true) :
    ∃ t, exec (.fdctq d b k) s = .next t ∧ OnlyBuf d.toNat s t ∧
      t.buf d.toNat = fdctqBlock s.cfg.roundImpl (s.buf b.toNat) (s.fq k.toNat) := by
  rw [exec_fdctq]
  exact runCommand_setBuf (f := fun s => fdctqBlock s.cfg.roundImpl (s.buf b.toNat) (s.fq k.toNat))
    (Nat.lt_succ_of_le hd) ((fdctq_wellFormed_iff d b k).2 ⟨hd, hb, hk⟩) (by simpa [neededTables] using hv)

theorem lane_fdctqBlock (impl : RoundImpl) (blk : Block) (fq : Vector F64 64) {r c : Nat} (hr : r < 8) (hc : c < 8) :
    lane (fdctqBlock impl blk fq) (8 * r + c) = toWord (quant impl (f64Mul ((fdctPass
      (colOf (fun r => fdctPass (rowOf (fun i => f64OfInt (signed (lane blk i))) r)) c)).at r)
        (nth fq (8 * r + c)))) := by
  rw [fdctqBlock, lane, nth_tab _ (by omega), fdctPasses, passes_nth _ _ _ hr hc]

/-- The first lane outside the range is the one reported. -/
theorem badEntry_some {blk : Block} {j : Nat} (hj : j < 64) (hbad : ¬ (1 ≤ signed (lane blk j) ∧ signed (lane blk j) ≤ 255))
    (hgood : ∀ i < j, 1 ≤ signed (lane blk i) ∧ signed (lane blk i) ≤ 255) : badEntry blk = some (lane blk j) := by
  have hlane : ∀ i (hi : i < blk.toList.length), blk.toList[i] = lane blk i := fun i hi =>
    (List.getD_eq_getElem _ _ hi).symm
  rw [badEntry, List.find?_eq_some_iff_getElem]
  refine ⟨?_, j, by simpa using hj, hlane j _, fun i hi => ?_⟩
  · rwa [Bool.not_eq_true', ← Bool.not_eq_true, entryOk_iff]
  · rw [hlane, (entryOk_iff _).2 (hgood i hi)]
    rfl

end Encoder

/-! ## The zig-zag sequence (R250) -/

/-- On an even anti-diagonal the sequence goes upwards. -/
theorem zz_step_up : ∀ k < 63, (zz k / 8 + zz k % 8) % 2 = 0 → zz k / 8 ≠ 0 ∧ zz k % 8 ≠ 7 →
    zz (k + 1) / 8 + 1 = zz k / 8 ∧ zz (k + 1) % 8 = zz k % 8 + 1 := by
  decide

/-- An even anti-diagonal is left over the right border, or over the upper one. -/
theorem zz_step_even_border : ∀ k < 63, (zz k / 8 + zz k % 8) % 2 = 0 →
    (zz k % 8 = 7 → zz (k + 1) / 8 = zz k / 8 + 1 ∧ zz (k + 1) % 8 = 7) ∧
    (zz k / 8 = 0 ∧ zz k % 8 ≠ 7 → zz (k + 1) / 8 = 0 ∧ zz (k + 1) % 8 = zz k % 8 + 1) := by
  decide

/-- On an odd anti-diagonal the sequence goes downwards. -/
theorem zz_step_down : ∀ k < 63, (zz k / 8 + zz k % 8) % 2 = 1 → zz k / 8 ≠ 7 ∧ zz k % 8 ≠ 0 →
    zz (k + 1) / 8 = zz k / 8 + 1 ∧ zz (k + 1) % 8 + 1 = zz k % 8 := by
  decide

/-- An odd anti-diagonal is left over the lower border, or over the left one. -/
theorem zz_step_odd_border : ∀ k < 63, (zz k / 8 + zz k % 8) % 2 = 1 →
    (zz k / 8 = 7 → zz (k + 1) / 8 = 7 ∧ zz (k + 1) % 8 = zz k % 8 + 1) ∧
    (zz k % 8 = 0 ∧ zz k / 8 ≠ 7 → zz (k + 1) / 8 = zz k / 8 + 1 ∧ zz (k + 1) % 8 = 0) := by
  decide

end Sys2Proof.Machine

section
open Sys2Proof Sys2Proof.Machine

/-- Settles O51: each sample is the output stage of the two passes, which are the pseudocode's. -/
theorem idctTransformsBlock : Obligations.IdctTransformsBlock := by
  intro s d b hd hb
  obtain ⟨t, hnext, honly, hbuf⟩ := exec_idct_next s hd hb
  refine ⟨t, hnext, honly, fun r hr c hc => ?_⟩
  have hlane := signed_lane_idctBlock (s.buf b.toNat) hr hc
  rw [hbuf, hlane]
  refine ⟨?_, clamp_range (by decide) _⟩
  simp only [idctPass_eq_rule]
  rfl

/-- Settles O52: every row but the first is 0, and each pass takes its fast path. -/
theorem idctOfDcBlockIsFlat : Obligations.IdctOfDcBlockIsFlat := by
  intro s d b hd hb hzero
  obtain ⟨t, hnext, honly, hbuf⟩ := exec_idct_next s hd hb
  refine ⟨t, hnext, honly, fun i hi => ?_⟩
  have hrow : ∀ r < 8, idctPass rowParams (rowOf (fun i => signed (lane (s.buf b.toNat) i)) r)
      = flatOct (wsra (sq2 * signed (lane (s.buf b.toNat) (8 * r)) + 512) 10) :=
    fun r hr => idctPass_dcRow _ fun i hi => hzero _ (by omega) (by omega)
  have hrest : ∀ r, 1 ≤ r → r < 8 →
      idctPass rowParams (rowOf (fun i => signed (lane (s.buf b.toNat) i)) r) = flatOct 0 := by
    intro r h1 h2
    rw [hrow r h2, hzero _ (by omega) (by omega)]
    rfl
  have hlane := signed_lane_idctBlock (s.buf b.toNat) (r := i / 8) (c := i % 8) (by omega) (by omega)
  rw [show 8 * (i / 8) + i % 8 = i by omega, colOf, hrow 0 (by decide), hrest 1 (by decide) (by decide),
    hrest 2 (by decide) (by decide), hrest 3 (by decide) (by decide), hrest 4 (by decide) (by decide),
    hrest 5 (by decide) (by decide), hrest 6 (by decide) (by decide), hrest 7 (by decide) (by decide)] at hlane
  simp only [flatOct_at, idctPass_dc] at hlane
  rw [hbuf, hlane]
  rfl

/-- Settles O54: the body stores the reciprocals, or fails with the first lane outside the range. -/
theorem eqloadStoresReciprocals : Obligations.EqloadStoresReciprocals := by
  intro s b k hb hk
  have hw : (Instr.eqload b k).wellFormed = true := (eqload_wellFormed_iff b k).2 ⟨hb, hk⟩
  refine ⟨fun hall => ?_, fun j hj he hbad hgood => ?_⟩
  · have hbody := eqloadBody_ok (k := k) ((badEntry_none_iff _).2 hall)
    refine ⟨_, runCommand_ok_of_noTable hw rfl hbody, recipLoaded_valid (by omega) _, fun row hr col hc => ?_,
      eqload_keeps hk s _ hbody⟩
    rw [recipLoaded_fq (by omega) _ (by omega), reciprocal, show (8 * row + col) / 8 = row by omega,
      show (8 * row + col) % 8 = col by omega]
  · obtain ⟨t, hnext, hfails, hvalid⟩ := runCommand_load_fails hw rfl he (eqloadBody_bad (badEntry_some hj hbad hgood))
    exact ⟨t, hnext, hfails, hvalid _ (by simp [writeSet])⟩

/-- Settles O55: each lane is the quantized product of the two passes, which are the pseudocode's. -/
theorem fdctqTransformsBlock : Obligations.FdctqTransformsBlock := by
  intro s d b k hd hb hk hv
  obtain ⟨t, hnext, honly, hbuf⟩ := exec_fdctq_next hd hb hk hv
  refine ⟨t, hnext, honly, fun r hr c hc => ?_⟩
  rw [hbuf, lane_fdctqBlock _ _ _ hr hc]
  rfl

/-- Settles O59: `ZZ` and `ZZI` are inverse, and each of the 63 steps is a move along or over the border. -/
theorem zigzagRunsAlongDiagonals : Obligations.ZigzagRunsAlongDiagonals := by
  refine ⟨rfl, fun k hk => ⟨zz_lt k hk, zzi_zz k hk⟩, fun n hn => ⟨zzi_lt n hn, zz_zzi n hn⟩, ?_⟩
  rintro k hk _ _ _ _ rfl rfl rfl rfl
  exact ⟨fun h => ⟨zz_step_up k hk h, zz_step_even_border k hk h⟩,
    fun h => ⟨zz_step_down k hk h, zz_step_odd_border k hk h⟩⟩

end
end

section
/-!
PROOFS. Binary64 arithmetic (00_scope R9): each operation is exact on the rational values of its operands, then rounded
to nearest, ties to even; and a result that is a binary64 value itself is exact.
-/

namespace Sys2Proof.Machine

variable {a b : F64} {x y : ℚ}

/-! ## Values -/

theorem f64Value_fin {neg : Bool} {m : Nat} {e : Int} (h : unpack a = .fin neg m e) :
    f64Value a = some ((if neg then -1 else 1) * ((m : ℚ) * 2 ^ e)) := by
  rw [f64Value, h]
  cases neg <;> simp

/-- A value is that of a significand and an exponent. -/
theorem unpack_of_value (h : f64Value a = some x) :
    ∃ neg m e, unpack a = .fin neg m e ∧ x = (if neg then -1 else 1) * ((m : ℚ) * 2 ^ e) := by
  cases hu : unpack a with
  | nan =>
    rw [f64Value, hu] at h
    cases h
  | inf =>
    rw [f64Value, hu] at h
    cases h
  | fin neg m e => exact ⟨neg, m, e, rfl, Option.some.inj (h.symm.trans (f64Value_fin hu))⟩

theorem signedNat_cast (neg : Bool) (m : Nat) : (signedNat neg m : ℚ) = (if neg then -1 else 1) * m := by
  cases neg <;> simp [signedNat]

/-- The sign of a product. -/
theorem sign_mul (n k : Bool) :
    (if n then (-1 : ℚ) else 1) * (if k then -1 else 1) = if n != k then -1 else 1 := by
  cases n <;> cases k <;> norm_num

/-- Negation flips the sign bit and leaves the others. -/
theorem unpack_f64Neg {neg : Bool} {m : Nat} {e : Int} (h : unpack a = .fin neg m e) :
    unpack (f64Neg a) = .fin (!neg) m e := by
  have hsign : (f64Neg a).getLsbD 63 = !a.getLsbD 63 := by simp [f64Neg]
  have hlow : (f64Neg a).toNat % 2 ^ 63 = a.toNat % 2 ^ 63 := by
    rw [f64Neg, BitVec.toNat_xor, Nat.xor_mod_two_pow, BitVec.toNat_twoPow]
    norm_num
  have hexp : (f64Neg a).toNat / 2 ^ 52 % 2048 = a.toNat / 2 ^ 52 % 2048 := by omega
  have hfrac : (f64Neg a).toNat % 2 ^ 52 = a.toNat % 2 ^ 52 := by omega
  simp only [unpack] at h ⊢
  rw [hsign, hexp, hfrac]
  split_ifs at h ⊢ <;> cases h <;> rfl

theorem f64Value_f64Neg (h : f64Value a = some x) : f64Value (f64Neg a) = some (-x) := by
  obtain ⟨neg, m, e, hu, rfl⟩ := unpack_of_value h
  rw [f64Value_fin (unpack_f64Neg hu)]
  cases neg <;> simp

/-! ## Rounding -/

theorem sign_natAbs (z : Int) : (if decide (z < 0) then (-1 : ℚ) else 1) * z.natAbs = z := by
  rw [Nat.cast_natAbs, Int.cast_abs]
  by_cases hz : z < 0
  · rw [abs_of_neg (by exact_mod_cast hz), decide_eq_true hz]
    simp
  · rw [abs_of_nonneg (by exact_mod_cast not_lt.1 hz), decide_eq_false hz]
    simp

/-- A signed multiple of a power of two, rounded. -/
theorem roundTo_int_rounded (z : Int) (e : Int) : Rounded (z * 2 ^ e) (roundTo (decide (z < 0)) z.natAbs e) := by
  have h := roundTo_rounded (decide (z < 0)) z.natAbs e
  rwa [← mul_assoc, sign_natAbs] at h

theorem pattern_zero_rounded (neg : Bool) : Rounded 0 (pattern neg 0 0) := by
  simpa [roundTo] using roundTo_rounded neg 0 0

/-- A power of two over a lower one. -/
theorem zpow_eq_shift {e f : Int} (h : f ≤ e) : (2 : ℚ) ^ e = 2 ^ (e - f).toNat * 2 ^ f := by
  obtain ⟨n, rfl⟩ : ∃ n : Nat, e = f + n := ⟨(e - f).toNat, by omega⟩
  rw [show (f + n - f).toNat = n by omega, zpow_add₀ (by norm_num), zpow_natCast, mul_comm]

/-! ## The operations -/

theorem f64Add_rounded (ha : f64Value a = some x) (hb : f64Value b = some y) : Rounded (x + y) (f64Add a b) := by
  obtain ⟨na, ma, ea, hua, rfl⟩ := unpack_of_value ha
  obtain ⟨nb, mb, eb, hub, rfl⟩ := unpack_of_value hb
  simp only [f64Add, hua, hub]
  generalize hz : signedNat na ma * 2 ^ (ea - min ea eb).toNat + signedNat nb mb * 2 ^ (eb - min ea eb).toNat = z
  have hsum : (if na then (-1 : ℚ) else 1) * (ma * 2 ^ ea) + (if nb then -1 else 1) * (mb * 2 ^ eb)
      = z * 2 ^ min ea eb := by
    rw [← hz, zpow_eq_shift (min_le_left ea eb), zpow_eq_shift (min_le_right ea eb)]
    push_cast [signedNat_cast]
    ring
  rw [hsum]
  split_ifs with h0
  · rw [h0, Int.cast_zero, zero_mul]
    exact pattern_zero_rounded _
  · exact roundTo_int_rounded z _

theorem f64Sub_rounded (ha : f64Value a = some x) (hb : f64Value b = some y) : Rounded (x - y) (f64Sub a b) := by
  rw [sub_eq_add_neg]
  exact f64Add_rounded ha (f64Value_f64Neg hb)

theorem f64Mul_rounded (ha : f64Value a = some x) (hb : f64Value b = some y) : Rounded (x * y) (f64Mul a b) := by
  obtain ⟨na, ma, ea, hua, rfl⟩ := unpack_of_value ha
  obtain ⟨nb, mb, eb, hub, rfl⟩ := unpack_of_value hb
  have hprod : (if na then (-1 : ℚ) else 1) * (ma * 2 ^ ea) * ((if nb then -1 else 1) * (mb * 2 ^ eb))
      = (if na != nb then -1 else 1) * ((ma * mb : ℕ) * 2 ^ (ea + eb)) := by
    rw [← sign_mul, zpow_add₀ (by norm_num)]
    push_cast
    ring
  simp only [f64Mul, hua, hub]
  rw [hprod]
  exact roundTo_rounded _ _ _

/-- The quotient of two significands, rounded: exactly, or by its sticky bit. -/
theorem stickyQuotient_rounded (neg : Bool) {m n : Nat} (hn : n ≠ 0) (hl : n < 2 ^ 53) (e : Int) :
    Rounded ((if neg then -1 else 1) * ((m : ℚ) * 2 ^ 121 / n * 2 ^ e)) (roundTo neg (stickyQuotient m n) e) := by
  have hn' : (0 : ℚ) < n := by exact_mod_cast Nat.pos_of_ne_zero hn
  have hdiv := Nat.div_add_mod (m * 2 ^ 120) n
  have hmod := Nat.mod_lt (m * 2 ^ 120) (Nat.pos_of_ne_zero hn)
  have hexact : (m : ℚ) * 2 ^ 120 = n * (m * 2 ^ 120 / n : ℕ) + (m * 2 ^ 120 % n : ℕ) := by exact_mod_cast hdiv.symm
  rw [stickyQuotient]
  by_cases hr : m * 2 ^ 120 % n = 0
  · have hq : (m : ℚ) * 2 ^ 121 / n = (2 * (m * 2 ^ 120 / n) : ℕ) := by
      rw [hr, Nat.cast_zero, add_zero] at hexact
      rw [div_eq_iff hn'.ne', pow_succ, ← mul_assoc, hexact]
      push_cast
      ring
    rw [if_pos hr, add_zero, hq]
    exact roundTo_rounded neg _ e
  · rw [if_neg hr]
    have hm : 1 ≤ m := Nat.one_le_iff_ne_zero.2 fun h => hr (by rw [h, zero_mul, Nat.zero_mod])
    have hbig : 2 ^ 60 ≤ m * 2 ^ 120 / n := (Nat.le_div_iff_mul_le (Nat.pos_of_ne_zero hn)).2 (by
      calc 2 ^ 60 * n ≤ 2 ^ 60 * 2 ^ 53 := Nat.mul_le_mul_left _ hl.le
        _ ≤ 1 * 2 ^ 120 := by norm_num
        _ ≤ m * 2 ^ 120 := Nat.mul_le_mul_right _ hm)
    have hpos : (0 : ℚ) < (m * 2 ^ 120 % n : ℕ) := by exact_mod_cast Nat.pos_of_ne_zero hr
    have hlt : ((m * 2 ^ 120 % n : ℕ) : ℚ) < n := by exact_mod_cast hmod
    generalize m * 2 ^ 120 / n = q, m * 2 ^ 120 % n = r at hexact hbig hpos hlt ⊢
    refine roundTo_sticky neg (by omega) (by omega) ?_ ?_
    · rw [lt_div_iff₀ hn', pow_succ, ← mul_assoc, hexact]
      push_cast
      linarith
    · rw [div_lt_iff₀ hn', pow_succ, ← mul_assoc, hexact]
      push_cast
      linarith

theorem f64Div_rounded (ha : f64Value a = some x) (hb : f64Value b = some y) (hy : y ≠ 0) :
    Rounded (x / y) (f64Div a b) := by
  obtain ⟨na, ma, ea, hua, rfl⟩ := unpack_of_value ha
  obtain ⟨nb, mb, eb, hub, rfl⟩ := unpack_of_value hb
  have hmb : mb ≠ 0 := by
    rintro rfl
    exact hy (by simp)
  have hsign : (if nb then (-1 : ℚ) else 1)⁻¹ = if nb then -1 else 1 := by cases nb <;> norm_num
  have hquot : (if na then (-1 : ℚ) else 1) * (ma * 2 ^ ea) / ((if nb then -1 else 1) * (mb * 2 ^ eb))
      = (if na != nb then -1 else 1) * (ma * 2 ^ 121 / mb * 2 ^ (ea - eb - 121)) := by
    rw [mul_div_mul_comm, div_eq_mul_inv _ (if nb then (-1 : ℚ) else 1), hsign, sign_mul, zpow_sub₀ (by norm_num),
      zpow_sub₀ (by norm_num), show (2 : ℚ) ^ (121 : Int) = 2 ^ 121 from zpow_natCast 2 121]
    field_simp
  simp only [f64Div, hua, hub, if_neg hmb]
  rw [hquot]
  exact stickyQuotient_rounded _ hmb (unpack_fin_lt hub) _

/-! ## Exact results -/

theorem unpack_exponent_le {neg : Bool} {m : Nat} {e : Int} (h : unpack a = .fin neg m e) : e ≤ 971 := by
  simp only [unpack] at h
  split_ifs at h <;> cases h <;> omega

/-- The values are inside the finite range. -/
theorem abs_le_f64Max (h : f64Value a = some x) : |x| ≤ f64Max := by
  obtain ⟨neg, m, e, hu, rfl⟩ := unpack_of_value h
  have hm : (m : ℚ) ≤ 2 ^ 53 - 1 := by
    rw [le_sub_iff_add_le]
    exact_mod_cast unpack_fin_lt hu
  have habs : |(if neg then (-1 : ℚ) else 1) * (m * 2 ^ e)| = m * 2 ^ e := by
    rw [abs_mul, abs_of_nonneg (show (0 : ℚ) ≤ m * 2 ^ e by positivity)]
    cases neg <;> simp
  rw [habs, f64Max, ← zpow_natCast (2 : ℚ) 971]
  exact mul_le_mul hm (zpow_le_zpow_right₀ (by norm_num) (unpack_exponent_le hu)) (by positivity) (by norm_num)

/-- Rounding gives a binary64 value itself. -/
theorem Rounded.exact (h : Rounded x a) (hb : f64Value b = some x) : f64Value a = some x := by
  obtain ⟨z, hz⟩ := h.1 (abs_le_f64Max hb)
  have hnear := (h.2 z hz b x hb).1
  rw [sub_self, abs_zero] at hnear
  rw [hz, sub_eq_zero.1 (abs_nonpos_iff.1 hnear)]

theorem natCast_le_f64Max {m : Nat} (h : m < 2 ^ 53) : (m : ℚ) ≤ f64Max := by
  have hm : (m : ℚ) ≤ 2 ^ 53 := by exact_mod_cast h.le
  have hpow : (2 : ℚ) ^ (53 : Int) ≤ 2 ^ (1023 : Int) := zpow_le_zpow_right₀ (by norm_num) (by norm_num)
  exact hm.trans (hpow.trans f64Max_bounds.1)

/-- A significand of 53 bits is packed as it is. -/
theorem f64Value_roundTo_nat (neg : Bool) {m : Nat} (h : m < 2 ^ 53) :
    f64Value (roundTo neg m 0) = some ((if neg then -1 else 1) * (m : ℚ)) := by
  have hmax : (m : ℚ) * 2 ^ (0 : Int) ≤ f64Max := by
    rw [zpow_zero, mul_one]
    exact natCast_le_f64Max h
  obtain ⟨x, hx⟩ := f64Value_roundTo neg hmax
  by_cases h0 : m = 0
  · subst h0
    rw [roundTo, if_pos rfl, f64Value_pattern_zero]
    simp
  · have hlo : 2 ^ m.log2 ≤ m := Nat.log2_self_le h0
    have hhi : m < 2 ^ (m.log2 + 1) := Nat.lt_log2_self
    have hlog : m.log2 < 53 := (Nat.log2_lt h0).2 h
    have hr : roundTo neg m 0 = packExact neg (m * 2 ^ (52 - m.log2)) ((m.log2 : Int) - 52) := by
      rw [roundTo, if_neg h0]
      simp only [show max ((0 : Int) + m.log2 - 52) (-1074) = m.log2 - 52 by omega]
      rw [if_pos (by omega), show (0 - ((m.log2 : Int) - 52)).toNat = 52 - m.log2 by omega]
    have hup : m * 2 ^ (52 - m.log2) ≤ 2 ^ 53 := by
      calc m * 2 ^ (52 - m.log2) ≤ 2 ^ (m.log2 + 1) * 2 ^ (52 - m.log2) := Nat.mul_le_mul_right _ hhi.le
        _ = 2 ^ 53 := by rw [← pow_add, show m.log2 + 1 + (52 - m.log2) = 53 by omega]
    have hdn : 2 ^ 52 ≤ m * 2 ^ (52 - m.log2) := by
      calc 2 ^ 52 = 2 ^ m.log2 * 2 ^ (52 - m.log2) := by rw [← pow_add, show m.log2 + (52 - m.log2) = 52 by omega]
        _ ≤ m * 2 ^ (52 - m.log2) := Nat.mul_le_mul_right _ hlo
    have hvalue := packExact_value hup (by omega) (fun hs => absurd hs (by omega)) (hr ▸ hx)
    have hpow : (2 : ℚ) ^ (52 - m.log2) * 2 ^ ((m.log2 : Int) - 52) = 1 := by
      rw [← zpow_natCast, ← zpow_add₀ (by norm_num), show ((52 - m.log2 : ℕ) : Int) + (m.log2 - 52) = 0 by omega,
        zpow_zero]
    rw [hx, hvalue]
    push_cast
    cases neg <;> simp [mul_assoc, hpow]

/-- An integer of at most 53 bits is exact. -/
theorem f64Value_f64OfInt {n : Int} (h : n.natAbs < 2 ^ 53) : f64Value (f64OfInt n) = some (n : ℚ) := by
  rw [f64OfInt, f64Value_roundTo_nat _ h, sign_natAbs]

/-- A decimal literal is the value nearest to it. -/
theorem f64Lit_rounded {k : Nat} (h : k < 2 ^ 53) : Rounded (k / 10 ^ 9) (f64Lit k) := by
  have hk : f64Value (f64OfInt k) = some ((k : Int) : ℚ) := f64Value_f64OfInt h
  have hd : f64Value (f64OfInt 1000000000) = some ((1000000000 : Int) : ℚ) := f64Value_f64OfInt (by norm_num)
  have hq := f64Div_rounded hk hd (by norm_num)
  rw [f64Lit]
  convert hq using 1
  norm_num

end Sys2Proof.Machine

section
open Sys2Proof Sys2Proof.Machine

/-- Settles O58: an operation's exact result is what `roundTo` rounds, for a quotient by its sticky bit. -/
theorem binary64RoundsToNearestEven : Obligations.Binary64RoundsToNearestEven :=
  ⟨fun _ => f64Value_f64OfInt, fun _ => f64Lit_rounded, fun _ _ _ _ ha hb =>
    ⟨f64Add_rounded ha hb, f64Sub_rounded ha hb, f64Mul_rounded ha hb, f64Div_rounded ha hb⟩⟩

end
end

section
/-!
PROOFS. The quantizer and constant blocks (44_fdct_quant R222, R225): both roundings on the rational value of their
argument, and the passes over eight equal integers.
-/

namespace Sys2Proof.Machine

variable {a b : F64} {x y q : ℚ}

/-! ## Floors of a significand and an exponent -/

theorem floorScaled_eq (m : Nat) (e : Int) : (floorScaled m e : Int) = ⌊(m : ℚ) * 2 ^ e⌋ := by
  rw [floorScaled]
  split_ifs with he
  · obtain ⟨n, rfl⟩ := Int.eq_ofNat_of_zero_le he
    have hint : (m : ℚ) * 2 ^ (n : Int) = (m * 2 ^ n : ℕ) := by
      rw [zpow_natCast]
      push_cast
      rfl
    rw [hint, Int.floor_natCast]
    rfl
  · obtain ⟨n, rfl⟩ : ∃ n : Nat, e = -n := ⟨(-e).toNat, by omega⟩
    have hdiv : (m : ℚ) * 2 ^ (-(n : Int)) = ((m : Int) : ℚ) / (2 ^ n : ℕ) := by
      rw [zpow_neg, zpow_natCast]
      push_cast
      rfl
    rw [hdiv, Rat.floor_intCast_div_natCast, neg_neg, Int.toNat_natCast]
    push_cast
    rfl

theorem floorPlusHalf_eq (m : Nat) (e : Int) : (floorPlusHalf m e : Int) = ⌊(m : ℚ) * 2 ^ e + 1 / 2⌋ := by
  rw [floorPlusHalf]
  split_ifs with he
  · obtain ⟨n, rfl⟩ := Int.eq_ofNat_of_zero_le he
    have hint : (m : ℚ) * 2 ^ (n : Int) = (m * 2 ^ n : ℕ) := by
      rw [zpow_natCast]
      push_cast
      rfl
    rw [hint, Int.floor_natCast_add, show ⌊(1 / 2 : ℚ)⌋ = 0 by norm_num, add_zero]
    rfl
  · obtain ⟨n, rfl⟩ : ∃ n : Nat, e = -n := ⟨(-e).toNat, by omega⟩
    have hdiv : (m : ℚ) * 2 ^ (-(n : Int)) + 1 / 2 = ((2 * m + 2 ^ n : Int) : ℚ) / (2 ^ (n + 1) : ℕ) := by
      rw [zpow_neg, zpow_natCast, pow_succ]
      push_cast
      field_simp
    rw [hdiv, Rat.floor_intCast_div_natCast, neg_neg, Int.toNat_natCast]
    push_cast
    rfl

/-! ## The quantizer (R225) -/

theorem f64Positive_iff (h : f64Value a = some q) : f64Positive a = true ↔ 0 < q := by
  obtain ⟨neg, m, e, hu, rfl⟩ := unpack_of_value h
  have hpow : (0 : ℚ) < 2 ^ e := by positivity
  rw [f64Positive, hu]
  cases neg with
  | false => simp [hpow, Nat.pos_iff_ne_zero]
  | true => simpa using (by positivity : (0 : ℚ) ≤ m * 2 ^ e)

/-- `trunc` rounds towards 0. -/
theorem f64Trunc_eq (h : f64Value a = some y) : f64Trunc a = if 0 ≤ y then ⌊y⌋ else ⌈y⌉ := by
  obtain ⟨neg, m, e, hu, rfl⟩ := unpack_of_value h
  have hpos : (0 : ℚ) ≤ m * 2 ^ e := by positivity
  rw [f64Trunc, hu]
  simp only [signedNat, floorScaled_eq]
  cases neg with
  | false => simp [hpos]
  | true =>
    simp only [if_true, neg_one_mul, Int.ceil_neg]
    split_ifs with h0
    · rw [show (m : ℚ) * 2 ^ e = 0 by linarith]
      norm_num
    · rfl

/-- `EXACT`: half away from zero. -/
theorem quantExact_eq (h : f64Value a = some q) :
    quantExact a = if 0 < q then ⌊q + 1 / 2⌋ else -⌊-q + 1 / 2⌋ := by
  obtain ⟨neg, m, e, hu, rfl⟩ := unpack_of_value h
  have hpos : (0 : ℚ) ≤ m * 2 ^ e := by positivity
  rw [quantExact, hu]
  simp only [signedNat, floorPlusHalf_eq]
  cases neg with
  | false =>
    simp only [Bool.false_eq_true, if_false, one_mul]
    split_ifs with h0
    · rfl
    · rw [show (m : ℚ) * 2 ^ e = 0 by linarith]
      norm_num
  | true =>
    simp only [if_true, neg_one_mul, neg_neg]
    rw [if_neg (by linarith)]

theorem f64Half_eq : f64Half = 0x3FE0000000000000 := by decide

theorem f64Value_half : f64Value 0x3FE0000000000000 = some (1 / 2) := by
  have hu : unpack 0x3FE0000000000000 = .fin false 4503599627370496 (-53) := by decide
  rw [f64Value_fin hu]
  norm_num

theorem quantAddHalf_pos (h : f64Value a = some q) (hq : 0 < q) (hy : f64Value (f64Add a 0x3FE0000000000000) = some y) :
    quantAddHalf a = if 0 ≤ y then ⌊y⌋ else ⌈y⌉ := by
  rw [quantAddHalf, if_pos ((f64Positive_iff h).2 hq), f64Half_eq, f64Trunc_eq hy]

theorem quantAddHalf_nonpos (h : f64Value a = some q) (hq : ¬ 0 < q)
    (hy : f64Value (f64Sub a 0x3FE0000000000000) = some y) :
    quantAddHalf a = if 0 ≤ y then ⌊y⌋ else ⌈y⌉ := by
  rw [quantAddHalf, if_neg fun hp => hq ((f64Positive_iff h).1 hp), f64Half_eq, f64Trunc_eq hy]

/-- Both realisations quantize a zero of either sign to 0. -/
theorem quant_zero (impl : RoundImpl) (h : f64Value a = some 0) : quant impl a = 0 := by
  cases impl with
  | exact =>
    rw [quant, quantExact_eq h]
    norm_num [wrap32]
  | addHalfB64 =>
    have hhalf : f64Value (f64Sub a 0x3FE0000000000000) = some (0 - 1 / 2) := by
      refine (f64Sub_rounded h f64Value_half).exact (b := f64Neg 0x3FE0000000000000) ?_
      rw [f64Value_f64Neg f64Value_half, zero_sub]
    rw [quant, quantAddHalf_nonpos h (lt_irrefl 0) hhalf]
    norm_num [wrap32]

/-! ## Exact integer arithmetic -/

section Integers

theorem f64Value_f64Add_int {m n : Int} (ha : f64Value a = some (m : ℚ)) (hb : f64Value b = some (n : ℚ))
    (h : (m + n).natAbs < 2 ^ 53) : f64Value (f64Add a b) = some ((m + n : Int) : ℚ) := by
  have hr := f64Add_rounded ha hb
  rw [← Int.cast_add] at hr
  exact hr.exact (f64Value_f64OfInt h)

/-- Equal values cancel. -/
theorem f64Value_f64Sub_self (ha : f64Value a = some x) (hb : f64Value b = some x) : f64Value (f64Sub a b) = some 0 := by
  have hr := f64Sub_rounded ha hb
  rw [sub_self] at hr
  exact hr.exact (f64Value_pattern_zero false)

theorem f64Value_f64Add_zero (ha : f64Value a = some 0) (hb : f64Value b = some 0) :
    f64Value (f64Add a b) = some 0 := by
  have hr := f64Add_rounded ha hb
  rw [add_zero] at hr
  exact hr.exact (f64Value_pattern_zero false)

theorem f64Value_f64Mul_zero (ha : f64Value a = some 0) (hb : f64Value b = some y) :
    f64Value (f64Mul a b) = some 0 := by
  have hr := f64Mul_rounded ha hb
  rw [zero_mul] at hr
  exact hr.exact (f64Value_pattern_zero false)

theorem f64Value_f64Mul_zero_right (ha : f64Value a = some x) (hb : f64Value b = some 0) :
    f64Value (f64Mul a b) = some 0 := by
  have hr := f64Mul_rounded ha hb
  rw [mul_zero] at hr
  exact hr.exact (f64Value_pattern_zero false)

/-- A literal of the rules is finite. -/
theorem f64Value_f64Lit {k : Nat} (h : k < 2 ^ 53) : ∃ z, f64Value (f64Lit k) = some z := by
  refine (f64Lit_rounded h).1 ?_
  rw [abs_of_nonneg (by positivity)]
  exact (div_le_self (by positivity) (by norm_num)).trans (natCast_le_f64Max h)

theorem f64Value_of_posFinite (h : posFinite a = true) : ∃ z, f64Value a = some z := by
  rw [posFinite] at h
  cases hu : unpack a with
  | fin neg m e => exact ⟨_, f64Value_fin hu⟩
  | nan | inf =>
    rw [hu] at h
    cases h

end Integers

/-! ## A pass over equal values (R224) -/

/-- The eight values are the integer `n`. -/
def ConstOct (d : Oct F64) (n : Int) : Prop := ∀ i, f64Value (d.at i) = some (n : ℚ)

/-- The first of the eight values is the integer `n`, and the others are 0. -/
def DcOct (d : Oct F64) (n : Int) : Prop :=
  f64Value (d.at 0) = some (n : ℚ) ∧ ∀ i, 1 ≤ i → i < 8 → f64Value (d.at i) = some 0

/-- Eight equal values leave their sum and seven zeros: every difference cancels. -/
theorem fdctPass_const {d : Oct F64} {n : Int} (hd : ConstOct d n) (hn : n.natAbs ≤ 2 ^ 48) :
    DcOct (fdctPass d) (8 * n) := by
  have double {u v : F64} {k : Int} (hu : f64Value u = some (k : ℚ)) (hv : f64Value v = some (k : ℚ))
      (hk : k.natAbs ≤ 2 ^ 51) : f64Value (f64Add u v) = some ((2 * k : Int) : ℚ) := by
    rw [two_mul]
    exact f64Value_f64Add_int hu hv (by omega)
  obtain ⟨l1, hl1⟩ := f64Value_f64Lit (k := 707106781) (by norm_num)
  obtain ⟨l2, hl2⟩ := f64Value_f64Lit (k := 382683433) (by norm_num)
  obtain ⟨l3, hl3⟩ := f64Value_f64Lit (k := 541196100) (by norm_num)
  obtain ⟨l4, hl4⟩ := f64Value_f64Lit (k := 1306562965) (by norm_num)
  have tmp0 := double (hd 0) (hd 7) (by omega)
  have tmp7 := f64Value_f64Sub_self (hd 0) (hd 7)
  have tmp1 := double (hd 1) (hd 6) (by omega)
  have tmp6 := f64Value_f64Sub_self (hd 1) (hd 6)
  have tmp2 := double (hd 2) (hd 5) (by omega)
  have tmp5 := f64Value_f64Sub_self (hd 2) (hd 5)
  have tmp3 := double (hd 3) (hd 4) (by omega)
  have tmp4 := f64Value_f64Sub_self (hd 3) (hd 4)
  -- even part
  have tmp10 := double tmp0 tmp3 (by omega)
  have tmp13 := f64Value_f64Sub_self tmp0 tmp3
  have tmp11 := double tmp1 tmp2 (by omega)
  have tmp12 := f64Value_f64Sub_self tmp1 tmp2
  have z1 := f64Value_f64Mul_zero (f64Value_f64Add_zero tmp12 tmp13) hl1
  -- odd part
  have odd10 := f64Value_f64Add_zero tmp4 tmp5
  have odd11 := f64Value_f64Add_zero tmp5 tmp6
  have odd12 := f64Value_f64Add_zero tmp6 tmp7
  have z5 := f64Value_f64Mul_zero (f64Value_f64Sub_self odd10 odd12) hl2
  have z2 := f64Value_f64Add_zero (f64Value_f64Mul_zero_right hl3 odd10) z5
  have z4 := f64Value_f64Add_zero (f64Value_f64Mul_zero_right hl4 odd12) z5
  have z3 := f64Value_f64Mul_zero odd11 hl1
  have z11 := f64Value_f64Add_zero tmp7 z3
  have z13 := f64Value_f64Sub_self tmp7 z3
  have o0 := double tmp10 tmp11 (by omega)
  rw [show 2 * (2 * (2 * n)) = 8 * n by ring] at o0
  refine ⟨o0, fun i h1 h8 => ?_⟩
  interval_cases i
  · exact f64Value_f64Add_zero z11 z4
  · exact f64Value_f64Add_zero tmp13 z1
  · exact f64Value_f64Sub_self z13 z2
  · exact f64Value_f64Sub_self tmp10 tmp11
  · exact f64Value_f64Add_zero z13 z2
  · exact f64Value_f64Sub_self tmp13 z1
  · exact f64Value_f64Sub_self z11 z4

/-- Column `c` of eight rows of which only the first value is not 0. -/
theorem colOf_constOct {rows : Nat → Oct F64} {n : Int} (h : ∀ r < 8, DcOct (rows r) n) {c : Nat} (hc : c < 8) :
    ConstOct (colOf rows c) (if c = 0 then n else 0) := by
  have hvalue : ∀ r < 8, f64Value ((rows r).at c) = some (((if c = 0 then n else 0 : Int)) : ℚ) := by
    intro r hr
    split_ifs with h0
    · rw [h0]
      exact (h r hr).1
    · rw [(h r hr).2 c (Nat.one_le_iff_ne_zero.2 h0) hc, Int.cast_zero]
  intro i
  unfold Oct.at
  split <;> exact hvalue _ (by decide)

/-- Both passes over a constant block leave lane 0 alone, the others 0. -/
theorem fdctPasses_const {f : Nat → F64} {n : Int} (hf : ∀ i < 64, f64Value (f i) = some (n : ℚ)) (hn : n.natAbs ≤ 2 ^ 31)
    {r c : Nat} (hr : r < 8) (hc : c < 8) (h0 : r ≠ 0 ∨ c ≠ 0) :
    f64Value ((fdctPass (colOf (fun r => fdctPass (rowOf f r)) c)).at r) = some 0 := by
  have hrow : ∀ r < 8, DcOct (fdctPass (rowOf f r)) (8 * n) := by
    intro r hr
    refine fdctPass_const (fun i => ?_) (by omega)
    unfold Oct.at
    split <;> exact hf _ (by omega)
  obtain ⟨first, others⟩ := fdctPass_const (colOf_constOct hrow hc) (by split_ifs <;> omega)
  by_cases hr0 : r = 0
  · rw [hr0, first, if_neg (h0.resolve_left (not_not.2 hr0))]
    norm_num
  · exact others r (Nat.one_le_iff_ne_zero.2 hr0) hr

end Sys2Proof.Machine

section
open Sys2Proof Sys2Proof.Machine

/-- Settles O57: `EXACT` is a floor on the significand, `ADD_HALF_B64` a truncation of the rounded sum. -/
theorem quantRoundsHalfAway : Obligations.QuantRoundsHalfAway := by
  intro x q hq
  exact ⟨congrArg wrap32 (quantExact_eq hq), fun hpos y hy => congrArg wrap32 (quantAddHalf_pos hq hpos hy),
    fun hpos y hy => congrArg wrap32 (quantAddHalf_nonpos hq hpos hy)⟩

/-- Settles O56: the passes leave exact zeros, whose products with finite reciprocals quantize to 0. -/
theorem fdctqOfConstantBlockIsDc : Obligations.FdctqOfConstantBlockIsDc := by
  intro s d b k v hd hb hk hv hinv hconst
  obtain ⟨t, hnext, honly, hbuf⟩ := exec_fdctq_next hd hb hk hv
  refine ⟨t, hnext, honly, fun i h1 hi => ?_⟩
  have hv31 : (signed v).natAbs ≤ 2 ^ 31 := by
    have hlow := BitVec.le_toInt v
    have hhigh := BitVec.toInt_lt (x := v)
    rw [signed]
    omega
  have hsource : ∀ j < 64, f64Value (f64OfInt (signed (lane (s.buf b.toNat) j))) = some (signed v : ℚ) := by
    intro j hj
    rw [hconst j hj]
    exact f64Value_f64OfInt (by omega)
  obtain ⟨z, hz⟩ := f64Value_of_posFinite (hinv k.toNat (by omega) hv i hi)
  have hzero := fdctPasses_const hsource hv31 (r := i / 8) (c := i % 8) (by omega) (by omega) (by omega)
  have hlane := lane_fdctqBlock s.cfg.roundImpl (s.buf b.toNat) (s.fq k.toNat) (r := i / 8) (c := i % 8) (by omega)
    (by omega)
  rw [show 8 * (i / 8) + i % 8 = i by omega, quant_zero _ (f64Value_f64Mul_zero hzero hz)] at hlane
  rw [hbuf, hlane]
  rfl

end
end
